-- ==== Sys2Proof/Word.lean ====
section
/-! DEFINITION. The unit of every byte space and wire format: the octet (spec 00_scope.md R8). -/

namespace Sys2Proof

/-- An octet: 8 bits, numbered 7 (most significant) down to 0 (R8). -/
abbrev Octet := BitVec 8

/-- A version or supported-version value, 32 bits (R7). -/
abbrev Version := BitVec 32

end Sys2Proof
end

