-- ==== Sys2Proof/Syntax.lean ====
section
/-! DEFINITION. The instructions: one constructor per row of spec/opcode_table.json, in the table's order.
The first sixteen are the commands of 30_encoding.md R92, which have no fields (R90). The last ten are the
wire-format rows of R94 to R97 (R107 group 2): an item whose first octet has the row's pattern, with the
row's fields as unsigned numbers (R8). -/

namespace Sys2Proof

/-- Which wire format an octet is read as (the `format` of the table's wire rows, R107). -/
inductive WireFormat where
  | varint        -- `wire-varint-first-octet`, R94
  | packetNumber  -- `wire-pn-first-octet`, R95
  | cil           -- `wire-cil-octet`, R96
  | packet        -- `wire-packet-first-octet`, R97
deriving DecidableEq, Repr

/-- What an instruction is read from: the command register (R90), or an octet of a wire format. -/
inductive Source where
  | command
  | wire (f : WireFormat)
deriving DecidableEq, Repr

/-- An operation of the block (00_scope.md R2, R3) or an item of its wire formats. -/
inductive Instr where
  | viWid     -- VI_WID, R131
  | viDec     -- VI_DEC, R132
  | viEnc     -- VI_ENC, R133
  | pnLen     -- PN_LEN, R151
  | pnDec     -- PN_DEC, R152
  | pnEnc     -- PN_ENC, R153
  | lhDec     -- LH_DEC, R182
  | lhEnc     -- LH_ENC, R211
  | ipDec     -- IP_DEC, R187
  | ipEnc     -- IP_ENC, R213
  | vnDec     -- VN_DEC, R190
  | vnEnc     -- VN_ENC, R214
  | shDec     -- SH_DEC, R200
  | shEnc     -- SH_ENC, R230
  | pkParse   -- PK_PARSE, R240
  | pkBuild   -- PK_BUILD, R244
  | varintW1 (v : Nat)        -- 00vvvvvv, R94
  | varintW2 (v : Nat)        -- 01vvvvvv, R94
  | varintW4 (v : Nat)        -- 10vvvvvv, R94
  | varintW8 (v : Nat)        -- 11vvvvvv, R94
  | pnW1 (v : Nat)            -- 0vvvvvvv, R95
  | pnW2 (v : Nat)            -- 10vvvvvv, R95
  | pnW4 (v : Nat)            -- 11vvvvvv, R95
  | cilOctet (dcil scil : Nat) -- ddddssss, R96
  | pktShort (x : Nat)        -- 0xxxxxxx, R97
  | pktLong (t : Nat)         -- 1ttttttt, R97
deriving DecidableEq, Repr

end Sys2Proof
end

