-- ==== Sys2Proof/WellFormed.lean ====
section
/-! DEFINITION. Which instructions have an encoding: every field fits the bits its table row gives it
(30_encoding.md R94 to R97). The commands have no fields and are always well-formed (R90). -/

namespace Sys2Proof

/-- Every field of the instruction fits its row's field. -/
def Instr.wellFormed : Instr → Bool
  | .viWid | .viDec | .viEnc | .pnLen | .pnDec | .pnEnc | .lhDec | .lhEnc | .ipDec | .ipEnc
  | .vnDec | .vnEnc | .shDec | .shEnc | .pkParse | .pkBuild => true
  | .varintW1 v => v < 64
  | .varintW2 v => v < 64
  | .varintW4 v => v < 64
  | .varintW8 v => v < 64
  | .pnW1 v => v < 128
  | .pnW2 v => v < 64
  | .pnW4 v => v < 64
  | .cilOctet d s => d < 16 && s < 16
  | .pktShort x => x < 128
  | .pktLong t => t < 128

end Sys2Proof
end

