-- ==== Sys2Proof/Decode.lean ====
section
/-! DEFINITION. Decoding and encoding of instructions, from the tables of 30_encoding.md: command codes
(R92) and first octets of the wire formats (R94 to R97). The bits alone do not tell a command from a wire
item, nor one wire format from another, so a decoder is told its `Source`. -/

namespace Sys2Proof

/-- The bit slice of R8: `v[hi:lo] = floor(v / 2^lo) mod 2^(hi-lo+1)`. -/
def slice (v hi lo : Nat) : Nat := v / 2 ^ lo % 2 ^ (hi - lo + 1)

/-- Why a word is not an instruction. No command code and no octet is reserved (R93 to R97), so the only
reason is a word wider than its format. -/
inductive DecodeError where
  | notACommandCode   -- a command is one 4-bit word, R90
  | notAnOctet        -- a wire item is told by its first octet, R104
deriving DecidableEq, Repr

/-- The sixteen command codes of R92; all are defined (R93). -/
def decodeCommand (c : BitVec 4) : Instr :=
  match c.toNat with
  | 0 => .viWid
  | 1 => .viDec
  | 2 => .viEnc
  | 3 => .pnLen
  | 4 => .pnDec
  | 5 => .pnEnc
  | 6 => .lhDec
  | 7 => .lhEnc
  | 8 => .ipDec
  | 9 => .ipEnc
  | 10 => .vnDec
  | 11 => .vnEnc
  | 12 => .shDec
  | 13 => .shEnc
  | 14 => .pkParse
  | _ => .pkBuild   -- 15 is the only code left

/-- The first octet of an item of each wire format (R94 to R97); every octet is legal in every format. -/
def decodeFirstOctet (f : WireFormat) (o : Octet) : Instr :=
  let n := o.toNat
  match f with
  | .varint =>
    match slice n 7 6 with
    | 0 => .varintW1 (slice n 5 0)
    | 1 => .varintW2 (slice n 5 0)
    | 2 => .varintW4 (slice n 5 0)
    | _ => .varintW8 (slice n 5 0)
  | .packetNumber =>
    match slice n 7 6 with
    | 3 => .pnW4 (slice n 5 0)
    | 2 => .pnW2 (slice n 5 0)
    | _ => .pnW1 (slice n 6 0)
  | .cil => .cilOctet (slice n 7 4) (slice n 3 0)
  | .packet => if slice n 7 7 = 0 then .pktShort (slice n 6 0) else .pktLong (slice n 6 0)

/-- Decoding of any word, as an instruction of the given source. -/
def decodeWord (src : Source) (w : Nat) : Except DecodeError Instr :=
  match src with
  | .command => if w < 16 then .ok (decodeCommand (BitVec.ofNat 4 w)) else .error .notACommandCode
  | .wire f => if w < 256 then .ok (decodeFirstOctet f (BitVec.ofNat 8 w)) else .error .notAnOctet

/-- The source a constructor's encoding is read from (the `format` of its table row). -/
def sourceOf : Instr → Source
  | .viWid | .viDec | .viEnc | .pnLen | .pnDec | .pnEnc | .lhDec | .lhEnc | .ipDec | .ipEnc
  | .vnDec | .vnEnc | .shDec | .shEnc | .pkParse | .pkBuild => .command
  | .varintW1 _ | .varintW2 _ | .varintW4 _ | .varintW8 _ => .wire .varint
  | .pnW1 _ | .pnW2 _ | .pnW4 _ => .wire .packetNumber
  | .cilOctet _ _ => .wire .cil
  | .pktShort _ | .pktLong _ => .wire .packet

/-- The word of an instruction: its command code (R92), or its first octet (R94 to R97). -/
def encode : Instr → Nat
  | .viWid => 0
  | .viDec => 1
  | .viEnc => 2
  | .pnLen => 3
  | .pnDec => 4
  | .pnEnc => 5
  | .lhDec => 6
  | .lhEnc => 7
  | .ipDec => 8
  | .ipEnc => 9
  | .vnDec => 10
  | .vnEnc => 11
  | .shDec => 12
  | .shEnc => 13
  | .pkParse => 14
  | .pkBuild => 15
  | .varintW1 v => v
  | .varintW2 v => 0x40 ||| v
  | .varintW4 v => 0x80 ||| v
  | .varintW8 v => 0xC0 ||| v
  | .pnW1 v => v
  | .pnW2 v => 0x80 ||| v
  | .pnW4 v => 0xC0 ||| v
  | .cilOctet d s => d <<< 4 ||| s
  | .pktShort x => x
  | .pktLong t => 0x80 ||| t

/-- The fixed bits of a constructor's row in spec/opcode_table.json: how many bits the row has, which of
them are fixed, and their values (the row's `encoding` string). -/
structure Row where
  bits : Nat
  mask : Nat
  pattern : Nat
deriving DecidableEq, Repr

/-- Each constructor's row, from the table's `encoding` strings (R107). -/
def rowOf : Instr → Row
  | .viWid => ⟨4, 0b1111, 0b0000⟩
  | .viDec => ⟨4, 0b1111, 0b0001⟩
  | .viEnc => ⟨4, 0b1111, 0b0010⟩
  | .pnLen => ⟨4, 0b1111, 0b0011⟩
  | .pnDec => ⟨4, 0b1111, 0b0100⟩
  | .pnEnc => ⟨4, 0b1111, 0b0101⟩
  | .lhDec => ⟨4, 0b1111, 0b0110⟩
  | .lhEnc => ⟨4, 0b1111, 0b0111⟩
  | .ipDec => ⟨4, 0b1111, 0b1000⟩
  | .ipEnc => ⟨4, 0b1111, 0b1001⟩
  | .vnDec => ⟨4, 0b1111, 0b1010⟩
  | .vnEnc => ⟨4, 0b1111, 0b1011⟩
  | .shDec => ⟨4, 0b1111, 0b1100⟩
  | .shEnc => ⟨4, 0b1111, 0b1101⟩
  | .pkParse => ⟨4, 0b1111, 0b1110⟩
  | .pkBuild => ⟨4, 0b1111, 0b1111⟩
  | .varintW1 _ => ⟨8, 0b11000000, 0b00000000⟩
  | .varintW2 _ => ⟨8, 0b11000000, 0b01000000⟩
  | .varintW4 _ => ⟨8, 0b11000000, 0b10000000⟩
  | .varintW8 _ => ⟨8, 0b11000000, 0b11000000⟩
  | .pnW1 _ => ⟨8, 0b10000000, 0b00000000⟩
  | .pnW2 _ => ⟨8, 0b11000000, 0b10000000⟩
  | .pnW4 _ => ⟨8, 0b11000000, 0b11000000⟩
  | .cilOctet _ _ => ⟨8, 0b00000000, 0b00000000⟩
  | .pktShort _ => ⟨8, 0b10000000, 0b00000000⟩
  | .pktLong _ => ⟨8, 0b10000000, 0b10000000⟩

/-- A word has the row's width and fixed bits. -/
def Row.matches (r : Row) (w : Nat) : Bool := w < 2 ^ r.bits && w &&& r.mask == r.pattern

/-- How the host's table words are read, since a word does not say its row's format: a word below 16 is a
command, any other octet the first octet of a VarInt, the first wire format of the table.
DESIGN CHOICE, log 11. -/
def tableSource (w : Nat) : Source := if w < 16 then .command else .wire .varint

/-- The instruction the decoder reads from a table word of `nbits` bits (log 11). -/
def decodeTableWord (nbits w : Nat) : Option Instr :=
  if w < 2 ^ nbits then (decodeWord (tableSource w) w).toOption else none

end Sys2Proof
end

