-- ==== Sys2Proof/Config.lean ====
section
/-! DEFINITION. What an instance of the block fixes (00_scope.md R6) and the values the spec leaves free
(10_state.md R29, 60_exceptions.md R271). Nothing here is a number chosen by the model. -/

namespace Sys2Proof.Config

/-- The implementation parameters of R6: "each is a natural number fixed for the lifetime of an instance". -/
structure Params where
  /-- `BUF_MAX`, capacity of `IBUF` in octets. -/
  bufMax : Nat
  /-- `TOK_MAX`, capacity of `TOKBUF` in octets. -/
  tokMax : Nat
  /-- `NVER_MAX`, capacity of the version list `VERS`. -/
  nverMax : Nat
  /-- `OBUF_MAX`, capacity of `OBUF` in octets. -/
  obufMax : Nat
  /-- `CW`, width in bits of the cursor and of every offset and length register. -/
  cw : Nat
  /-- `INITIAL_TYPE`, the packet type the Dispatcher treats as Initial. -/
  initialType : BitVec 7
deriving DecidableEq, Repr, Inhabited

/-- `CID_MAX`: capacity of a connection-ID register, fixed at 15 (R6, 90_conflicts.md C4). -/
def cidMax : Nat := 15

/-- The constraints R6 puts on the parameters of an instance. -/
abbrev Params.Legal (p : Params) : Prop :=
  1 ≤ p.bufMax ∧ p.bufMax + p.tokMax + 12 < 2 ^ 62 ∧ p.bufMax / 4 ≤ p.nverMax ∧
    max (p.bufMax + p.tokMax + 56) (36 + 4 * p.nverMax) ≤ p.obufMax ∧ p.obufMax < 2 ^ p.cw

/-- Any raw values brought inside the constraints of R6; a legal set is left as it is
(`Laws/Config.lean`), so every legal set of parameters is an image. -/
def Params.legalise (p : Params) : Params :=
  let bufMax := max 1 (min p.bufMax (2 ^ 62 - 13))
  let tokMax := min p.tokMax (2 ^ 62 - 13 - bufMax)
  let nverMax := max p.nverMax (bufMax / 4)
  let obufMax := max p.obufMax (max (bufMax + tokMax + 56) (36 + 4 * nverMax))
  { bufMax, tokMax, nverMax, obufMax
    cw := max p.cw (Nat.log2 obufMax + 1)
    initialType := p.initialType }

/-- The open parameters of the instance that the reset state stands for; no value is given
(R6 "OPEN, model argument"). DESIGN CHOICE, log 2. -/
opaque openParams : Params

/-- The parameters of the instance the reset state stands for: any legal set (log 2). -/
def instanceParams : Params := openParams.legalise

/-- The result registers whose value an operation can leave unspecified (R29, R271). -/
inductive FreeSlot where
  | rVal | rWid | rCur | hForm | hType | hVer | hDcil | hScil | hDcid | hScid | hLen | hPn | hPnw
  | hTokLen | hTokOff | hPayOff | hPayLen | nver | vers | olen
deriving DecidableEq, Repr

/-- The unspecified content of a result register of `w` bits after the `n`-th operation (log 5). -/
opaque freeBits : FreeSlot → (w : Nat) → Nat → BitVec w

/-- The unspecified content of a `CW`-wide result register, before it is cut to its width (log 5). -/
opaque freeCount : FreeSlot → Nat → Nat

/-- The unspecified content of a connection-ID result register (log 5). -/
opaque freeOctets : FreeSlot → Nat → Vector Octet 15

/-- The unspecified content of the version list, before it is cut to `NVER_MAX` entries (log 5). -/
opaque freeVersions : Nat → List Version

end Sys2Proof.Config
end

