-- ==== Sys2Proof/Machine/State.lean ====
section
/-! DEFINITION. The state of the block: every register and byte space of 10_state.md R21 and 20_memory.md
R60 as plain data, the reasons a step can stop, and the state after reset (70_reset_and_hazards.md R291). -/

namespace Sys2Proof.Machine

/-- The source's six error kinds (60_exceptions.md R260). An operation that ends in one is a NEXT state
with its code in `STATUS`, never a fault. -/
inductive ErrorKind where
  | invalidLength
  | underflowLength           -- the variant of InvalidLength, R262
  | bufferTooShort
  | unsupportedVersionField
  | unknownPacketType
  | valueTooLarge
deriving DecidableEq, Repr

/-- What stops the machine. Both are host errors (70_reset_and_hazards.md R291, R292, log 3). -/
inductive Fault where
  /-- Raised by any operation that reads an octet of `IBUF` which the host never wrote. SAFE: the spec calls
  it a host error and gives no effect. -/
  | unwrittenInput
  /-- Raised by an Initial builder that reads an octet of `TOKBUF` which the host never wrote. SAFE. -/
  | unwrittenToken
deriving DecidableEq, Repr

/-- What the model gives no step (93_implementation_defined.md U15, log 6). -/
inductive Refusal where
  /-- Raised by `exec` for an instruction without a meaning; no arm uses it. SAFE. -/
  | notModelled (mnemonic : String)
  /-- Raised by an operation that reads `IBUF` when `ILEN` is above `BUF_MAX`. SAFE: "outside the model". -/
  | inputOverCapacity
  /-- Raised by an Initial builder when `TLEN` is above `TOK_MAX`. SAFE. -/
  | tokenOverCapacity
  /-- Raised by a VersionNegotiation builder when `NVER` is above `NVER_MAX`. SAFE. -/
  | versionsOverCapacity
deriving DecidableEq, Repr

/-- How a step inside an operation ends it early: `raise E` with the cursor where it stands (R270), or the
read of an octet without a value (log 3). -/
inductive Stop where
  | raised (e : ErrorKind) (cur : Nat)
  | unwritten (f : Fault)
deriving DecidableEq, Repr

/-- A byte space: octets at offsets, in rising order; an offset that is not listed holds no value. -/
abbrev Memory := List Host.Cell

/-- The operand registers: the host writes them, no operation does (R20, R21). A length or count register of
width `CW` is a natural number below `2^CW` (log 12). -/
structure OperandRegs where
  rOct : Octet                -- R_OCT
  rVal : BitVec 64            -- R_VAL
  rWid : BitVec 4             -- R_WID
  hForm : BitVec 2            -- H_FORM
  hType : BitVec 7            -- H_TYPE
  hVer : Version              -- H_VER
  hDcil : BitVec 4            -- H_DCIL
  hScil : BitVec 4            -- H_SCIL
  hDcid : Vector Octet 15     -- H_DCID
  hScid : Vector Octet 15     -- H_SCID
  hPn : BitVec 32             -- H_PN
  hPnw : BitVec 4             -- H_PNW
  nver : Nat                  -- NVER, CW bits
  vers : List Version         -- VERS; an entry past the list's end is 0 (log 14)
  ilen : Nat                  -- ILEN, CW bits
  tlen : Nat                  -- TLEN, CW bits
deriving DecidableEq, Repr

/-- The result registers: an operation writes them, none reads them (R20, R21). -/
structure ResultRegs where
  status : BitVec 4           -- STATUS, R22
  rVal : BitVec 64            -- R_VAL
  rWid : BitVec 4             -- R_WID
  rCur : Nat                  -- R_CUR, CW bits
  hForm : BitVec 2            -- H_FORM
  hType : BitVec 7            -- H_TYPE
  hVer : Version              -- H_VER
  hDcil : BitVec 4            -- H_DCIL
  hScil : BitVec 4            -- H_SCIL
  hDcid : Vector Octet 15     -- H_DCID
  hScid : Vector Octet 15     -- H_SCID
  hLen : BitVec 62            -- H_LEN
  hPn : BitVec 32             -- H_PN
  hPnw : BitVec 4             -- H_PNW
  hTokLen : BitVec 62         -- H_TOKLEN
  hTokOff : Nat               -- H_TOKOFF, CW bits
  hPayOff : Nat               -- H_PAYOFF, CW bits
  hPayLen : Nat               -- H_PAYLEN, CW bits
  nver : Nat                  -- NVER, CW bits
  vers : List Version         -- VERS
  olen : Nat                  -- OLEN, CW bits
deriving DecidableEq, Repr

/-- The whole state of one instance. -/
structure State where
  /-- The instance's parameters (R6): no step changes them (log 2). -/
  params : Config.Params
  /-- `CMD`, the only control register (R23). -/
  cmd : BitVec 4
  /-- MODEL's own: which encoding the next step reads (log 9). No step changes it. -/
  fetch : Source
  op : OperandRegs
  res : ResultRegs
  /-- `IBUF` (R60). -/
  ibuf : Memory
  /-- `TOKBUF` (R60). -/
  tokbuf : Memory
  /-- `OBUF` (R60). -/
  obuf : Memory
  /-- `CUR`, the cursor (R30), a natural number below `2^CW`. -/
  cur : Nat
  /-- MODEL's own: how many times unspecified values have been drawn (log 5). -/
  free : Nat
deriving DecidableEq, Repr

/-- The operand registers of the reset state: R291 gives none a value; all 0, DESIGN CHOICE, log 1. -/
def OperandRegs.reset : OperandRegs where
  rOct := 0
  rVal := 0
  rWid := 0
  hForm := 0
  hType := 0
  hVer := 0
  hDcil := 0
  hScil := 0
  hDcid := Vector.replicate 15 0
  hScid := Vector.replicate 15 0
  hPn := 0
  hPnw := 0
  nver := 0
  vers := []
  ilen := 0
  tlen := 0

/-- The result registers of the reset state: `STATUS` reads `0b0000` (R36, R291); R291 gives the others no
value; all 0, DESIGN CHOICE, log 1. -/
def ResultRegs.reset : ResultRegs where
  status := 0
  rVal := 0
  rWid := 0
  rCur := 0
  hForm := 0
  hType := 0
  hVer := 0
  hDcil := 0
  hScil := 0
  hDcid := Vector.replicate 15 0
  hScid := Vector.replicate 15 0
  hLen := 0
  hPn := 0
  hPnw := 0
  hTokLen := 0
  hTokOff := 0
  hPayOff := 0
  hPayLen := 0
  nver := 0
  vers := []
  olen := 0

/-- The block right after reset (R290, R291): idle, no octet of any buffer has a value. -/
def State.reset : State where
  params := Config.instanceParams
  cmd := 0
  fetch := .command
  op := OperandRegs.reset
  res := ResultRegs.reset
  ibuf := []
  tokbuf := []
  obuf := []
  cur := 0
  free := 0

end Sys2Proof.Machine
end

