-- ==== Sys2Proof/Machine/Flags.lean ====
section
/-! DEFINITION. The status register, the block's only flags (10_state.md R22): its layout, the code of every
error kind (60_exceptions.md R260) and its legal values. -/

namespace Sys2Proof.Machine

/-- `STATUS[2:0]`, the error code (R22). -/
def statusCode (st : BitVec 4) : BitVec 3 := st.extractLsb' 0 3

/-- `STATUS[3]`, the sub-kind bit (R22). -/
def statusSub (st : BitVec 4) : Bool := st.getLsbD 3

/-- `ERR = 1` exactly when `CODE != 0` (R22): not a bit of its own. -/
def statusErr (st : BitVec 4) : Bool := statusCode st != 0

/-- The `CODE` of an error kind (R22). -/
def errorCode : ErrorKind → BitVec 3
  | .invalidLength => 1
  | .underflowLength => 1
  | .bufferTooShort => 2
  | .unsupportedVersionField => 3
  | .unknownPacketType => 4
  | .valueTooLarge => 5

/-- `SUB` is 1 only for the UnderflowLength variant of InvalidLength (R22). -/
def errorSub : ErrorKind → BitVec 1
  | .underflowLength => 1
  | _ => 0

/-- The value `STATUS` takes when an operation ends in an error (R22, R270). -/
def errorStatus (e : ErrorKind) : BitVec 4 := errorSub e ++ errorCode e

/-- The value `STATUS` takes when an operation succeeds (R22). -/
def successStatus : BitVec 4 := 0b0000

/-- The legal values of `STATUS`; no other is ever written (R22). -/
def statusLegal (st : BitVec 4) : Bool :=
  st == 0b0000 || st == 0b0001 || st == 0b1001 || st == 0b0010 || st == 0b0011 || st == 0b0100 ||
    st == 0b0101

end Sys2Proof.Machine
end

