-- ==== Sys2Proof/Machine/Ops.lean ====
section
/-! DEFINITION. The operations every meaning is made of: big-endian assembly (00_scope.md R10), the byte
spaces and their access primitives (20_memory.md R64 to R68), and how an operation ends: by an error
(60_exceptions.md R270, R271) or in success (00_scope.md R12, 10_state.md R29). -/

namespace Sys2Proof.Machine

/-- What a step of the block answers. -/
abbrev StepOutcome := Host.Outcome State Fault Refusal

/-! ### Byte sequences (R10, R62) -/

/-- `be(b)`: the big-endian unsigned value of an octet sequence; `be([]) = 0` (R10). -/
def be (b : List Octet) : Nat := b.foldl (fun acc o => acc * 256 + o.toNat) 0

/-- `be_N(v)`: the `N`-octet sequence whose big-endian value is `v`, for `v < 256^N` (R10). -/
def beN : Nat → Nat → List Octet
  | 0, _ => []
  | n + 1, v => BitVec.ofNat 8 (v / 256 ^ n) :: beN n v

/-! ### Byte spaces (R60, R64, R65) -/

/-- The canonical form of a byte space: offsets strictly rising. -/
def Memory.wf : Memory → Bool
  | [] => true
  | [_] => true
  | c :: d :: m => decide (c.1 < d.1) && Memory.wf (d :: m)

/-- The octet at an offset; an offset nothing has written holds no value (R291, log 3). -/
def Memory.read : Memory → Nat → Option Octet
  | [], _ => none
  | (k, o) :: m, a => if k = a then some o else Memory.read m a

/-- One octet written; the canonical form is kept. -/
def Memory.write : Memory → Nat → Octet → Memory
  | [], a, o => [(a, o)]
  | (k, x) :: m, a, o =>
    if a < k then (a, o) :: (k, x) :: m
    else if a = k then (a, o) :: m
    else (k, x) :: Memory.write m a o

/-- `MemRead(S, addr, n)`: the `n` octets from `addr` in ascending offset order (R64). -/
def Memory.readRange (m : Memory) : Nat → Nat → Option (List Octet)
  | _, 0 => some []
  | a, n + 1 =>
    match Memory.read m a, Memory.readRange m (a + 1) n with
    | some o, some r => some (o :: r)
    | _, _ => none

/-- `MemWrite(S, addr, n, b)` with `n = len(b)` (R65). -/
def Memory.writeRange : Memory → Nat → List Octet → Memory
  | m, _, [] => m
  | m, a, o :: b => Memory.writeRange (Memory.write m a o) (a + 1) b

/-! ### Reading `IBUF` at a cursor (R66, R67, R181) -/

/-- `MemRead(IBUF, addr, n)` of octets the host must have written (R292, log 3). -/
def readInput (s : State) (addr n : Nat) : Except Stop (List Octet) :=
  match Memory.readRange s.ibuf addr n with
  | some b => .ok b
  | none => .error (.unwritten .unwrittenInput)

/-- `MemRead(TOKBUF, 0, TLEN)` (R213). -/
def readToken (s : State) : Except Stop (List Octet) :=
  match Memory.readRange s.tokbuf 0 s.op.tlen with
  | some b => .ok b
  | none => .error (.unwritten .unwrittenToken)

/-- `Skip(n)`: the bounds check and advance of `Take` without the octets (R181). Answers the new cursor. -/
def skip (s : State) (cur n : Nat) : Except Stop Nat :=
  if s.op.ilen < cur + n then .error (.raised .bufferTooShort cur) else .ok (cur + n)

/-- `Take(n)`: bounds-checked read of `n` octets at the cursor; answers them and the new cursor (R66). -/
def take (s : State) (cur n : Nat) : Except Stop (List Octet × Nat) :=
  match skip s cur n with
  | .error e => .error e
  | .ok cur' =>
    match readInput s cur n with
    | .error e => .error e
    | .ok b => .ok (b, cur')

/-- `Peek(k)`: the octet `k` past the cursor, nothing consumed (R67). -/
def peek (s : State) (cur k : Nat) : Except Stop Octet :=
  if s.op.ilen < cur + k + 1 then .error (.raised .bufferTooShort cur)
  else
    match Memory.read s.ibuf (cur + k) with
    | some o => .ok o
    | none => .error (.unwritten .unwrittenInput)

/-- The rest of an item of `w` octets whose first octet is already known: the bounds check of `Take(w)`, then
the octets after the first (R66; log 9). -/
def takeAfterFirst (s : State) (cur : Nat) (first : Octet) (w : Nat) : Except Stop (List Octet × Nat) :=
  match skip s cur w with
  | .error e => .error e
  | .ok cur' =>
    match readInput s (cur + 1) (w - 1) with
    | .error e => .error e
    | .ok b => .ok (first :: b, cur')

/-! ### Writing `OBUF` at a cursor (R68) -/

/-- The output under construction: `OBUF` and the cursor. -/
structure Out where
  mem : Memory
  cur : Nat
deriving DecidableEq, Repr

/-- "every encode starts with an empty `OBUF`", cursor 0 (R31). -/
def Out.empty : Out := ⟨[], 0⟩

/-- `Emit(b)`: append at the cursor and advance it; it cannot fail (R68). -/
def emit (o : Out) (b : List Octet) : Out := ⟨Memory.writeRange o.mem o.cur b, o.cur + b.length⟩

/-- A sequence of `Emit`s, in order. -/
def emitAll (o : Out) : List (List Octet) → Out
  | [] => o
  | b :: bs => emitAll (emit o b) bs

/-! ### Fixed-size result registers -/

/-- A connection-ID register whose first octets are written and whose others keep `old` (R25, R172). -/
def writeCid (b : List Octet) (old : Vector Octet 15) : Vector Octet 15 :=
  ⟨⟨(b ++ old.toList.drop b.length).take 15⟩, by simp; omega⟩

/-- The version registers whose first entries are written and whose others keep `old` (R28). -/
def writeVersions (vs old : List Version) : List Version := vs ++ old.drop vs.length

/-! ### How an operation ends (R12, R29, R270, R271) -/

/-- What the result registers hold before an operation writes any: unspecified values, each within its
register's width (R29, R271; free values, log 5). `STATUS` is written by every operation (R22). -/
def freeResults (s : State) : ResultRegs where
  status := successStatus
  rVal := Config.freeBits .rVal 64 s.free
  rWid := Config.freeBits .rWid 4 s.free
  rCur := Config.freeCount .rCur s.free % 2 ^ s.params.cw
  hForm := Config.freeBits .hForm 2 s.free
  hType := Config.freeBits .hType 7 s.free
  hVer := Config.freeBits .hVer 32 s.free
  hDcil := Config.freeBits .hDcil 4 s.free
  hScil := Config.freeBits .hScil 4 s.free
  hDcid := Config.freeOctets .hDcid s.free
  hScid := Config.freeOctets .hScid s.free
  hLen := Config.freeBits .hLen 62 s.free
  hPn := Config.freeBits .hPn 32 s.free
  hPnw := Config.freeBits .hPnw 4 s.free
  hTokLen := Config.freeBits .hTokLen 62 s.free
  hTokOff := Config.freeCount .hTokOff s.free % 2 ^ s.params.cw
  hPayOff := Config.freeCount .hPayOff s.free % 2 ^ s.params.cw
  hPayLen := Config.freeCount .hPayLen s.free % 2 ^ s.params.cw
  nver := Config.freeCount .nver s.free % 2 ^ s.params.cw
  vers := (Config.freeVersions s.free).take s.params.nverMax
  olen := Config.freeCount .olen s.free % 2 ^ s.params.cw

/-- Ending an operation by an error, the block's only exception entry: `STATUS` gets the code, every other
result register and `OBUF` are unspecified, nothing else changes, and the block is ready for the next command
(R270 to R273). No pc, mode or status is saved; the cursor stays where the failing step stood. -/
def raiseError (e : ErrorKind) (cur : Nat) (s : State) : State :=
  { s with
    res := { freeResults s with status := errorStatus e }
    obuf := []
    cur := cur
    free := s.free + 1 }

/-- Ending a decode in success: `STATUS = 0`, the listed results written, every other result register unspecified (R12,
R29), `OBUF` "no longer defined" (R300 as Program 1 of 95_test_vectors.md reads it; log 4). The other ends in success
are this with another `OBUF`. -/
def complete (cur : Nat) (write : ResultRegs → ResultRegs) (s : State) : State :=
  { s with
    res := { write (freeResults s) with status := successStatus }
    obuf := []
    cur := cur
    free := s.free + 1 }

/-- Ending a command that neither decodes nor encodes, VI_WID or PN_LEN: `R_WID` written, the cursor not used, every
octet of `OBUF` as it was, since nothing but an encode changes a buffer (R71; 95_test_vectors.md, Program 1). -/
def completeWidth (w : Nat) (s : State) : State :=
  { complete 0 (fun r => { r with rWid := BitVec.ofNat 4 w }) s with obuf := s.obuf }

/-- Ending an encode in success: `OBUF`, `OLEN` and `R_CUR` from the output, beside the listed results (R68,
R32). -/
def completeEncode (out : Out) (write : ResultRegs → ResultRegs) (s : State) : State :=
  { complete out.cur (fun r => { write r with olen := out.cur, rCur := out.cur }) s with obuf := out.mem }

/-- The end of one internal step of an operation: the cursor advanced and the registers the step itself writes;
`STATUS` and everything else wait for the end of the operation (R22; log 9). -/
def innerStep (cur : Nat) (write : ResultRegs → ResultRegs) (s : State) : State :=
  { s with res := write s.res, cur := cur }

/-- The outcome of an operation from what its steps answer. -/
def conclude (s : State) : Except Stop State → StepOutcome
  | .ok t => .next t
  | .error (.raised e cur) => .next (raiseError e cur s)
  | .error (.unwritten f) => .fault f

/-- A pure function's error raised at the cursor `cur` (R270). -/
def raising {α : Type} (cur : Nat) : Except ErrorKind α → Except Stop α
  | .ok a => .ok a
  | .error e => .error (.raised e cur)

/-! ### Capacities, checked when a command is issued (93 U15, R292; log 6) -/

/-- `n` is within a capacity; 0 fits any, so an empty buffer needs no knowledge of the instance. -/
def withinCapacity (n cap : Nat) : Bool := n == 0 || decide (n ≤ cap)

/-- An operation that reads `IBUF` needs `ILEN <= BUF_MAX`. -/
def guardInput (s : State) (k : StepOutcome) : StepOutcome :=
  if withinCapacity s.op.ilen s.params.bufMax then k else .refused .inputOverCapacity

/-- An operation that reads `TOKBUF` needs `TLEN <= TOK_MAX`. -/
def guardToken (s : State) (k : StepOutcome) : StepOutcome :=
  if withinCapacity s.op.tlen s.params.tokMax then k else .refused .tokenOverCapacity

/-- An operation that reads `VERS` needs `NVER <= NVER_MAX`. -/
def guardVersions (s : State) (k : StepOutcome) : StepOutcome :=
  if withinCapacity s.op.nver s.params.nverMax then k else .refused .versionsOverCapacity

end Sys2Proof.Machine
end

