-- ==== Sys2Proof/Machine/Operands.lean ====
section
/-! DEFINITION. The operand forms of the commands (10_state.md R29): what each named operand register stands
for when an operation reads it. The commands have no other operand form (30_encoding.md R90). -/

namespace Sys2Proof.Machine

/-- The destination identifier operand: octets `0 .. H_DCIL-1` of `H_DCID` (R25, R173). -/
def State.dcidOperand (s : State) : List Octet := s.op.hDcid.toList.take s.op.hDcil.toNat

/-- The source identifier operand: octets `0 .. H_SCIL-1` of `H_SCID` (R25, R173). -/
def State.scidOperand (s : State) : List Octet := s.op.hScid.toList.take s.op.hScil.toNat

/-- A version inserted into an ascending list without repeats (R28). -/
def insertVersion (v : Version) : List Version → List Version
  | [] => [v]
  | x :: l => if v < x then v :: x :: l else if v = x then x :: l else x :: insertVersion v l

/-- The set of a list of versions, presented in ascending order without repeats (R28, R193). -/
def versionSet : List Version → List Version
  | [] => []
  | v :: l => insertVersion v (versionSet l)

/-- `x[VERS][i]` as an operand; every entry of the register file holds a value (log 14). -/
def State.versionEntry (s : State) (i : Nat) : Version := s.op.vers.getD i 0

/-- The operand version set: the values of `VERS[0 .. NVER)`, in any order and with repeats (R28, R214). -/
def State.versionsOperand (s : State) : List Version :=
  versionSet ((List.range s.op.nver).map s.versionEntry)

end Sys2Proof.Machine
end

