-- ==== Sys2Proof/Machine/ConnectionId.lean ====
section
/-! DEFINITION. The ConnectionId component (42_connection_id.md): the internal steps `ReadCIDs` and `EmitCIDs`
of the long-form parsers and builders. -/

namespace Sys2Proof.Machine

/-- What `ReadCIDs` reads: the two lengths, the two identifiers, the new cursor. -/
structure Ids where
  dcil : Nat
  scil : Nat
  dcid : List Octet
  scid : List Octet
  cur : Nat
deriving DecidableEq, Repr

/-- The identifiers after the CIL octet, destination first (R172). -/
def readIds (s : State) (cur dcil scil : Nat) : Except Stop Ids :=
  match take s cur dcil with
  | .error e => .error e
  | .ok (dcid, cur1) =>
    match take s cur1 scil with
    | .error e => .error e
    | .ok (scid, cur2) => .ok ⟨dcil, scil, dcid, scid, cur2⟩

/-- `ReadCIDs()`: the CIL octet, DCIL in its high nibble, then both identifiers (R171, R172). -/
def readCids (s : State) (cur : Nat) : Except Stop Ids :=
  match take s cur 1 with
  | .error e => .error e
  | .ok (b, cur1) => readIds s cur1 (slice (be b) 7 4) (slice (be b) 3 0)

/-- The registers `ReadCIDs` writes; octets past each length keep what they were (R25, R172). -/
def writeIds (ids : Ids) (r : ResultRegs) : ResultRegs :=
  { r with
    hDcil := BitVec.ofNat 4 ids.dcil
    hScil := BitVec.ofNat 4 ids.scil
    hDcid := writeCid ids.dcid r.hDcid
    hScid := writeCid ids.scid r.hScid }

/-- What `EmitCIDs()` emits, in order (R171, R173). -/
def cidsToEmit (s : State) : List (List Octet) :=
  [beN 1 (s.op.hDcil.toNat <<< 4 ||| s.op.hScil.toNat), s.dcidOperand, s.scidOperand]

end Sys2Proof.Machine
end

