-- ==== Sys2Proof/Machine/PacketNumber.lean ====
section
/-! DEFINITION. The PacketNumber codec (41_packet_number.md): the pure functions, the step by which header
operations read a packet number, and PN_LEN, PN_DEC, PN_ENC. -/

namespace Sys2Proof.Machine

/-- `PnLen(o)`: "top two bits `11`→4, `10`→2, else→1" (R154). -/
def pnLen (o : Octet) : Nat :=
  if slice o.toNat 7 6 = 3 then 4 else if slice o.toNat 7 6 = 2 then 2 else 1

/-- `PnValue(b)`: two bits cleared for length 4, one for length 2, none for length 1 (R155). -/
def pnValue (b : List Octet) : Nat :=
  if b.length = 4 then be b &&& 0x3FFFFFFF else if b.length = 2 then be b &&& 0x7FFF else be b

/-- The width `EncPN` uses for a request: 0 derives the least that fits (R156). -/
def pnWidth (v w : Nat) : Except ErrorKind Nat :=
  if w = 1 ∨ w = 2 ∨ w = 4 then .ok w
  else if w = 0 then
    if v ≤ 0x7F then .ok 1
    else if v ≤ 0x3FFF then .ok 2
    else if v ≤ 0x3FFFFFFF then .ok 4
    else .error .valueTooLarge
  else .error .invalidLength

/-- `EncPN(v, w)`: the width request is judged before the value's range (R156, R268). -/
def encPn (v w : Nat) : Except ErrorKind (List Octet) :=
  match pnWidth v w with
  | .error e => .error e
  | .ok w' =>
    if w' = 1 then if 0x7F < v then .error .valueTooLarge else .ok (beN 1 v)
    else if w' = 2 then if 0x3FFF < v then .error .valueTooLarge else .ok (beN 2 (v ||| 0x8000))
    else if 0x3FFFFFFF < v then .error .valueTooLarge else .ok (beN 4 (v ||| 0xC0000000))

/-- A packet number read by a header operation: its value, its encoded width, the new cursor. -/
structure PnItem where
  value : Nat
  width : Nat
  cur : Nat
deriving DecidableEq, Repr

/-- `ReadPN()`: the width from the leading octet, then the value (R158). -/
def readPn (s : State) (cur : Nat) : Except Stop PnItem :=
  match peek s cur 0 with
  | .error e => .error e
  | .ok o =>
    match take s cur (pnLen o) with
    | .error e => .error e
    | .ok (b, cur') => .ok ⟨pnValue b, pnLen o, cur'⟩

/-- The steps of PN_DEC (R152). -/
def pnDecode (s : State) : Except Stop State :=
  if s.op.ilen = 1 ∨ s.op.ilen = 2 ∨ s.op.ilen = 4 then
    match take s 0 s.op.ilen with
    | .error e => .error e
    | .ok (b, cur) =>
      .ok (complete cur (fun r => { r with
        rVal := BitVec.ofNat 64 (pnValue b)
        rWid := BitVec.ofNat 4 s.op.ilen
        rCur := cur }) s)
  else .error (.raised .invalidLength 0)

/-- The steps of PN_ENC (R153). -/
def pnEncode (s : State) : Except Stop State :=
  match raising 0 (encPn s.op.rVal.toNat s.op.rWid.toNat) with
  | .error e => .error e
  | .ok b => .ok (completeEncode (emit Out.empty b) (fun r => { r with rWid := BitVec.ofNat 4 b.length }) s)

/-- PN_LEN: encoded width of a packet number from its first octet; it cannot fail (R151). -/
def execPnLen (s : State) : StepOutcome :=
  .next (completeWidth (pnLen s.op.rOct) s)

/-- PN_DEC: decode a buffer that is exactly one packet number (R152). -/
def execPnDec (s : State) : StepOutcome := guardInput s (conclude s (pnDecode s))

/-- PN_ENC: encode a truncated packet number in a given or derived width (R153). -/
def execPnEnc (s : State) : StepOutcome := conclude s (pnEncode s)

end Sys2Proof.Machine
end

