-- ==== Sys2Proof/Machine/VarInt.lean ====
section
/-! DEFINITION. The VarInt codec (40_varint.md): the pure functions, the step by which header operations read a
VarInt, and VI_WID, VI_DEC, VI_ENC. -/

namespace Sys2Proof.Machine

/-- `VarIntWidth(o) = 1 << o[7:6]` (R135). -/
def varIntWidth (o : Octet) : Nat := 1 <<< slice o.toNat 7 6

/-- `VarIntValue(b) = be(b) AND (2^(8*w - 2) - 1)` with `w = len(b)` (R139). -/
def varIntValue (b : List Octet) : Nat := be b &&& (2 ^ (8 * b.length - 2) - 1)

/-- `EncVarInt(v)`: big-endian in the least width that holds `v`, the selector in the top two bits (R134). -/
def encVarInt (v : Nat) : Except ErrorKind (List Octet) :=
  if v ≤ 63 then .ok (beN 1 (v ||| 0 <<< 6))
  else if v ≤ 16383 then .ok (beN 2 (v ||| 1 <<< 14))
  else if v ≤ 2 ^ 30 - 1 then .ok (beN 4 (v ||| 2 <<< 30))
  else if v ≤ 2 ^ 62 - 1 then .ok (beN 8 (v ||| 3 <<< 62))
  else .error .valueTooLarge

/-- A VarInt read by a header operation: its value, its encoded width, the new cursor. -/
structure VarIntItem where
  value : Nat
  width : Nat
  cur : Nat
deriving DecidableEq, Repr

/-- `ReadVarInt()`: the width from the first octet, then the value (R138). -/
def readVarInt (s : State) (cur : Nat) : Except Stop VarIntItem :=
  match peek s cur 0 with
  | .error e => .error e
  | .ok o =>
    match take s cur (varIntWidth o) with
    | .error e => .error e
    | .ok (b, cur') => .ok ⟨varIntValue b, varIntWidth o, cur'⟩

/-- The steps of VI_DEC (R132). -/
def viDecode (s : State) : Except Stop State :=
  if s.op.ilen = 1 ∨ s.op.ilen = 2 ∨ s.op.ilen = 4 ∨ s.op.ilen = 8 then
    match take s 0 s.op.ilen with
    | .error e => .error e
    | .ok (b, cur) =>
      .ok (complete cur (fun r => { r with
        rVal := BitVec.ofNat 64 (varIntValue b)
        rWid := BitVec.ofNat 4 s.op.ilen
        rCur := cur }) s)
  else .error (.raised .invalidLength 0)

/-- The steps of VI_ENC (R133). -/
def viEncode (s : State) : Except Stop State :=
  match raising 0 (encVarInt s.op.rVal.toNat) with
  | .error e => .error e
  | .ok b => .ok (completeEncode (emit Out.empty b) (fun r => { r with rWid := BitVec.ofNat 4 b.length }) s)

/-- VI_WID: width of a VarInt from its first octet; it cannot fail (R131). -/
def execViWid (s : State) : StepOutcome :=
  .next (completeWidth (varIntWidth s.op.rOct) s)

/-- VI_DEC: decode a buffer that is exactly one VarInt (R132). -/
def execViDec (s : State) : StepOutcome := guardInput s (conclude s (viDecode s))

/-- VI_ENC: encode an integer as the minimal VarInt (R133). -/
def execViEnc (s : State) : StepOutcome := conclude s (viEncode s)

end Sys2Proof.Machine
end

