-- ==== Sys2Proof/Machine/HeaderDecode.lean ====
section
/-! DEFINITION. The header parsers (43_header_decode.md): LH_DEC, IP_DEC, VN_DEC, SH_DEC. Steps run strictly in
the order of the pseudocode; the first that raises ends the operation (R180, R268). -/

namespace Sys2Proof.Machine

/-- What `LongCommon()` reads and the bounds of the `length`-delimited region it returns (R186). -/
structure LongFields where
  type : Nat
  version : Nat
  ids : Ids
  len : Nat
  pn : PnItem
  regionStart : Nat
  regionEnd : Nat
deriving DecidableEq, Repr

/-- Steps 6 and 7 of `LongCommon()`: the underflow test, then the region against the buffer (R183, R186). -/
def longRegion (s : State) (len : Nat) (pn : PnItem) : Except Stop (Nat × Nat) :=
  if len < pn.width then .error (.raised .underflowLength pn.cur)
  else if s.op.ilen < pn.cur + (len - pn.width) then .error (.raised .bufferTooShort pn.cur)
  else .ok (pn.cur, pn.cur + (len - pn.width))

/-- `LongCommon()` (R186). Bit 7 of the first octet is not examined (R185). -/
def longCommon (s : State) : Except Stop LongFields :=
  match take s 0 1 with
  | .error e => .error e
  | .ok (o0, c1) =>
  match take s c1 4 with
  | .error e => .error e
  | .ok (ver, c2) =>
  match readCids s c2 with
  | .error e => .error e
  | .ok ids =>
  match readVarInt s ids.cur with
  | .error e => .error e
  | .ok len =>
  match readPn s len.cur with
  | .error e => .error e
  | .ok pn =>
  match longRegion s len.value pn with
  | .error e => .error e
  | .ok (start, stop) =>
    .ok { type := slice (be o0) 6 0, version := be ver, ids := ids, len := len.value, pn := pn
          regionStart := start, regionEnd := stop }

/-- The registers `LongCommon()` writes (R186). -/
def writeLong (f : LongFields) (r : ResultRegs) : ResultRegs :=
  { writeIds f.ids r with
    hType := BitVec.ofNat 7 f.type
    hVer := BitVec.ofNat 32 f.version
    hLen := BitVec.ofNat 62 f.len
    hPn := BitVec.ofNat 32 f.pn.value
    hPnw := BitVec.ofNat 4 f.pn.width }

/-- The steps of LH_DEC (R182). -/
def lhDecode (s : State) : Except Stop State :=
  match longCommon s with
  | .error e => .error e
  | .ok f =>
    match skip s f.regionStart (f.regionEnd - f.regionStart) with
    | .error e => .error e
    | .ok cur =>
      .ok (complete cur (fun r => { writeLong f r with
        hForm := 0
        hPayOff := f.regionStart
        hPayLen := f.regionEnd - f.regionStart
        rCur := cur }) s)

/-- The two bounds of `TakeR(n, e)`: the buffer first, then the region (R188). Answers the new cursor. -/
def skipR (s : State) (cur n e : Nat) : Except Stop Nat :=
  if s.op.ilen < cur + n then .error (.raised .bufferTooShort cur)
  else if e < cur + n then .error (.raised .underflowLength cur)
  else .ok (cur + n)

/-- `TakeR(n, e)` (R188). -/
def takeR (s : State) (cur n e : Nat) : Except Stop (List Octet × Nat) :=
  match skipR s cur n e with
  | .error x => .error x
  | .ok cur' =>
    match readInput s cur n with
    | .error x => .error x
    | .ok b => .ok (b, cur')

/-- `ReadVarIntR(e)` (R188). -/
def readVarIntR (s : State) (cur e : Nat) : Except Stop VarIntItem :=
  match takeR s cur 1 e with
  | .error x => .error x
  | .ok (o, _) =>
    let w := varIntWidth (BitVec.ofNat 8 (be o))
    match takeR s cur w e with
    | .error x => .error x
    | .ok (b, cur') => .ok ⟨varIntValue b, w, cur'⟩

/-- The steps of IP_DEC (R187). The token's octets are bounds-checked, not read (R69, R181; log 20). -/
def ipDecode (s : State) : Except Stop State :=
  match longCommon s with
  | .error e => .error e
  | .ok f =>
    match readVarIntR s f.regionStart f.regionEnd with
    | .error e => .error e
    | .ok tl =>
      match skipR s tl.cur tl.value f.regionEnd with
      | .error e => .error e
      | .ok pay =>
        .ok (complete f.regionEnd (fun r => { writeLong f r with
          hForm := 3
          hTokLen := BitVec.ofNat 62 tl.value
          hTokOff := tl.cur
          hPayOff := pay
          hPayLen := f.regionEnd - pay
          rCur := f.regionEnd }) s)

/-- The version loop of VN_DEC, "until the buffer is exhausted" (R190, R191); `fuel` bounds the iterations, each
of which consumes 4 octets, so `ILEN` of it is never used up. -/
def readVersions (s : State) : Nat → Nat → List Version → Except Stop (List Version × Nat)
  | 0, cur, vs => .ok (vs, cur)
  | fuel + 1, cur, vs =>
    if cur < s.op.ilen then
      match take s cur 4 with
      | .error e => .error e
      | .ok (b, cur') => readVersions s fuel cur' (insertVersion (BitVec.ofNat 32 (be b)) vs)
    else .ok (vs, cur)

/-- The steps of VN_DEC (R190): the version is tested as soon as it is read. -/
def vnDecode (s : State) : Except Stop State :=
  match take s 0 1 with
  | .error e => .error e
  | .ok (_, c1) =>
  match take s c1 4 with
  | .error e => .error e
  | .ok (ver, c2) =>
  if be ver = 0 then
    match readCids s c2 with
    | .error e => .error e
    | .ok ids =>
    match readVersions s s.op.ilen ids.cur [] with
    | .error e => .error e
    | .ok (vs, cur) =>
      .ok (complete cur (fun r => { writeIds ids r with
        hForm := 2
        hVer := 0
        nver := vs.length
        vers := writeVersions vs r.vers
        rCur := cur }) s)
  else .error (.raised .unsupportedVersionField c2)

/-- The steps of SH_DEC: always `raise UnknownPacketType`, without reading any octet (R200; log 16). -/
def shDecode (_s : State) : Except Stop State := .error (.raised .unknownPacketType 0)

/-- LH_DEC: parse a LongHeader packet (R182). -/
def execLhDec (s : State) : StepOutcome := guardInput s (conclude s (lhDecode s))

/-- IP_DEC: parse an InitialPacket (R187). -/
def execIpDec (s : State) : StepOutcome := guardInput s (conclude s (ipDecode s))

/-- VN_DEC: parse a VersionNegotiation packet (R190). -/
def execVnDec (s : State) : StepOutcome := guardInput s (conclude s (vnDecode s))

/-- SH_DEC: the short-header parser, which always fails (R200). -/
def execShDec (s : State) : StepOutcome := conclude s (shDecode s)

end Sys2Proof.Machine
end

