-- ==== Sys2Proof/Machine/HeaderEncode.lean ====
section
/-! DEFINITION. The header builders (44_header_encode.md): LH_ENC, IP_ENC, VN_ENC, SH_ENC. Every step that can
raise comes before the first `Emit` (R210); `length` and `token_length` are recomputed (R212). -/

namespace Sys2Proof.Machine

/-- First octet, version, CIL octet and identifiers of a long form: bit 7 set, then the type (R211). -/
def longPrefix (s : State) : List (List Octet) :=
  [beN 1 (0x80 ||| s.op.hType.toNat), beN 4 s.op.hVer.toNat] ++ cidsToEmit s

/-- The steps of LH_ENC (R211). -/
def lhEncode (s : State) : Except Stop State :=
  match raising 0 (encPn s.op.hPn.toNat s.op.hPnw.toNat) with
  | .error e => .error e
  | .ok pnb =>
  match raising 0 (encVarInt (pnb.length + s.op.ilen)) with
  | .error e => .error e
  | .ok lb =>
  match readInput s 0 s.op.ilen with
  | .error e => .error e
  | .ok payload =>
    .ok (completeEncode (emitAll Out.empty (longPrefix s ++ [lb, pnb, payload])) id s)

/-- The steps of IP_ENC (R213). -/
def ipEncode (s : State) : Except Stop State :=
  match raising 0 (encPn s.op.hPn.toNat s.op.hPnw.toNat) with
  | .error e => .error e
  | .ok pnb =>
  match raising 0 (encVarInt s.op.tlen) with
  | .error e => .error e
  | .ok tlb =>
  match raising 0 (encVarInt (pnb.length + tlb.length + s.op.tlen + s.op.ilen)) with
  | .error e => .error e
  | .ok lb =>
  match readToken s with
  | .error e => .error e
  | .ok token =>
  match readInput s 0 s.op.ilen with
  | .error e => .error e
  | .ok payload =>
    .ok (completeEncode (emitAll Out.empty (longPrefix s ++ [lb, pnb, tlb, token, payload])) id s)

/-- The steps of VN_ENC (R214): each member of the set once, in ascending order (R215). -/
def vnEncode (s : State) : Except Stop State :=
  .ok (completeEncode (emitAll Out.empty
    ([[0x80], [0x00, 0x00, 0x00, 0x00]] ++ cidsToEmit s ++
      s.versionsOperand.map (fun v => beN 4 v.toNat))) id s)

/-- The steps of SH_ENC: always `raise UnknownPacketType` (R230; log 16). -/
def shEncode (_s : State) : Except Stop State := .error (.raised .unknownPacketType 0)

/-- LH_ENC: build a LongHeader packet (R211). -/
def execLhEnc (s : State) : StepOutcome := guardInput s (conclude s (lhEncode s))

/-- IP_ENC: build an InitialPacket (R213). -/
def execIpEnc (s : State) : StepOutcome := guardInput s (guardToken s (conclude s (ipEncode s)))

/-- VN_ENC: build a VersionNegotiation packet; it cannot fail (R214). -/
def execVnEnc (s : State) : StepOutcome := guardVersions s (conclude s (vnEncode s))

/-- SH_ENC: the short-header builder, which always fails (R230). -/
def execShEnc (s : State) : StepOutcome := conclude s (shEncode s)

end Sys2Proof.Machine
end

