-- ==== Sys2Proof/Machine/Dispatcher.lean ====
section
/-! DEFINITION. The Packet Dispatcher (45_dispatcher.md): PK_PARSE and PK_BUILD, the only component with
branching policy (R245). -/

namespace Sys2Proof.Machine

/-- The version field ahead: octets 1 to 4, each peeked (R240). -/
def peekVersion (s : State) : Except Stop Nat :=
  match peek s 0 1 with
  | .error e => .error e
  | .ok b1 =>
  match peek s 0 2 with
  | .error e => .error e
  | .ok b2 =>
  match peek s 0 3 with
  | .error e => .error e
  | .ok b3 =>
  match peek s 0 4 with
  | .error e => .error e
  | .ok b4 => .ok (be [b1, b2, b3, b4])

/-- The routing of R241 once octet 0 is known: bit 7, then the version, then the type; the selected parser runs
on the same buffer from cursor 0 (R240). -/
def routePacket (s : State) (o0 : Octet) : Except Stop State :=
  if slice o0.toNat 7 7 = 0 then shDecode s
  else
    match peekVersion s with
    | .error e => .error e
    | .ok v =>
      if v = 0 then vnDecode s
      else if slice o0.toNat 6 0 = s.params.initialType.toNat then ipDecode s
      else lhDecode s

/-- The steps of PK_PARSE (R240). -/
def pkParse (s : State) : Except Stop State :=
  match peek s 0 0 with
  | .error e => .error e
  | .ok o0 => routePacket s o0

/-- PK_PARSE: inspect the first octet and the version, then parse with the matching parser (R240). -/
def execPkParse (s : State) : StepOutcome := guardInput s (conclude s (pkParse s))

/-- PK_BUILD: the builder that `H_FORM` names, on its own operands (R244). -/
def execPkBuild (s : State) : StepOutcome :=
  match s.op.hForm.toNat with
  | 0 => guardInput s (conclude s (lhEncode s))
  | 1 => conclude s (shEncode s)
  | 2 => guardVersions s (conclude s (vnEncode s))
  | _ => guardInput s (guardToken s (conclude s (ipEncode s)))

end Sys2Proof.Machine
end

