-- ==== Sys2Proof/Machine/WireItems.lean ====
section
/-! DEFINITION. The wire-format rows of the table (30_encoding.md R94 to R97, R107): each is the internal step the
block takes on an item whose first octet has that row's pattern, alone (log 9). The first octet is the
instruction's; the octets after it are `IBUF`'s after the cursor, which stands at the item's first octet. An
internal step writes what the spec's step writes and advances the cursor; `STATUS` is written at the end of an
operation only (R22), so a step that does not raise leaves it. -/

namespace Sys2Proof.Machine

/-- `ReadVarInt()` on an item of `w` octets with first octet `first` (R138). The value and width it returns stand
in `R_VAL` and `R_WID` (log 10). -/
def varIntItem (s : State) (w : Nat) (first : Octet) : Except Stop State :=
  match takeAfterFirst s s.cur first w with
  | .error e => .error e
  | .ok (b, cur) =>
    .ok (innerStep cur (fun r => { r with
      rVal := BitVec.ofNat 64 (varIntValue b), rWid := BitVec.ofNat 4 w }) s)

/-- `ReadPN()` on an item of `w` octets with first octet `first` (R158; log 10). -/
def pnItem (s : State) (w : Nat) (first : Octet) : Except Stop State :=
  match takeAfterFirst s s.cur first w with
  | .error e => .error e
  | .ok (b, cur) =>
    .ok (innerStep cur (fun r => { r with
      rVal := BitVec.ofNat 64 (pnValue b), rWid := BitVec.ofNat 4 w }) s)

/-- `ReadCIDs()` on a CIL octet with the given nibbles (R172). -/
def cilItem (s : State) (dcil scil : Nat) : Except Stop State :=
  match skip s s.cur 1 with
  | .error e => .error e
  | .ok cur1 =>
    match readIds s cur1 dcil scil with
    | .error e => .error e
    | .ok ids => .ok (innerStep ids.cur (writeIds ids) s)

/-- VARINT_W1: the 1-octet VarInt `00vvvvvv` (R94). -/
def execVarintW1 (v : Nat) (s : State) : StepOutcome :=
  conclude s (varIntItem s 1 (BitVec.ofNat 8 v))

/-- VARINT_W2: the 2-octet VarInt whose first octet is `01vvvvvv` (R94). -/
def execVarintW2 (v : Nat) (s : State) : StepOutcome :=
  conclude s (varIntItem s 2 (BitVec.ofNat 8 (0x40 ||| v)))

/-- VARINT_W4: the 4-octet VarInt whose first octet is `10vvvvvv` (R94). -/
def execVarintW4 (v : Nat) (s : State) : StepOutcome :=
  conclude s (varIntItem s 4 (BitVec.ofNat 8 (0x80 ||| v)))

/-- VARINT_W8: the 8-octet VarInt whose first octet is `11vvvvvv` (R94). -/
def execVarintW8 (v : Nat) (s : State) : StepOutcome :=
  conclude s (varIntItem s 8 (BitVec.ofNat 8 (0xC0 ||| v)))

/-- PN_W1: the 1-octet packet number `0vvvvvvv` (R95). -/
def execPnW1 (v : Nat) (s : State) : StepOutcome :=
  conclude s (pnItem s 1 (BitVec.ofNat 8 v))

/-- PN_W2: the 2-octet packet number whose first octet is `10vvvvvv` (R95). -/
def execPnW2 (v : Nat) (s : State) : StepOutcome :=
  conclude s (pnItem s 2 (BitVec.ofNat 8 (0x80 ||| v)))

/-- PN_W4: the 4-octet packet number whose first octet is `11vvvvvv` (R95). -/
def execPnW4 (v : Nat) (s : State) : StepOutcome :=
  conclude s (pnItem s 4 (BitVec.ofNat 8 (0xC0 ||| v)))

/-- CIL_OCTET: `ddddssss` and the identifiers it announces (R96). -/
def execCilOctet (dcil scil : Nat) (s : State) : StepOutcome :=
  conclude s (cilItem s dcil scil)

/-- PKT_SHORT: a packet whose first octet is `0xxxxxxx`, routed to the short-header parser (R97, R241; log 18). -/
def execPktShort (x : Nat) (s : State) : StepOutcome :=
  conclude s (routePacket s (BitVec.ofNat 8 x))

/-- PKT_LONG: a packet whose first octet is `1ttttttt`, routed by version and type (R97, R241; log 18). -/
def execPktLong (t : Nat) (s : State) : StepOutcome :=
  guardInput s (conclude s (routePacket s (BitVec.ofNat 8 (0x80 ||| t))))

/-- The instruction the next step runs: the command in `CMD` (R73), or the item at the cursor (the packet's first
octet is octet 0, R241), whose first octet the block peeks (R67; log 9). -/
def fetchInstr (s : State) : Except Stop Instr :=
  match s.fetch with
  | .command => .ok (decodeCommand s.cmd)
  | .wire .packet =>
    match peek s 0 0 with
    | .error e => .error e
    | .ok o => .ok (decodeFirstOctet .packet o)
  | .wire f =>
    match peek s s.cur 0 with
    | .error e => .error e
    | .ok o => .ok (decodeFirstOctet f o)

end Sys2Proof.Machine
end

