-- ==== Sys2Proof/Machine/Dispatch.lean ====
section
/-! DEFINITION. One arm per instruction, each a direct call of its meaning. -/

namespace Sys2Proof.Machine

def exec (i : Instr) (s : State) : Host.Outcome State Fault Refusal :=
  match i with
  | .viWid => Sys2Proof.Machine.execViWid s
  | .viDec => Sys2Proof.Machine.execViDec s
  | .viEnc => Sys2Proof.Machine.execViEnc s
  | .pnLen => Sys2Proof.Machine.execPnLen s
  | .pnDec => Sys2Proof.Machine.execPnDec s
  | .pnEnc => Sys2Proof.Machine.execPnEnc s
  | .lhDec => Sys2Proof.Machine.execLhDec s
  | .lhEnc => Sys2Proof.Machine.execLhEnc s
  | .ipDec => Sys2Proof.Machine.execIpDec s
  | .ipEnc => Sys2Proof.Machine.execIpEnc s
  | .vnDec => Sys2Proof.Machine.execVnDec s
  | .vnEnc => Sys2Proof.Machine.execVnEnc s
  | .shDec => Sys2Proof.Machine.execShDec s
  | .shEnc => Sys2Proof.Machine.execShEnc s
  | .pkParse => Sys2Proof.Machine.execPkParse s
  | .pkBuild => Sys2Proof.Machine.execPkBuild s
  | .varintW1 v => Sys2Proof.Machine.execVarintW1 v s
  | .varintW2 v => Sys2Proof.Machine.execVarintW2 v s
  | .varintW4 v => Sys2Proof.Machine.execVarintW4 v s
  | .varintW8 v => Sys2Proof.Machine.execVarintW8 v s
  | .pnW1 v => Sys2Proof.Machine.execPnW1 v s
  | .pnW2 v => Sys2Proof.Machine.execPnW2 v s
  | .pnW4 v => Sys2Proof.Machine.execPnW4 v s
  | .cilOctet dcil scil => Sys2Proof.Machine.execCilOctet dcil scil s
  | .pktShort x => Sys2Proof.Machine.execPktShort x s
  | .pktLong t => Sys2Proof.Machine.execPktLong t s

end Sys2Proof.Machine
end

