-- ==== Sys2Proof/Machine/Step.lean ====
section
/-! DEFINITION. One step of the block: the instruction it fetches, run whole (00_scope.md R13); and how the host
places an instruction where the next step fetches it (log 7, log 11). -/

namespace Sys2Proof.Machine

/-- One step: the issue of the command in `CMD`, or one item of a wire format (log 7, log 9). A fetch past the
end of the buffer raises as `Peek` does. -/
def step (s : State) : Host.Outcome State Fault Refusal :=
  match fetchInstr s with
  | .error e => conclude s (.error e)
  | .ok i => exec i s

/-- `s` with the instruction of bits `w` where the next step fetches it: a command in `CMD`; a wire item at the
front of `IBUF`, followed by zero octets up to the longest item, with the cursor at it (log 11). -/
def State.withFetchWord (s : State) (_nbits w : Nat) : State :=
  match tableSource w with
  | .command => { s with cmd := BitVec.ofNat 4 w, fetch := .command }
  | src =>
    { s with
      fetch := src
      ibuf := Memory.writeRange s.ibuf 0 [BitVec.ofNat 8 w, 0, 0, 0, 0, 0, 0, 0]
      op := { s.op with ilen := 8 }
      cur := 0 }

end Sys2Proof.Machine
end

