-- ==== Sys2Proof/Machine/HostActions.lean ====
section
/-! DEFINITION. What the host does between steps (30_encoding.md R106, 70_reset_and_hazards.md R292): moves of
octets that carry no semantics of the block, and the writing of a whole buffer. No step runs them (log 8). -/

namespace Sys2Proof.Machine

/-- A byte space holding the octets `b` at offsets `0 .. len(b)-1` and no value at any other offset. The spec does not
say what a target space holds past what a host move puts there: DESIGN CHOICE, log 21. -/
def Memory.ofOctets (b : List Octet) : Memory := Memory.writeRange [] 0 b

/-- The host writes the buffer to parse or the payload to frame: `IBUF` and `ILEN` (R292). Octets `IBUF` held before,
at and past the new length too, have no value afterwards: DESIGN CHOICE, log 21. -/
def State.loadInput (s : State) (b : List Octet) : State :=
  { s with ibuf := Memory.ofOctets b, op := { s.op with ilen := b.length } }

/-- The host writes the token to frame: `TOKBUF` and `TLEN` (R292). Octets `TOKBUF` held before have no value
afterwards: DESIGN CHOICE, log 21. -/
def State.loadToken (s : State) (b : List Octet) : State :=
  { s with tokbuf := Memory.ofOctets b, op := { s.op with tlen := b.length } }

/-- `IBUF <- OBUF` for an `OLEN` of `n` that the host read when the encode ended: `OBUF[0 .. n)` copied, `ILEN <- n`;
legal only when `n <= BUF_MAX` and the octets have values (R106). A command that leaves `OBUF` alone may stand between
the two (95_test_vectors.md, Program 1; log 4). -/
def State.presentOutputOf (s : State) (n : Nat) : Option State :=
  if n ≤ s.params.bufMax then (Memory.readRange s.obuf 0 n).map s.loadInput else none

/-- `IBUF <- OBUF` right after the encode: the `OLEN` of now (R106). -/
def State.presentOutput (s : State) : Option State := s.presentOutputOf s.res.olen

/-- `IBUF <- IBUF[a .. b)` (R106). -/
def State.presentSlice (s : State) (a b : Nat) : Option State :=
  if a ≤ b ∧ b ≤ s.op.ilen then (Memory.readRange s.ibuf a (b - a)).map s.loadInput else none

/-- `TOKBUF <- IBUF[a .. b)` (R106). -/
def State.tokenFromSlice (s : State) (a b : Nat) : Option State :=
  if a ≤ b ∧ b ≤ s.op.ilen then (Memory.readRange s.ibuf a (b - a)).map s.loadToken else none

end Sys2Proof.Machine
end

