-- ==== Sys2Proof/Machine/PacketHeader.lean ====
section
/-! DEFINITION. The PacketHeader value of 10_state.md R33, its well-formedness (R34), and the two register images
of it: the operand side a builder reads and the result side a parser writes (R25 to R28). -/

namespace Sys2Proof.Machine

/-- A truncated packet number with its transmitted width (R26, R33). -/
structure PacketNumber where
  value : Nat
  width : Nat
deriving DecidableEq, Repr

/-- The fields a LongHeader and an InitialPacket share (R33); `length` is not an independent field. -/
structure LongHeader where
  type : BitVec 7
  version : Version
  dcid : List Octet
  scid : List Octet
  pn : PacketNumber
  payload : List Octet
deriving DecidableEq, Repr

/-- The tagged union of R33. A version set is its ascending list without repeats (R28). -/
inductive PacketHeader where
  | long (h : LongHeader)
  | short
  | versionNegotiation (dcid scid : List Octet) (versions : List Version)
  | initial (h : LongHeader) (token : List Octet)
deriving DecidableEq, Repr

/-- The number of octets of the minimal VarInt of `v` (R134). -/
def varIntLength (v : Nat) : Nat :=
  if v ≤ 63 then 1 else if v ≤ 16383 then 2 else if v ≤ 2 ^ 30 - 1 then 4 else 8

/-- A packet number whose value fits its width (R34). -/
def PacketNumber.fits (pn : PacketNumber) : Bool :=
  (pn.width == 1 && decide (pn.value < 2 ^ 7)) || (pn.width == 2 && decide (pn.value < 2 ^ 14)) ||
    (pn.width == 4 && decide (pn.value < 2 ^ 30))

/-- The length of the serialised packet (R211, R213, R214). -/
def PacketHeader.wireLength : PacketHeader → Nat
  | .long h =>
    6 + h.dcid.length + h.scid.length + varIntLength (h.pn.width + h.payload.length) + h.pn.width +
      h.payload.length
  | .short => 0
  | .versionNegotiation dcid scid versions => 6 + dcid.length + scid.length + 4 * versions.length
  | .initial h token =>
    6 + h.dcid.length + h.scid.length +
      varIntLength (h.pn.width + varIntLength token.length + token.length + h.payload.length) + h.pn.width +
      varIntLength token.length + token.length + h.payload.length

/-- A value that a builder can serialise and the matching parser gives back (R34). `|versions|` counts members: a list
that stands for a set is ascending without repeats (R28). -/
def PacketHeader.wellFormed (p : Config.Params) : PacketHeader → Bool
  | .long h =>
    decide (h.dcid.length ≤ 15) && decide (h.scid.length ≤ 15) && h.pn.fits &&
      decide (h.payload.length ≤ p.bufMax) && decide ((PacketHeader.long h).wireLength ≤ p.bufMax)
  | .short => false
  | .versionNegotiation dcid scid versions =>
    decide (dcid.length ≤ 15) && decide (scid.length ≤ 15) && decide (versions.Pairwise (· < ·)) &&
      decide (versions.length ≤ p.nverMax) &&
      decide ((PacketHeader.versionNegotiation dcid scid versions).wireLength ≤ p.bufMax)
  | .initial h token =>
    decide (h.dcid.length ≤ 15) && decide (h.scid.length ≤ 15) && h.pn.fits &&
      decide (h.payload.length ≤ p.bufMax) && decide (token.length ≤ p.tokMax) &&
      decide ((PacketHeader.initial h token).wireLength ≤ p.bufMax)

/-! ### The operand side -/

/-- The packet number a builder would emit from `H_PN` and `H_PNW`; a request of 0 stands for the derived width
(R156, R216). -/
def State.pnOperand (s : State) : Option PacketNumber :=
  match encPn s.op.hPn.toNat s.op.hPnw.toNat with
  | .ok b => some ⟨s.op.hPn.toNat, b.length⟩
  | .error _ => none

/-- The fields LH_ENC and IP_ENC share, from the operand registers and `IBUF` (R29, R210). -/
def State.longOperand (s : State) : Option LongHeader :=
  match s.pnOperand, Memory.readRange s.ibuf 0 s.op.ilen with
  | some pn, some payload =>
    some { type := s.op.hType, version := s.op.hVer, dcid := s.dcidOperand, scid := s.scidOperand, pn := pn,
           payload := payload }
  | _, _ => none

/-- The value LH_ENC serialises. -/
def State.longHeaderOperand (s : State) : Option PacketHeader := s.longOperand.map .long

/-- The value IP_ENC serialises: the same with the token of `TOKBUF` (R213). -/
def State.initialOperand (s : State) : Option PacketHeader :=
  match s.longOperand, Memory.readRange s.tokbuf 0 s.op.tlen with
  | some h, some token => some (.initial h token)
  | _, _ => none

/-- The value VN_ENC serialises (R214). -/
def State.versionNegotiationOperand (s : State) : PacketHeader :=
  .versionNegotiation s.dcidOperand s.scidOperand s.versionsOperand

/-- The value PK_BUILD serialises: the variant `H_FORM` names (R244). -/
def State.headerOperand (s : State) : Option PacketHeader :=
  match s.op.hForm.toNat with
  | 0 => s.longHeaderOperand
  | 1 => some .short
  | 2 => some s.versionNegotiationOperand
  | _ => s.initialOperand

/-! ### The result side -/

/-- The shared fields a long-form parser reports, its payload slice read from `IBUF` (R27, R301). -/
def State.longResult (t : State) : Option LongHeader :=
  (Memory.readRange t.ibuf t.res.hPayOff t.res.hPayLen).map fun payload =>
    { type := t.res.hType, version := t.res.hVer
      dcid := t.res.hDcid.toList.take t.res.hDcil.toNat, scid := t.res.hScid.toList.take t.res.hScil.toNat
      pn := ⟨t.res.hPn.toNat, t.res.hPnw.toNat⟩, payload := payload }

/-- The value a successful parse reports, by its `H_FORM` (R25 to R28). -/
def State.headerResult (t : State) : Option PacketHeader :=
  match t.res.hForm.toNat with
  | 0 => t.longResult.map .long
  | 1 => some .short
  | 2 =>
    some (.versionNegotiation (t.res.hDcid.toList.take t.res.hDcil.toNat)
      (t.res.hScid.toList.take t.res.hScil.toNat) (t.res.vers.take t.res.nver))
  | _ =>
    match t.longResult, Memory.readRange t.ibuf t.res.hTokOff t.res.hTokLen.toNat with
    | some h, some token => some (.initial h token)
    | _, _ => none

end Sys2Proof.Machine
end

