-- ==== Sys2Proof/Machine/Layout.lean ====
section
/-! DEFINITION. The packet layouts of 30_encoding.md R98 to R100 as octet sequences in wire order, written
without the parsers and builders, for the statements about them. -/

namespace Sys2Proof.Machine

/-- The octets of a VarInt field: as many as its first octet announces (R94, R104). -/
def isVarIntField : List Octet → Bool
  | [] => false
  | o :: b => b.length + 1 == varIntWidth o

/-- The octets of a PacketNumber field: as many as its first octet announces (R95, R104). -/
def isPnField : List Octet → Bool
  | [] => false
  | o :: b => b.length + 1 == pnLen o

/-- The CIL octet and the two identifiers, destination first (R96, R98). -/
def idOctets (dcid scid : List Octet) : List Octet :=
  BitVec.ofNat 8 (16 * dcid.length + scid.length) :: (dcid ++ scid)

/-- A long-form packet up to the end of its `length`-delimited region (R98, R99). -/
structure LongPacket where
  first : Octet
  version : Version
  dcid : List Octet
  scid : List Octet
  lengthField : List Octet
  pnField : List Octet
  region : List Octet
deriving DecidableEq, Repr

/-- First octet through packet number, in wire order (R98). -/
def LongPacket.headOctets (p : LongPacket) : List Octet :=
  p.first :: (beN 4 p.version.toNat ++ idOctets p.dcid p.scid ++ p.lengthField ++ p.pnField)

/-- The whole packet (R98). -/
def LongPacket.octets (p : LongPacket) : List Octet := p.headOctets ++ p.region

/-- Every field announces its own length rightly (R104); nothing is said of what `length` counts. -/
def LongPacket.framed (p : LongPacket) : Bool :=
  decide (p.dcid.length ≤ 15) && decide (p.scid.length ≤ 15) && isVarIntField p.lengthField && isPnField p.pnField

/-- `length` counts the packet number and the region (R98). -/
def LongPacket.measured (p : LongPacket) : Bool :=
  varIntValue p.lengthField == p.pnField.length + p.region.length

/-- A VersionNegotiation packet: first octet, reserved version, identifiers, versions to the end (R100). -/
structure VnPacket where
  first : Octet
  dcid : List Octet
  scid : List Octet
  versions : List Version
deriving DecidableEq, Repr

def VnPacket.octets (p : VnPacket) : List Octet :=
  p.first :: ([0, 0, 0, 0] ++ idOctets p.dcid p.scid ++ p.versions.flatMap (fun v => beN 4 v.toNat))

/-- Both identifiers are within what a nibble can say (R96). -/
def VnPacket.framed (p : VnPacket) : Bool := decide (p.dcid.length ≤ 15) && decide (p.scid.length ≤ 15)

/-- The minimal VarInt field of `v`: the width's binary logarithm above `8w - 2` value bits (R94). -/
def varIntField (v : Nat) : List Octet :=
  beN (varIntLength v) (Nat.log2 (varIntLength v) * 2 ^ (8 * varIntLength v - 2) + v)

/-- The field of a packet number in its width: `0`, `10` or `11` above 7, 14 or 30 value bits (R95). -/
def pnField (pn : PacketNumber) : List Octet :=
  if pn.width = 1 then beN 1 pn.value
  else if pn.width = 2 then beN 2 (0b10 * 2 ^ 14 + pn.value)
  else beN 4 (0b11 * 2 ^ 30 + pn.value)

/-- The packet of a long-form value whose region is `region` (R98): form bit above the type, `length` minimal. -/
def LongHeader.packet (h : LongHeader) (region : List Octet) : LongPacket where
  first := BitVec.ofNat 8 (128 + h.type.toNat)
  version := h.version
  dcid := h.dcid
  scid := h.scid
  lengthField := varIntField (h.pn.width + region.length)
  pnField := Machine.pnField h.pn
  region := region

/-- The serialised packet of a value (R98 to R100); a ShortHeader has no layout (R101). -/
def PacketHeader.octets : PacketHeader → List Octet
  | .long h => (h.packet h.payload).octets
  | .short => []
  | .versionNegotiation dcid scid versions => (VnPacket.mk 0x80 dcid scid versions).octets
  | .initial h token => (h.packet (varIntField token.length ++ token ++ h.payload)).octets

/-- What a successful parse reports of the part common to long-form packets (R182, R187). -/
structure LongResults (p : LongPacket) (r : ResultRegs) : Prop where
  type : r.hType.toNat = p.first.toNat % 128
  version : r.hVer = p.version
  dcil : r.hDcil.toNat = p.dcid.length
  scil : r.hScil.toNat = p.scid.length
  dcid : r.hDcid.toList.take p.dcid.length = p.dcid
  scid : r.hScid.toList.take p.scid.length = p.scid
  len : r.hLen.toNat = varIntValue p.lengthField
  pn : r.hPn.toNat = pnValue p.pnField
  pnw : r.hPnw.toNat = p.pnField.length

/-- What a successful VersionNegotiation parse reports (R190, R193). -/
structure VnResults (p : VnPacket) (r : ResultRegs) : Prop where
  form : r.hForm = 2
  version : r.hVer = 0
  dcil : r.hDcil.toNat = p.dcid.length
  scil : r.hScil.toNat = p.scid.length
  dcid : r.hDcid.toList.take p.dcid.length = p.dcid
  scid : r.hScid.toList.take p.scid.length = p.scid
  count : (r.vers.take r.nver).length = r.nver
  ascending : (r.vers.take r.nver).Pairwise (· < ·)
  members : ∀ v, v ∈ r.vers.take r.nver ↔ v ∈ p.versions
  cur : r.rCur = p.octets.length

end Sys2Proof.Machine
end

