-- ==== Sys2Proof/Safety.lean ====
section
/-! DEFINITION. What counts as a safe run, in the terms statements use: the host's duties, the invariant every
step keeps, what an operation leaves unchanged, which operations raise which errors. -/

namespace Sys2Proof.Machine

/-- The host has done its duty before a command (70_reset_and_hazards.md R292): the length registers are within
their capacities and the octets they declare valid have been written. -/
structure HostReady (s : State) : Prop where
  ilen : s.op.ilen ≤ s.params.bufMax
  tlen : s.op.tlen ≤ s.params.tokMax
  nver : s.op.nver ≤ s.params.nverMax
  input : (Memory.readRange s.ibuf 0 s.op.ilen).isSome
  token : (Memory.readRange s.tokbuf 0 s.op.tlen).isSome

/-- `IBUF[0 .. ILEN)` is exactly `b`, within capacity (R60, R292). -/
structure HoldsInput (s : State) (b : List Octet) : Prop where
  ilen : s.op.ilen = b.length
  capacity : s.op.ilen ≤ s.params.bufMax
  octets : Memory.readRange s.ibuf 0 b.length = some b

/-- `TOKBUF[0 .. TLEN)` is exactly `b`, within capacity (R60, R292). -/
structure HoldsToken (s : State) (b : List Octet) : Prop where
  tlen : s.op.tlen = b.length
  capacity : s.op.tlen ≤ s.params.tokMax
  octets : Memory.readRange s.tokbuf 0 b.length = some b

/-- After a successful encode `OBUF[0 .. OLEN)` is exactly `b` and `R_CUR = OLEN` (R60, R32). -/
structure HoldsOutput (t : State) (b : List Octet) : Prop where
  olen : t.res.olen = b.length
  rCur : t.res.rCur = b.length
  octets : Memory.readRange t.obuf 0 b.length = some b

/-- What no operation changes: the parameters, every operand register, and every octet of the input spaces (R6,
R20, R70, R302). -/
structure OperandsKept (s t : State) : Prop where
  params : t.params = s.params
  cmd : t.cmd = s.cmd
  fetch : t.fetch = s.fetch
  op : t.op = s.op
  ibuf : ∀ a, Memory.read t.ibuf a = Memory.read s.ibuf a
  tokbuf : ∀ a, Memory.read t.tokbuf a = Memory.read s.tokbuf a

/-- Every register of width `CW` holds a value in range, every byte space is in canonical form and within its
capacity where the block writes it, `STATUS` is legal, and the host's lengths are within capacity (R6, R9, R22,
R30, R68, R191). -/
structure Inv (s : State) : Prop where
  params : s.params.Legal
  ibuf : Memory.wf s.ibuf
  tokbuf : Memory.wf s.tokbuf
  obuf : Memory.wf s.obuf
  obufCapacity : ∀ c ∈ s.obuf, c.1 < s.params.obufMax
  ilen : s.op.ilen ≤ s.params.bufMax
  tlen : s.op.tlen ≤ s.params.tokMax
  nverOperand : s.op.nver ≤ s.params.nverMax
  cur : s.cur < 2 ^ s.params.cw
  status : statusLegal s.res.status
  rCur : s.res.rCur < 2 ^ s.params.cw
  hTokOff : s.res.hTokOff < 2 ^ s.params.cw
  hPayOff : s.res.hPayOff < 2 ^ s.params.cw
  hPayLen : s.res.hPayLen < 2 ^ s.params.cw
  nver : s.res.nver < 2 ^ s.params.cw
  olen : s.res.olen < 2 ^ s.params.cw
  vers : s.res.vers.length ≤ s.params.nverMax

/-- A command of R92, as opposed to a wire item (R107). -/
def isCommand (i : Instr) : Bool := sourceOf i == .command

/-- The operations each error is "raised by" (60_exceptions.md R260, the table's last column). -/
def raisedBy : ErrorKind → List Instr
  | .invalidLength => [.viDec, .pnDec, .pnEnc, .lhEnc, .ipEnc, .pkBuild]
  | .underflowLength => [.lhDec, .ipDec, .pkParse]
  | .bufferTooShort => [.lhDec, .ipDec, .vnDec, .pkParse]
  | .unsupportedVersionField => [.vnDec]
  | .unknownPacketType => [.shDec, .shEnc, .pkParse, .pkBuild]
  | .valueTooLarge => [.viEnc, .pnEnc, .lhEnc, .ipEnc, .pkBuild]

/-- The operation ended in the error `e`: the block is left as `raiseError` leaves it (R270, R271). -/
def EndsInError (i : Instr) (s : State) (e : ErrorKind) : Prop :=
  ∃ cur, exec i s = .next (raiseError e cur s)

end Sys2Proof.Machine
end

