-- ==== Sys2Proof/Certificates/Slice0/Obligations.lean ====
section
/-! DEFINITION. The statements for the provers, from the numbered rules of spec/. "Spec's own" in a docstring names
the rules under a statement that the spec marks as its decision (D<n> of 92_eei_decisions.md) or as derived; "log n"
is a choice of the model, notes/assumptions/<n>.md. -/

open Sys2Proof Sys2Proof.Machine

/-! ### Encoding -/

/-- Every well-formed instruction of the table is decoded from its own word (R90 to R97).
Spec's own: R90, R92, R107 (D2). -/
def Obligations.DecodeOfEncode : Prop :=
  ∀ i : Instr, i.wellFormed = true → decodeWord (sourceOf i) (encode i) = .ok i

/-- Every command code and every octet of every wire format decodes to one well-formed instruction, whose word it
is: no code and no first octet is reserved (R93 to R97).
Spec's own: R93 (D2, D9). -/
def Obligations.EveryWordHasOneInstruction : Prop :=
  (∀ c : BitVec 4, ∃ i, decodeWord .command c.toNat = .ok i ∧ i.wellFormed = true ∧ sourceOf i = .command ∧
    encode i = c.toNat) ∧
  (∀ (f : WireFormat) (o : Octet), ∃ i, decodeWord (.wire f) o.toNat = .ok i ∧ i.wellFormed = true ∧
    sourceOf i = .wire f ∧ encode i = o.toNat)

/-- The sixteen command codes of R92.
Spec's own: R92 (D2, D21). -/
def Obligations.CommandCodes : Prop :=
  decodeCommand 0b0000 = .viWid ∧ decodeCommand 0b0001 = .viDec ∧ decodeCommand 0b0010 = .viEnc ∧
  decodeCommand 0b0011 = .pnLen ∧ decodeCommand 0b0100 = .pnDec ∧ decodeCommand 0b0101 = .pnEnc ∧
  decodeCommand 0b0110 = .lhDec ∧ decodeCommand 0b0111 = .lhEnc ∧ decodeCommand 0b1000 = .ipDec ∧
  decodeCommand 0b1001 = .ipEnc ∧ decodeCommand 0b1010 = .vnDec ∧ decodeCommand 0b1011 = .vnEnc ∧
  decodeCommand 0b1100 = .shDec ∧ decodeCommand 0b1101 = .shEnc ∧ decodeCommand 0b1110 = .pkParse ∧
  decodeCommand 0b1111 = .pkBuild

/-- One first octet of each wire row, written from the patterns of R94 to R97. -/
def Obligations.WireFirstOctets : Prop :=
  decodeFirstOctet .varint 0b00100101 = .varintW1 37 ∧ decodeFirstOctet .varint 0b01111011 = .varintW2 59 ∧
  decodeFirstOctet .varint 0b10011101 = .varintW4 29 ∧ decodeFirstOctet .varint 0b11000010 = .varintW8 2 ∧
  decodeFirstOctet .packetNumber 0b01111111 = .pnW1 127 ∧ decodeFirstOctet .packetNumber 0b10111111 = .pnW2 63 ∧
  decodeFirstOctet .packetNumber 0b11000001 = .pnW4 1 ∧ decodeFirstOctet .cil 0b01010011 = .cilOctet 5 3 ∧
  decodeFirstOctet .packet 0b01000000 = .pktShort 64 ∧ decodeFirstOctet .packet 0b11111101 = .pktLong 125

/-! ### The machine -/

/-- A step runs the decoded instruction. A step as the issue of the command in `CMD` is the model's (log 7), and so is
every other clause: where the model's `fetch` field selects a wire format, the step runs the item whose first octet
stands at the cursor (log 9), or at octet 0 for a packet (log 18); where that octet is past the end of the buffer, the
step ends in `BufferTooShort` like a whole operation (log 17).
Spec's own: R73, R90 (D2). -/
def Obligations.StepRunsDecodedInstruction : Prop :=
  (∀ s : State, s.fetch = .command → step s = exec (decodeCommand s.cmd) s) ∧
  (∀ (s : State) (f : WireFormat) (o : Octet), s.fetch = .wire f → f ≠ .packet → s.cur < s.op.ilen →
    Memory.read s.ibuf s.cur = some o → step s = exec (decodeFirstOctet f o) s) ∧
  (∀ (s : State) (o : Octet), s.fetch = .wire .packet → 0 < s.op.ilen →
    Memory.read s.ibuf 0 = some o → step s = exec (decodeFirstOctet .packet o) s) ∧
  (∀ (s : State) (f : WireFormat), s.fetch = .wire f → f ≠ .packet → s.op.ilen ≤ s.cur →
    ∃ t, step s = .next t ∧ t.res.status = 0b0010 ∧ OperandsKept s t) ∧
  (∀ s : State, s.fetch = .wire .packet → s.op.ilen = 0 →
    ∃ t, step s = .next t ∧ t.res.status = 0b0010 ∧ OperandsKept s t)

/-- Reset: `STATUS` reads no error, no octet of any buffer has a value, and the parameters are legal (R36, R291,
R6). The values of the other registers are the model's (log 1) and are not stated.
Spec's own: R36, R291 (D23), R6 (D4, D10, D19); that a buffer octet without a value reads as none is log 3 and log 4. -/
def Obligations.ResetLeavesNoErrorAndEmptyBuffers : Prop :=
  State.reset.res.status = 0b0000 ∧
  (∀ a, Memory.read State.reset.ibuf a = none ∧ Memory.read State.reset.tokbuf a = none ∧
    Memory.read State.reset.obuf a = none) ∧
  State.reset.params.Legal

/-- The invariant holds at reset. It rests on the model's reset values (log 1) and parameters (log 2). -/
def Obligations.ResetSatisfiesInvariant : Prop := Inv State.reset

/-- Every step keeps the invariant: `CW`-wide registers in range, byte spaces canonical and within capacity,
`STATUS` legal (R9, R22, R30, R68, R191).
Spec's own: R6 (D4), R22 (D6, D7), R68 (derived). -/
def Obligations.StepKeepsInvariant : Prop := ∀ s t : State, Inv s → step s = .next t → Inv t

/-- No step changes the parameters, an operand register, or an octet of an input space: for every instruction.
Spec's own: R6 (D4), R21 (D3). -/
def Obligations.OperandsAndInputSpacesAreKept : Prop :=
  ∀ (i : Instr) (s t : State), exec i s = .next t → OperandsKept s t

/-- No operation reads a result register, `OBUF` or the cursor an earlier operation left, and none writes an
operand: the block keeps no state from one operation to the next. `VI_WID` and `PN_LEN` leave `OBUF` as it is (R71;
log 4). The counter `free` is the model's own; it only names the unspecified values (log 5).
Spec's own: R31 (D5); the rest is R20. -/
def Obligations.NoStateBetweenOperations : Prop :=
  (∀ (i : Instr) (s : State) (r : ResultRegs) (o : Memory) (c : Nat), isCommand i = true →
    i ∉ [.viWid, .pnLen] → exec i { s with res := r, obuf := o, cur := c } = exec i s) ∧
  (∀ (i : Instr) (s t : State) (r : ResultRegs) (o : Memory) (c : Nat), i ∈ [.viWid, .pnLen] →
    exec i s = .next t → exec i { s with res := r, obuf := o, cur := c } = .next { t with obuf := o }) ∧
  (∀ (i : Instr) (s t : State), isCommand i = true → exec i s = .next t →
    t.op = s.op ∧ t.cmd = s.cmd ∧ (∀ a, Memory.read t.ibuf a = Memory.read s.ibuf a) ∧
    (∀ a, Memory.read t.tokbuf a = Memory.read s.tokbuf a))

/-- `STATUS` after every operation is one of the seven legal values.
Spec's own: R22 (D6, D7, D33). -/
def Obligations.StatusIsAlwaysLegal : Prop :=
  ∀ (i : Instr) (s t : State), isCommand i = true → exec i s = .next t → statusLegal t.res.status = true

/-- Every operation ends when the host has done its duties: in success or in one error, never in a fault or a
refusal.
Spec's own: R292 (D23, D31). -/
def Obligations.OperationsAreTotalForReadyHost : Prop :=
  ∀ (i : Instr) (s : State), isCommand i = true → HostReady s →
    ∃ t, exec i s = .next t ∧ (t.res.status = 0b0000 ∨ ∃ e, t.res.status = errorStatus e)

/-- Only the operations the table of R260 names end in each error; `VI_WID`, `PN_LEN` and `VN_ENC` never do.
Spec's own: R260 (D6). -/
def Obligations.ErrorsOnlyWhereTheTableSays : Prop :=
  (∀ (i : Instr) (s t : State) (e : ErrorKind), isCommand i = true → exec i s = .next t →
    t.res.status = errorStatus e → i ∈ raisedBy e) ∧
  (∀ (i : Instr) (s t : State), isCommand i = true → exec i s = .next t →
    (∀ e, i ∉ raisedBy e) → t.res.status = 0b0000)

/-- The codes of the error kinds (R22, R260) in the two fields of `STATUS`.
Spec's own: R22, R260 (D6, D7). -/
def Obligations.ErrorCodesOfStatus : Prop :=
  (statusCode 0b0000 = 0 ∧ statusSub 0b0000 = false ∧ statusErr 0b0000 = false) ∧
  (∀ e, statusErr (errorStatus e) = true ∧ (statusSub (errorStatus e) = true ↔ e = .underflowLength)) ∧
  (∀ e, statusCode (errorStatus e) =
    match e with
    | .invalidLength => 1
    | .underflowLength => 1
    | .bufferTooShort => 2
    | .unsupportedVersionField => 3
    | .unknownPacketType => 4
    | .valueTooLarge => 5)

/-- An operation that ends in an error writes the code of one error, changes no operand and no input octet, and
leaves no output: what `raise` does (R270 to R272). That `OBUF` then holds no value is the model's form of
"unspecified" (log 4).
Spec's own: R271 (D8). -/
def Obligations.FailureLeavesOnlyStatus : Prop :=
  ∀ (i : Instr) (s t : State), isCommand i = true → exec i s = .next t → t.res.status ≠ 0b0000 →
    ∃ e cur, t = raiseError e cur s ∧ t.res.status = errorStatus e ∧ OperandsKept s t ∧
      ∀ a, Memory.read t.obuf a = none

/-- `OBUF` after an operation. `VI_WID` and `PN_LEN` leave every octet as it was (R71). In the model's form of
"unspecified" (log 4): after a successful builder or leaf encoder the octets from `OLEN` on hold no value and those
below it do; after a decode and after a failure no octet does. -/
def Obligations.OutputOutsideLengthHasNoValue : Prop :=
  ∀ (i : Instr) (s t : State), isCommand i = true → exec i s = .next t →
    (i ∈ [.viWid, .pnLen] → ∀ a, Memory.read t.obuf a = Memory.read s.obuf a) ∧
    (i ∈ [.viEnc, .pnEnc, .lhEnc, .ipEnc, .vnEnc, .pkBuild] → t.res.status = 0b0000 →
      (∀ a, t.res.olen ≤ a → Memory.read t.obuf a = none) ∧
      (∀ a, a < t.res.olen → (Memory.read t.obuf a).isSome)) ∧
    (i ∈ [.viDec, .pnDec, .lhDec, .ipDec, .vnDec, .shDec, .pkParse] ∨ t.res.status ≠ 0b0000 →
      ∀ a, Memory.read t.obuf a = none)

/-- The longest outputs (R236); every output fits `OBUF` (R68), and no builder is asked for a `length` its VarInt
cannot hold.
Spec's own: R236 (derived), R6 (D4). -/
def Obligations.OutputSizeBounds : Prop :=
  ∀ (s t : State), s.params.Legal → t.res.status = 0b0000 →
    (exec .viEnc s = .next t → t.res.olen ≤ 8 ∧ t.res.olen ≤ s.params.obufMax) ∧
    (exec .pnEnc s = .next t → t.res.olen ≤ 4 ∧ t.res.olen ≤ s.params.obufMax) ∧
    (exec .lhEnc s = .next t → t.res.olen ≤ 48 + s.params.bufMax ∧ t.res.olen ≤ s.params.obufMax) ∧
    (exec .ipEnc s = .next t →
      t.res.olen ≤ 56 + s.params.tokMax + s.params.bufMax ∧ t.res.olen ≤ s.params.obufMax) ∧
    (exec .vnEnc s = .next t → t.res.olen ≤ 36 + 4 * s.params.nverMax ∧ t.res.olen ≤ s.params.obufMax) ∧
    (∀ pnb tlb : List Octet, pnb.length ≤ 4 → tlb.length ≤ 8 → s.op.ilen ≤ s.params.bufMax →
      s.op.tlen ≤ s.params.tokMax →
      ∃ lb, encVarInt (pnb.length + tlb.length + s.op.tlen + s.op.ilen) = .ok lb)

/-- A length above its capacity is refused at issue: the model's reading of U15 (log 6). -/
def Obligations.OverCapacityIsRefused : Prop :=
  (∀ (i : Instr) (s : State), i ∈ [.viDec, .pnDec, .lhDec, .lhEnc, .ipDec, .ipEnc, .vnDec, .pkParse] →
    s.params.bufMax < s.op.ilen → exec i s = .refused .inputOverCapacity) ∧
  (∀ s : State, s.op.ilen ≤ s.params.bufMax → s.params.tokMax < s.op.tlen →
    exec .ipEnc s = .refused .tokenOverCapacity) ∧
  (∀ s : State, s.params.nverMax < s.op.nver → exec .vnEnc s = .refused .versionsOverCapacity)

/-- A command that reads an octet of `IBUF` or `TOKBUF` the host never wrote stops the machine: the model's reading of
R291 and R292 (log 3). A leaf decoder reads its whole buffer; a parser octet 0, then field by field, so that the first
octet without a value within its fields stops it; a builder its whole payload and token, once the packet number is
known to be good (log 20). -/
def Obligations.UnwrittenOctetFaults : Prop :=
  (∀ (s : State) (a : Nat), s.op.ilen ≤ s.params.bufMax → a < s.op.ilen → Memory.read s.ibuf a = none →
    (s.op.ilen ∈ [1, 2, 4, 8] → exec .viDec s = .fault .unwrittenInput) ∧
    (s.op.ilen ∈ [1, 2, 4] → exec .pnDec s = .fault .unwrittenInput)) ∧
  (∀ (i : Instr) (s : State), i ∈ [.lhDec, .ipDec, .vnDec, .pkParse] → s.op.ilen ≤ s.params.bufMax →
    0 < s.op.ilen → Memory.read s.ibuf 0 = none → exec i s = .fault .unwrittenInput) ∧
  (∀ (i : Instr) (s : State) (p : LongPacket) (k : Nat), i ∈ [.lhDec, .ipDec, .pkParse] → p.framed = true →
    (i = .pkParse → 128 ≤ p.first.toNat ∧ p.version ≠ 0) → s.op.ilen ≤ s.params.bufMax →
    p.headOctets.length ≤ s.op.ilen → k < p.headOctets.length →
    Memory.readRange s.ibuf 0 k = some (p.headOctets.take k) → Memory.read s.ibuf k = none →
    exec i s = .fault .unwrittenInput) ∧
  (∀ (i : Instr) (s : State) (p : VnPacket) (k : Nat), i ∈ [.vnDec, .pkParse] → p.framed = true →
    (i = .pkParse → 128 ≤ p.first.toNat) → s.op.ilen ≤ s.params.bufMax → s.op.ilen = p.octets.length →
    k < p.octets.length → Memory.readRange s.ibuf 0 k = some (p.octets.take k) → Memory.read s.ibuf k = none →
    exec i s = .fault .unwrittenInput) ∧
  (∀ (i : Instr) (s : State) (pnb : List Octet) (a : Nat), i ∈ [.lhEnc, .ipEnc] → s.params.Legal →
    s.op.ilen ≤ s.params.bufMax → encPn s.op.hPn.toNat s.op.hPnw.toNat = .ok pnb → a < s.op.ilen →
    Memory.read s.ibuf a = none →
    (i = .ipEnc → s.op.tlen ≤ s.params.tokMax ∧ (Memory.readRange s.tokbuf 0 s.op.tlen).isSome) →
    exec i s = .fault .unwrittenInput) ∧
  (∀ (s : State) (pnb : List Octet) (a : Nat), s.params.Legal → s.op.ilen ≤ s.params.bufMax →
    s.op.tlen ≤ s.params.tokMax → encPn s.op.hPn.toNat s.op.hPnw.toNat = .ok pnb → a < s.op.tlen →
    Memory.read s.tokbuf a = none → exec .ipEnc s = .fault .unwrittenToken)

/-! ### VarInt -/

/-- `VI_WID`: the width by the first octet's range, for every octet; no byte space is read, the cursor is not used
(R131). -/
def Obligations.ViWidGivesWidthOfFirstOctet : Prop :=
  ∀ s : State, ∃ t, exec .viWid s = .next t ∧ t.res.status = 0b0000 ∧ OperandsKept s t ∧
    t.res.rWid = (if s.op.rOct.toNat ≤ 0x3F then 1 else if s.op.rOct.toNat ≤ 0x7F then 2
      else if s.op.rOct.toNat ≤ 0xBF then 4 else 8) ∧
    ∀ (m n : Memory) (c : Nat),
      exec .viWid { s with ibuf := m, tokbuf := n, cur := c } = .next { t with ibuf := m, tokbuf := n }

/-- `VI_DEC` by the buffer's length: the big-endian value with its top two bits cleared, or `InvalidLength` (R132,
R139). -/
def Obligations.ViDecClearsTopTwoBits : Prop :=
  (∀ (s : State) (b : List Octet), HoldsInput s b → b.length ∈ [1, 2, 4, 8] →
    ∃ t, exec .viDec s = .next t ∧ t.res.status = 0b0000 ∧ OperandsKept s t ∧
      t.res.rVal.toNat = be b % 2 ^ (8 * b.length - 2) ∧ t.res.rWid.toNat = b.length ∧ t.res.rCur = b.length) ∧
  (∀ s : State, s.op.ilen ≤ s.params.bufMax → s.op.ilen ∉ [1, 2, 4, 8] →
    ∃ t, exec .viDec s = .next t ∧ t.res.status = 0b0001 ∧ OperandsKept s t)

/-- `VI_ENC`: the least width that holds the value, the value big-endian below the selector bits; `ValueTooLarge`
exactly above `2^62 - 1` (R133, R134). -/
def Obligations.ViEncIsMinimal : Prop :=
  (∀ s : State, s.op.rVal.toNat ≤ 2 ^ 62 - 1 →
    ∃ t b, exec .viEnc s = .next t ∧ t.res.status = 0b0000 ∧ OperandsKept s t ∧ HoldsOutput t b ∧
      t.res.rWid.toNat = b.length ∧ isVarIntField b = true ∧ varIntValue b = s.op.rVal.toNat ∧
      ∀ c : List Octet, isVarIntField c = true → varIntValue c = s.op.rVal.toNat → b.length ≤ c.length) ∧
  (∀ s : State, 2 ^ 62 - 1 < s.op.rVal.toNat →
    ∃ t, exec .viEnc s = .next t ∧ t.res.status = 0b0101 ∧ OperandsKept s t)

/-- The VarInt round trip, in the least width; the converse does not hold (R136). -/
def Obligations.VarIntRoundTrip : Prop :=
  (∀ v : Nat, v ≤ 2 ^ 62 - 1 → ∃ b, encVarInt v = .ok b ∧ varIntValue b = v ∧ b.length ∈ [1, 2, 4, 8] ∧
    v < 2 ^ (8 * b.length - 2) ∧ (∀ w ∈ [1, 2, 4, 8], v < 2 ^ (8 * w - 2) → b.length ≤ w)) ∧
  (∃ b : List Octet, isVarIntField b = true ∧ encVarInt (varIntValue b) ≠ .ok b)

/-- A decode accepts a wider form and a selector that disagrees with the length (R137): the value depends on the
length and the low bits only.
Spec's own: R137 (derived). -/
def Obligations.ViDecIgnoresSelectorBits : Prop :=
  ∀ (s u : State) (o p : Octet) (b : List Octet), HoldsInput s (o :: b) → HoldsInput u (p :: b) →
    (o :: b).length ∈ [1, 2, 4, 8] → o.toNat % 64 = p.toNat % 64 →
    ∃ t v, exec .viDec s = .next t ∧ exec .viDec u = .next v ∧ t.res.status = 0b0000 ∧ v.res.status = 0b0000 ∧
      t.res.rVal = v.res.rVal ∧ t.res.rWid = v.res.rWid ∧ t.res.rCur = v.res.rCur

/-! ### PacketNumber -/

/-- `PN_LEN`: the width by the first octet's range, for every octet; no byte space is read (R151, R154). -/
def Obligations.PnLenGivesWidthOfFirstOctet : Prop :=
  ∀ s : State, ∃ t, exec .pnLen s = .next t ∧ t.res.status = 0b0000 ∧ OperandsKept s t ∧
    t.res.rWid = (if s.op.rOct.toNat ≤ 0x7F then 1 else if s.op.rOct.toNat ≤ 0xBF then 2 else 4) ∧
    ∀ (m n : Memory) (c : Nat),
      exec .pnLen { s with ibuf := m, tokbuf := n, cur := c } = .next { t with ibuf := m, tokbuf := n }

/-- `PN_DEC` by the buffer's length: 30, 15 or 8 value bits, or `InvalidLength` (R152, R155). -/
def Obligations.PnDecMasksByLength : Prop :=
  (∀ (s : State) (b : List Octet), HoldsInput s b → b.length ∈ [1, 2, 4] →
    ∃ t, exec .pnDec s = .next t ∧ t.res.status = 0b0000 ∧ OperandsKept s t ∧
      t.res.rVal.toNat = be b % 2 ^ (if b.length = 4 then 30 else if b.length = 2 then 15 else 8) ∧
      t.res.rWid.toNat = b.length ∧ t.res.rCur = b.length) ∧
  (∀ s : State, s.op.ilen ≤ s.params.bufMax → s.op.ilen ∉ [1, 2, 4] →
    ∃ t, exec .pnDec s = .next t ∧ t.res.status = 0b0001 ∧ OperandsKept s t)

/-- `PN_ENC`: the requested width, or the least that fits when 0 is requested; `InvalidLength` for any other
request, whatever the value; `ValueTooLarge` for a value the width cannot carry (R153, R156).
Spec's own: R153, R156 (D18). -/
def Obligations.PnEncFollowsWidthRequest : Prop :=
  (∀ (s : State) (w : Nat), s.op.rWid.toNat = w → w ∈ [1, 2, 4] →
    s.op.rVal.toNat < 2 ^ (if w = 4 then 30 else if w = 2 then 14 else 7) →
    ∃ t b, exec .pnEnc s = .next t ∧ t.res.status = 0b0000 ∧ OperandsKept s t ∧ HoldsOutput t b ∧
      b.length = w ∧ t.res.rWid.toNat = w ∧ isPnField b = true ∧ pnValue b = s.op.rVal.toNat) ∧
  (∀ s : State, s.op.rWid = 0 → s.op.rVal.toNat < 2 ^ 30 →
    ∃ t b, exec .pnEnc s = .next t ∧ t.res.status = 0b0000 ∧ OperandsKept s t ∧ HoldsOutput t b ∧
      t.res.rWid.toNat = b.length ∧ isPnField b = true ∧ pnValue b = s.op.rVal.toNat ∧
      ∀ c : List Octet, isPnField c = true → pnValue c = s.op.rVal.toNat → b.length ≤ c.length) ∧
  (∀ s : State, s.op.rWid.toNat ∉ [0, 1, 2, 4] →
    ∃ t, exec .pnEnc s = .next t ∧ t.res.status = 0b0001 ∧ OperandsKept s t) ∧
  (∀ (s : State) (w : Nat), s.op.rWid.toNat = w → w ∈ [0, 1, 2, 4] →
    2 ^ (if w = 2 then 14 else if w = 1 then 7 else 30) ≤ s.op.rVal.toNat →
    ∃ t, exec .pnEnc s = .next t ∧ t.res.status = 0b0101 ∧ OperandsKept s t)

/-- The PacketNumber round trip (R157).
Spec's own: R157 (derived). -/
def Obligations.PacketNumberRoundTrip : Prop :=
  ∀ v w : Nat, w ∈ [0, 1, 2, 4] → v < 2 ^ (if w = 2 then 14 else if w = 1 then 7 else 30) →
    ∃ b, encPn v w = .ok b ∧ isPnField b = true ∧ pnValue b = v ∧ (w ≠ 0 → b.length = w) ∧
      (w = 0 → ∀ k ∈ [1, 2, 4], v < 2 ^ (if k = 2 then 14 else if k = 1 then 7 else 30) → b.length ≤ k)

/-- A width taken from the first octet leaves a value below `2^7`, `2^14`, `2^30` (R26, R158).
Spec's own: R26, R158 (derived). -/
def Obligations.FramedPacketNumberRange : Prop :=
  ∀ b : List Octet, isPnField b = true →
    (b.length = 1 ∧ pnValue b < 2 ^ 7) ∨ (b.length = 2 ∧ pnValue b < 2 ^ 14) ∨ (b.length = 4 ∧ pnValue b < 2 ^ 30)

/-! ### Header parsers -/

/-- `LH_DEC` of a well-framed packet whose `length` counts its packet number and payload, with anything after it:
all fields, the payload slice, and the end of the packet (R182, R98). Bit 7, version and type are free (R185), and
the octets after the packet are ignored (R184).
Spec's own: R184 (D28), R27 (D3); the fields are R182 and R98. -/
def Obligations.LhDecParsesLongHeader : Prop :=
  ∀ (s : State) (p : LongPacket) (rest : List Octet), p.framed = true → p.measured = true →
    HoldsInput s (p.octets ++ rest) →
    ∃ t, exec .lhDec s = .next t ∧ t.res.status = 0b0000 ∧ OperandsKept s t ∧ LongResults p t.res ∧
      t.res.hForm = 0 ∧ t.res.hPayOff = p.headOctets.length ∧ t.res.hPayLen = p.region.length ∧
      t.res.rCur = p.octets.length

/-- Every buffer of fewer than 8 octets is too short for `LH_DEC` and `IP_DEC` (R182).
Spec's own: R187 (D11). -/
def Obligations.LongHeaderNeedsEightOctets : Prop :=
  ∀ (i : Instr) (s : State) (b : List Octet), i ∈ [.lhDec, .ipDec] → HoldsInput s b → b.length < 8 →
    ∃ t, exec i s = .next t ∧ t.res.status = 0b0010 ∧ OperandsKept s t

/-- The order of the checks (R183): a buffer that ends inside the first five fields, the packet number's own octets
among them, is `BufferTooShort` whatever `length` says; then a `length` below the packet-number width is
`UnderflowLength` whatever follows; then a region that leaves the buffer is `BufferTooShort`, however large `length`
is.
Spec's own: R183 (D13). -/
def Obligations.LongHeaderCheckOrder : Prop :=
  ∀ (i : Instr) (p : LongPacket), i ∈ [.lhDec, .ipDec] → p.framed = true →
    (∀ (s : State) (k : Nat), k < p.headOctets.length → HoldsInput s (p.headOctets.take k) →
      ∃ t, exec i s = .next t ∧ t.res.status = 0b0010 ∧ OperandsKept s t) ∧
    (∀ s : State, HoldsInput s p.octets → varIntValue p.lengthField < p.pnField.length →
      ∃ t, exec i s = .next t ∧ t.res.status = 0b1001 ∧ OperandsKept s t) ∧
    (∀ s : State, HoldsInput s p.octets → p.pnField.length + p.region.length < varIntValue p.lengthField →
      ∃ t, exec i s = .next t ∧ t.res.status = 0b0010 ∧ OperandsKept s t)

/-- `IP_DEC` of a well-framed packet whose region is a token length, the token and a payload: the shortened payload
and the token slice beside the long-header fields (R187, R99).
Spec's own: R187, R99 (D11, D12). -/
def Obligations.IpDecParsesInitialPacket : Prop :=
  ∀ (s : State) (p : LongPacket) (tl token payload rest : List Octet), p.framed = true → p.measured = true →
    p.region = tl ++ token ++ payload → isVarIntField tl = true → varIntValue tl = token.length →
    HoldsInput s (p.octets ++ rest) →
    ∃ t, exec .ipDec s = .next t ∧ t.res.status = 0b0000 ∧ OperandsKept s t ∧ LongResults p t.res ∧
      t.res.hForm = 3 ∧ t.res.hTokLen.toNat = token.length ∧
      t.res.hTokOff = p.headOctets.length + tl.length ∧
      t.res.hPayOff = p.headOctets.length + tl.length + token.length ∧ t.res.hPayLen = payload.length ∧
      t.res.rCur = p.octets.length

/-- A token field that does not fit (R188), in each of its places: an empty region, a token length cut by the region's
end, a token larger than what the region has left. Past the buffer it is `BufferTooShort`, inside the buffer but past
the region `UnderflowLength`.
Spec's own: R188 (D12). -/
def Obligations.IpDecTokenBounds : Prop :=
  (∀ (s : State) (p : LongPacket) (rest : List Octet), p.framed = true → p.measured = true → p.region = [] →
    HoldsInput s (p.octets ++ rest) →
    ∃ t, exec .ipDec s = .next t ∧ OperandsKept s t ∧
      t.res.status = (if rest = [] then 0b0010 else 0b1001)) ∧
  (∀ (s : State) (p : LongPacket) (o : Octet) (cut rest : List Octet), p.framed = true → p.measured = true →
    p.region = o :: cut → cut.length + 1 < varIntWidth o → HoldsInput s (p.octets ++ rest) →
    ∃ t, exec .ipDec s = .next t ∧ OperandsKept s t ∧
      t.res.status = (if cut.length + 1 + rest.length < varIntWidth o then 0b0010 else 0b1001)) ∧
  (∀ (s : State) (p : LongPacket) (tl tail rest : List Octet), p.framed = true → p.measured = true →
    p.region = tl ++ tail → isVarIntField tl = true → tail.length < varIntValue tl →
    HoldsInput s (p.octets ++ rest) →
    ∃ t, exec .ipDec s = .next t ∧ OperandsKept s t ∧
      t.res.status = (if tail.length + rest.length < varIntValue tl then 0b0010 else 0b1001))

/-- `IP_DEC` against `LH_DEC` on one buffer (R189).
Spec's own: R189 (derived). -/
def Obligations.InitialParseRefinesLongParse : Prop :=
  (∀ (s t u : State), exec .lhDec s = .next t → exec .ipDec s = .next u →
    (t.res.status ≠ 0b0000 → u.res.status = t.res.status) ∧
    (u.res.status = 0b0000 →
      t.res.status = 0b0000 ∧ t.res.hType = u.res.hType ∧ t.res.hVer = u.res.hVer ∧
      t.res.hDcil = u.res.hDcil ∧ t.res.hScil = u.res.hScil ∧
      t.res.hDcid.toList.take t.res.hDcil.toNat = u.res.hDcid.toList.take u.res.hDcil.toNat ∧
      t.res.hScid.toList.take t.res.hScil.toNat = u.res.hScid.toList.take u.res.hScil.toNat ∧
      t.res.hLen = u.res.hLen ∧ t.res.hPn = u.res.hPn ∧ t.res.hPnw = u.res.hPnw ∧ t.res.rCur = u.res.rCur ∧
      ∃ tw, tw ∈ [1, 2, 4, 8] ∧ u.res.hTokOff = t.res.hPayOff + tw ∧
        t.res.hPayLen = tw + u.res.hTokLen.toNat + u.res.hPayLen)) ∧
  (∃ s t u : State, exec .lhDec s = .next t ∧ t.res.status = 0b0000 ∧ exec .ipDec s = .next u ∧
    u.res.status ≠ 0b0000)

/-- Every successful decode reports slices inside the buffer (R27).
Spec's own: R27 (D3, D32). -/
def Obligations.SlicesLieInTheBuffer : Prop :=
  ∀ (i : Instr) (s t : State), i ∈ [.lhDec, .ipDec, .pkParse] → exec i s = .next t → t.res.status = 0b0000 →
    (t.res.hForm = 0 ∨ t.res.hForm = 3 → t.res.hPayOff + t.res.hPayLen ≤ s.op.ilen ∧
      t.res.rCur = t.res.hPayOff + t.res.hPayLen) ∧
    (t.res.hForm = 3 → t.res.hTokOff + t.res.hTokLen.toNat = t.res.hPayOff)

/-- `VN_DEC` of a VersionNegotiation packet: the set of its versions, ascending and without repeats, and the whole
buffer consumed (R190, R193). The first octet is free.
Spec's own: R28, R193 (D15). -/
def Obligations.VnDecCollectsVersionSet : Prop :=
  ∀ (s : State) (p : VnPacket), p.framed = true → HoldsInput s p.octets →
    ∃ t, exec .vnDec s = .next t ∧ t.res.status = 0b0000 ∧ OperandsKept s t ∧ VnResults p t.res

/-- `VN_DEC` errors: fewer than 5 octets are too short; a nonzero version is `UnsupportedVersionField` as soon as
it is read; with version zero, a buffer that ends before the CIL octet or inside an identifier is too short, and so
are 1 to 3 octets after the last whole version (R190, R192).
Spec's own: R192 (D14). -/
def Obligations.VnDecRejects : Prop :=
  (∀ (s : State) (b : List Octet), HoldsInput s b → b.length < 5 →
    ∃ t, exec .vnDec s = .next t ∧ t.res.status = 0b0010 ∧ OperandsKept s t) ∧
  (∀ (s : State) (o : Octet) (v rest : List Octet), HoldsInput s (o :: (v ++ rest)) → v.length = 4 →
    v ≠ [0, 0, 0, 0] → ∃ t, exec .vnDec s = .next t ∧ t.res.status = 0b0011 ∧ OperandsKept s t) ∧
  (∀ (s : State) (p : VnPacket) (k : Nat), p.framed = true → k < 6 + p.dcid.length + p.scid.length →
    HoldsInput s (p.octets.take k) → ∃ t, exec .vnDec s = .next t ∧ t.res.status = 0b0010 ∧ OperandsKept s t) ∧
  (∀ (s : State) (p : VnPacket) (tail : List Octet), p.framed = true → HoldsInput s (p.octets ++ tail) →
    1 ≤ tail.length → tail.length ≤ 3 →
    ∃ t, exec .vnDec s = .next t ∧ t.res.status = 0b0010 ∧ OperandsKept s t)

/-- `SH_DEC` always fails with `UnknownPacketType`, whatever the operands (R200).
Spec's own: R200 (D9); a NEXT state and no refusal is log 16. -/
def Obligations.ShDecAlwaysFails : Prop :=
  ∀ s : State, ∃ t, exec .shDec s = .next t ∧ t.res.status = 0b0100 ∧ OperandsKept s t

/-- `SH_ENC` always fails with `UnknownPacketType`, whatever the operands (R230).
Spec's own: R230 (D9); a NEXT state and no refusal is log 16. -/
def Obligations.ShEncAlwaysFails : Prop :=
  ∀ s : State, ∃ t, exec .shEnc s = .next t ∧ t.res.status = 0b0100 ∧ OperandsKept s t

/-! ### Header builders -/

/-- `LH_ENC`: the packet of R98 with the type under bit 7, a minimal `length` counting packet number and payload,
and the payload copied (R211, R212).
Spec's own: R211 (D17, D34). -/
def Obligations.LhEncBuildsLongHeader : Prop :=
  ∀ (s : State) (payload pnb : List Octet), s.params.Legal → HoldsInput s payload →
    encPn s.op.hPn.toNat s.op.hPnw.toNat = .ok pnb →
    ∃ (t : State) (p : LongPacket), exec .lhEnc s = .next t ∧ t.res.status = 0b0000 ∧ OperandsKept s t ∧
      HoldsOutput t p.octets ∧ p.framed = true ∧ p.measured = true ∧
      p.first.toNat = 128 + s.op.hType.toNat ∧ p.version = s.op.hVer ∧ p.dcid = s.dcidOperand ∧
      p.scid = s.scidOperand ∧ p.dcid.length = s.op.hDcil.toNat ∧ p.scid.length = s.op.hScil.toNat ∧
      encVarInt (pnb.length + payload.length) = .ok p.lengthField ∧ p.pnField = pnb ∧ p.region = payload

/-- `IP_ENC`: the same with the token length, the token and the payload in the region (R213, R212).
Spec's own: R213 (D11, D17, D34). -/
def Obligations.IpEncBuildsInitialPacket : Prop :=
  ∀ (s : State) (token payload pnb : List Octet), s.params.Legal → HoldsInput s payload → HoldsToken s token →
    encPn s.op.hPn.toNat s.op.hPnw.toNat = .ok pnb →
    ∃ (t : State) (p : LongPacket) (tlb : List Octet), exec .ipEnc s = .next t ∧ t.res.status = 0b0000 ∧
      OperandsKept s t ∧ HoldsOutput t p.octets ∧ p.framed = true ∧ p.measured = true ∧
      p.first.toNat = 128 + s.op.hType.toNat ∧ p.version = s.op.hVer ∧ p.dcid = s.dcidOperand ∧
      p.scid = s.scidOperand ∧ encVarInt token.length = .ok tlb ∧
      encVarInt (pnb.length + tlb.length + token.length + payload.length) = .ok p.lengthField ∧
      p.pnField = pnb ∧ p.region = tlb ++ token ++ payload

/-- `LH_ENC` and `IP_ENC` fail exactly as the packet-number encoder does, before anything else (R211, R213, R156):
a width request outside 0, 1, 2, 4 is `InvalidLength`, a value the width cannot carry `ValueTooLarge`.
Spec's own: R156 (D18), R211, R213 (D17, D34). -/
def Obligations.BuilderErrorsAreThePacketNumbers : Prop :=
  ∀ (i : Instr) (s : State), i ∈ [.lhEnc, .ipEnc] → s.op.ilen ≤ s.params.bufMax → s.op.tlen ≤ s.params.tokMax →
    (s.op.hPnw.toNat ∉ [0, 1, 2, 4] →
      ∃ t, exec i s = .next t ∧ t.res.status = 0b0001 ∧ OperandsKept s t) ∧
    (∀ w, s.op.hPnw.toNat = w → w ∈ [0, 1, 2, 4] →
      2 ^ (if w = 2 then 14 else if w = 1 then 7 else 30) ≤ s.op.hPn.toNat →
      ∃ t, exec i s = .next t ∧ t.res.status = 0b0101 ∧ OperandsKept s t)

/-- `VN_ENC`: first octet `0x80`, version zero, the identifiers, and each member of the version set once in
ascending order; it never fails (R214, R215).
Spec's own: R214, R215 (D15, D16). -/
def Obligations.VnEncBuildsVersionNegotiation : Prop :=
  ∀ s : State, s.op.nver ≤ s.params.nverMax →
    ∃ (t : State) (p : VnPacket), exec .vnEnc s = .next t ∧ t.res.status = 0b0000 ∧ OperandsKept s t ∧
      HoldsOutput t p.octets ∧ p.framed = true ∧ p.first = 0x80 ∧ p.dcid = s.dcidOperand ∧
      p.scid = s.scidOperand ∧ p.versions.Pairwise (· < ·) ∧
      ∀ v, v ∈ p.versions ↔ ∃ k, k < s.op.nver ∧ s.versionEntry k = v

/-- The round trip of a LongHeader: built, presented and parsed, the value comes back (R216).
Spec's own: R216 (derived), R34 (derived), R106 (D27). -/
def Obligations.LongHeaderRoundTrip : Prop :=
  ∀ (s : State) (p : PacketHeader), s.params.Legal → s.longHeaderOperand = some p →
    p.wellFormed s.params = true →
    ∃ t u w, exec .lhEnc s = .next t ∧ t.presentOutput = some u ∧ exec .lhDec u = .next w ∧
      w.res.status = 0b0000 ∧ w.headerResult = some p ∧ w.res.rCur = t.res.olen

/-- The round trip of an InitialPacket (R216).
Spec's own: R216 (derived), R34 (derived), R106 (D27). -/
def Obligations.InitialPacketRoundTrip : Prop :=
  ∀ (s : State) (p : PacketHeader), s.params.Legal → s.initialOperand = some p →
    p.wellFormed s.params = true →
    ∃ t u w, exec .ipEnc s = .next t ∧ t.presentOutput = some u ∧ exec .ipDec u = .next w ∧
      w.res.status = 0b0000 ∧ w.headerResult = some p ∧ w.res.rCur = t.res.olen

/-- The round trip of a VersionNegotiation (R216).
Spec's own: R216 (derived), R34 (derived), R106 (D27). -/
def Obligations.VersionNegotiationRoundTrip : Prop :=
  ∀ (s : State) (p : PacketHeader), s.params.Legal → s.op.nver ≤ s.params.nverMax →
    s.versionNegotiationOperand = p → p.wellFormed s.params = true →
    ∃ t u w, exec .vnEnc s = .next t ∧ t.presentOutput = some u ∧ exec .vnDec u = .next w ∧
      w.res.status = 0b0000 ∧ w.headerResult = some p ∧ w.res.rCur = t.res.olen

/-! ### Dispatcher -/

/-- The routing order of `PK_PARSE` (R240, R241, R243): the outcome is that of the parser the first matching test
selects; an empty buffer and a long form of fewer than 5 octets are too short.
Spec's own: R241 (D10), R243 (D20). -/
def Obligations.PkParseRoutes : Prop :=
  (∀ s : State, HoldsInput s [] →
    ∃ t, exec .pkParse s = .next t ∧ t.res.status = 0b0010 ∧ OperandsKept s t) ∧
  (∀ (s : State) (o : Octet) (b : List Octet), HoldsInput s (o :: b) → o.toNat < 128 →
    exec .pkParse s = exec .shDec s) ∧
  (∀ (s : State) (o : Octet) (b : List Octet), HoldsInput s (o :: b) → 128 ≤ o.toNat → b.length < 4 →
    ∃ t, exec .pkParse s = .next t ∧ t.res.status = 0b0010 ∧ OperandsKept s t) ∧
  (∀ (s : State) (o : Octet) (b : List Octet), HoldsInput s (o :: ([0, 0, 0, 0] ++ b)) → 128 ≤ o.toNat →
    exec .pkParse s = exec .vnDec s) ∧
  (∀ (s : State) (o : Octet) (v b : List Octet), HoldsInput s (o :: (v ++ b)) → 128 ≤ o.toNat → v.length = 4 →
    v ≠ [0, 0, 0, 0] →
    exec .pkParse s =
      if o.toNat - 128 = s.params.initialType.toNat then exec .ipDec s else exec .lhDec s)

/-- `PK_PARSE` completes on a packet of each variant that has a layout (R240).
Spec's own: R241 (D10), R187 (D11, D12), R193 (D15). -/
def Obligations.PkParseParsesEachVariant : Prop :=
  (∀ (s : State) (p : LongPacket) (rest : List Octet), p.framed = true → p.measured = true →
    128 ≤ p.first.toNat → p.version ≠ 0 → p.first.toNat - 128 ≠ s.params.initialType.toNat →
    HoldsInput s (p.octets ++ rest) →
    ∃ t, exec .pkParse s = .next t ∧ t.res.status = 0b0000 ∧ t.res.hForm = 0 ∧ LongResults p t.res ∧
      t.res.hPayOff = p.headOctets.length ∧ t.res.hPayLen = p.region.length ∧ t.res.rCur = p.octets.length) ∧
  (∀ (s : State) (p : LongPacket) (tl token payload rest : List Octet), p.framed = true → p.measured = true →
    128 ≤ p.first.toNat → p.version ≠ 0 → p.first.toNat - 128 = s.params.initialType.toNat →
    p.region = tl ++ token ++ payload → isVarIntField tl = true → varIntValue tl = token.length →
    HoldsInput s (p.octets ++ rest) →
    ∃ t, exec .pkParse s = .next t ∧ t.res.status = 0b0000 ∧ t.res.hForm = 3 ∧ LongResults p t.res ∧
      t.res.hTokLen.toNat = token.length ∧ t.res.hTokOff = p.headOctets.length + tl.length ∧
      t.res.hPayLen = payload.length ∧ t.res.rCur = p.octets.length) ∧
  (∀ (s : State) (p : VnPacket), p.framed = true → 128 ≤ p.first.toNat → HoldsInput s p.octets →
    ∃ t, exec .pkParse s = .next t ∧ t.res.status = 0b0000 ∧ VnResults p t.res)

/-- `PK_BUILD` is the builder that `H_FORM` names, whatever `H_TYPE` and `H_VER` (R244).
Spec's own: R244 (D21). -/
def Obligations.PkBuildSelectsByForm : Prop :=
  ∀ s : State,
    (s.op.hForm = 0 → exec .pkBuild s = exec .lhEnc s) ∧ (s.op.hForm = 1 → exec .pkBuild s = exec .shEnc s) ∧
    (s.op.hForm = 2 → exec .pkBuild s = exec .vnEnc s) ∧ (s.op.hForm = 3 → exec .pkBuild s = exec .ipEnc s)

/-- `PK_BUILD` completes for each form that has a layout: its output is the packet of the value its operands hold (R244,
R98 to R100).
Spec's own: R244 (D21), R211, R213, R214 (D15 to D17, D34). -/
def Obligations.PkBuildBuildsEachVariant : Prop :=
  ∀ (s : State) (p : PacketHeader), s.params.Legal → HostReady s → s.headerOperand = some p → p ≠ .short →
    ∃ t, exec .pkBuild s = .next t ∧ t.res.status = 0b0000 ∧ OperandsKept s t ∧ HoldsOutput t p.octets ∧
      t.res.olen = p.wireLength ∧ t.res.rCur = p.wireLength

/-- The round trip through both dispatchers (R246): built, presented and parsed, the value comes back exactly when
the Dispatcher routes it to its own parser.
Spec's own: R246 (derived). -/
def Obligations.DispatcherRoundTripExactlyWhen : Prop :=
  ∀ (s : State) (p : PacketHeader), s.params.Legal → HostReady s → s.headerOperand = some p →
    p.wellFormed s.params = true →
    ∃ t u w, exec .pkBuild s = .next t ∧ t.res.status = 0b0000 ∧ t.presentOutput = some u ∧
      exec .pkParse u = .next w ∧
      ((w.res.status = 0b0000 ∧ w.headerResult = some p ∧ w.res.hForm = s.op.hForm) ↔
        match p with
        | .long h => h.version ≠ 0 ∧ h.type ≠ s.params.initialType
        | .initial h _ => h.version ≠ 0 ∧ h.type = s.params.initialType
        | .versionNegotiation _ _ _ => True
        | .short => False)

/-! ### Wire items (log 9): the internal steps, one item at a time -/

/-- A VarInt item at the cursor (`VARINT_W1`, `VARINT_W2`, `VARINT_W4`, `VARINT_W8`): the value and width of R94
and R138, the cursor after it, nothing else changed. The registers that hold the two are the model's choice
(log 10).
Spec's own: R138 (derived); an item as a step of its own is log 9. -/
def Obligations.VarIntItemIsRead : Prop :=
  ∀ (i : Instr) (v : Nat) (s : State) (first : Octet) (b : List Octet),
    i ∈ [.varintW1 v, .varintW2 v, .varintW4 v, .varintW8 v] → i.wellFormed = true → first.toNat = encode i →
    isVarIntField (first :: b) = true → s.cur + 1 + b.length ≤ s.op.ilen →
    Memory.readRange s.ibuf (s.cur + 1) b.length = some b →
    ∃ t, exec i s = .next t ∧ OperandsKept s t ∧ t.cur = s.cur + 1 + b.length ∧ t.obuf = s.obuf ∧
      t.res = { s.res with
        rVal := BitVec.ofNat 64 (be (first :: b) % 2 ^ (8 * (first :: b).length - 2))
        rWid := BitVec.ofNat 4 (first :: b).length }

/-- A packet-number item at the cursor (`PN_W1`, `PN_W2`, `PN_W4`; R95, R158; log 10).
Spec's own: R158 (derived); an item as a step of its own is log 9. -/
def Obligations.PacketNumberItemIsRead : Prop :=
  ∀ (i : Instr) (v : Nat) (s : State) (first : Octet) (b : List Octet),
    i ∈ [.pnW1 v, .pnW2 v, .pnW4 v] → i.wellFormed = true → first.toNat = encode i →
    isPnField (first :: b) = true → s.cur + 1 + b.length ≤ s.op.ilen →
    Memory.readRange s.ibuf (s.cur + 1) b.length = some b →
    ∃ t, exec i s = .next t ∧ OperandsKept s t ∧ t.cur = s.cur + 1 + b.length ∧ t.obuf = s.obuf ∧
      t.res = { s.res with
        rVal := BitVec.ofNat 64 (be (first :: b) % 2 ^ (if b.length = 3 then 30 else if b.length = 1 then 14 else 7))
        rWid := BitVec.ofNat 4 (first :: b).length }

/-- A CIL octet at the cursor announces the two identifiers that follow it, destination first (R96, R172). Nothing
but the four identifier registers and the cursor changes.
Spec's own: an item as a step of its own is the model's, log 9. -/
def Obligations.CilItemReadsIdentifiers : Prop :=
  ∀ (s : State) (dcid scid : List Octet), dcid.length ≤ 15 → scid.length ≤ 15 →
    s.cur + 1 + dcid.length + scid.length ≤ s.op.ilen →
    Memory.readRange s.ibuf (s.cur + 1) (dcid.length + scid.length) = some (dcid ++ scid) →
    ∃ t, exec (.cilOctet dcid.length scid.length) s = .next t ∧ OperandsKept s t ∧
      t.cur = s.cur + 1 + dcid.length + scid.length ∧ t.obuf = s.obuf ∧
      t.res.hDcil.toNat = dcid.length ∧ t.res.hScil.toNat = scid.length ∧
      t.res.hDcid.toList = dcid ++ s.res.hDcid.toList.drop dcid.length ∧
      t.res.hScid.toList = scid ++ s.res.hScid.toList.drop scid.length ∧
      t.res = { s.res with
        hDcil := t.res.hDcil, hScil := t.res.hScil, hDcid := t.res.hDcid, hScid := t.res.hScid }

/-- A wire item that leaves the buffer ends in `BufferTooShort` (R66, R172): a VarInt or packet number by its announced
width, a CIL octet by itself or by either identifier it announces. That it then ends like a whole operation is the
model's choice, log 17. Where a source identifier leaves the buffer, the destination identifier is read first and must
have been written (R172; log 3).
Spec's own: an item as a step of its own is the model's, log 9. -/
def Obligations.WireItemPastTheBufferIsTooShort : Prop :=
  (∀ (s : State) (first : Octet), s.op.ilen < s.cur + varIntWidth first →
    ∃ t, exec (decodeFirstOctet .varint first) s = .next t ∧ t.res.status = 0b0010 ∧ OperandsKept s t) ∧
  (∀ (s : State) (first : Octet), s.op.ilen < s.cur + pnLen first →
    ∃ t, exec (decodeFirstOctet .packetNumber first) s = .next t ∧ t.res.status = 0b0010 ∧ OperandsKept s t) ∧
  (∀ (s : State) (d c : Nat), s.op.ilen < s.cur + 1 + d + c →
    (s.cur + 1 + d ≤ s.op.ilen → (Memory.readRange s.ibuf (s.cur + 1) d).isSome) →
    ∃ t, exec (.cilOctet d c) s = .next t ∧ t.res.status = 0b0010 ∧ OperandsKept s t)

/-- The first octet of a packet alone routes it as `PK_PARSE` does (R97, R241; log 18): running the decoded packet
row on a buffer is running `PK_PARSE` on it. `PKT_SHORT` always ends in `UnknownPacketType`, as the short-header parser
it is routed to does (R242, R200), a next state and no refusal (log 16).
Spec's own: R241 (D10), R242, R200 (D9). -/
def Obligations.PacketFirstOctetRoutes : Prop :=
  (∀ (s : State) (o : Octet) (b : List Octet), HoldsInput s (o :: b) →
    exec (decodeFirstOctet .packet o) s = exec .pkParse s) ∧
  (∀ (s : State) (x : Nat), x < 128 →
    ∃ t, exec (.pktShort x) s = .next t ∧ t.res.status = 0b0100 ∧ OperandsKept s t)

/-- `PKT_LONG` completes: a packet of each long variant at the front of the buffer is parsed from its first octet
(R97, R241; log 18).
Spec's own: R241 (D10), R187 (D11, D12), R193 (D15). -/
def Obligations.PktLongParsesEachVariant : Prop :=
  (∀ (s : State) (p : LongPacket) (rest : List Octet) (ty : Nat), ty < 128 → p.first.toNat = 128 + ty →
    p.framed = true → p.measured = true → p.version ≠ 0 → ty ≠ s.params.initialType.toNat →
    HoldsInput s (p.octets ++ rest) →
    ∃ t, exec (.pktLong ty) s = .next t ∧ t.res.status = 0b0000 ∧ t.res.hForm = 0 ∧ LongResults p t.res ∧
      t.res.hPayOff = p.headOctets.length ∧ t.res.hPayLen = p.region.length ∧ t.res.rCur = p.octets.length) ∧
  (∀ (s : State) (p : LongPacket) (tl token payload rest : List Octet) (ty : Nat), ty < 128 →
    p.first.toNat = 128 + ty → p.framed = true → p.measured = true → p.version ≠ 0 →
    ty = s.params.initialType.toNat → p.region = tl ++ token ++ payload → isVarIntField tl = true →
    varIntValue tl = token.length → HoldsInput s (p.octets ++ rest) →
    ∃ t, exec (.pktLong ty) s = .next t ∧ t.res.status = 0b0000 ∧ t.res.hForm = 3 ∧ LongResults p t.res ∧
      t.res.hTokLen.toNat = token.length ∧ t.res.hTokOff = p.headOctets.length + tl.length ∧
      t.res.hPayLen = payload.length ∧ t.res.rCur = p.octets.length) ∧
  (∀ (s : State) (p : VnPacket) (ty : Nat), ty < 128 → p.first.toNat = 128 + ty → p.framed = true →
    HoldsInput s p.octets →
    ∃ t, exec (.pktLong ty) s = .next t ∧ t.res.status = 0b0000 ∧ VnResults p t.res)

/-! ### Unspecified values (log 5) and unwritten octets under wire items (log 3) -/

/-- A result register that R29 does not list for a command holds an unspecified value after its success: the model's
free value, and one more has been drawn (log 5). `PK_PARSE` lists what the parser it selects lists.
Spec's own: R29 (D3, D8). -/
def Obligations.UnlistedResultsAreUnspecified : Prop :=
  ∀ (i : Instr) (s t : State), isCommand i = true → exec i s = .next t → t.res.status = 0b0000 →
    t.free = s.free + 1 ∧
    (i ∈ [.viWid, .pnLen] → t.res = { freeResults s with status := 0b0000, rWid := t.res.rWid }) ∧
    (i ∈ [.viDec, .pnDec] → t.res = { freeResults s with
      status := 0b0000, rVal := t.res.rVal, rWid := t.res.rWid, rCur := t.res.rCur }) ∧
    (i ∈ [.viEnc, .pnEnc] → t.res = { freeResults s with
      status := 0b0000, rWid := t.res.rWid, olen := t.res.olen, rCur := t.res.rCur }) ∧
    (i ∈ [.lhEnc, .ipEnc, .vnEnc, .pkBuild] → t.res = { freeResults s with
      status := 0b0000, olen := t.res.olen, rCur := t.res.rCur }) ∧
    (i = .lhDec ∨ (i = .pkParse ∧ t.res.hForm = 0) → t.res = { freeResults s with
      status := 0b0000, hForm := 0, hType := t.res.hType, hVer := t.res.hVer, hDcil := t.res.hDcil
      hScil := t.res.hScil, hDcid := t.res.hDcid, hScid := t.res.hScid, hLen := t.res.hLen, hPn := t.res.hPn
      hPnw := t.res.hPnw, hPayOff := t.res.hPayOff, hPayLen := t.res.hPayLen, rCur := t.res.rCur }) ∧
    (i = .ipDec ∨ (i = .pkParse ∧ t.res.hForm = 3) → t.res = { freeResults s with
      status := 0b0000, hForm := 3, hType := t.res.hType, hVer := t.res.hVer, hDcil := t.res.hDcil
      hScil := t.res.hScil, hDcid := t.res.hDcid, hScid := t.res.hScid, hLen := t.res.hLen, hPn := t.res.hPn
      hPnw := t.res.hPnw, hPayOff := t.res.hPayOff, hPayLen := t.res.hPayLen, rCur := t.res.rCur
      hTokLen := t.res.hTokLen, hTokOff := t.res.hTokOff }) ∧
    (i = .vnDec ∨ (i = .pkParse ∧ t.res.hForm = 2) → t.res = { freeResults s with
      status := 0b0000, hForm := 2, hVer := 0, hDcil := t.res.hDcil, hScil := t.res.hScil, hDcid := t.res.hDcid
      hScid := t.res.hScid, nver := t.res.nver, vers := t.res.vers, rCur := t.res.rCur })

/-- An octet of `IBUF` the host never wrote stops the machine (log 3) where it is the first octet a step fetches for an
item of any wire format (log 9), for a packet octet 0 (log 18), and where it is a later octet of a VarInt,
packet-number or CIL item. Of a packet item's later octets nothing is said here: some are not read (log 20). -/
def Obligations.UnwrittenItemOctetFaults : Prop :=
  (∀ (s : State) (f : WireFormat), s.fetch = .wire f → f ≠ .packet → s.cur < s.op.ilen →
    Memory.read s.ibuf s.cur = none → step s = .fault .unwrittenInput) ∧
  (∀ s : State, s.fetch = .wire .packet → 0 < s.op.ilen → Memory.read s.ibuf 0 = none →
    step s = .fault .unwrittenInput) ∧
  (∀ (s : State) (first : Octet) (a : Nat), s.cur < a → Memory.read s.ibuf a = none →
    (a < s.cur + varIntWidth first → s.cur + varIntWidth first ≤ s.op.ilen →
      exec (decodeFirstOctet .varint first) s = .fault .unwrittenInput) ∧
    (a < s.cur + pnLen first → s.cur + pnLen first ≤ s.op.ilen →
      exec (decodeFirstOctet .packetNumber first) s = .fault .unwrittenInput)) ∧
  (∀ (s : State) (d c a : Nat), s.cur < a → a < s.cur + 1 + d + c → s.cur + 1 + d + c ≤ s.op.ilen →
    Memory.read s.ibuf a = none → exec (.cilOctet d c) s = .fault .unwrittenInput)
end

