-- ==== Sys2Proof/Laws/Bytes.lean ====
section
/-! SUPPORT. Big-endian assembly and disassembly (00_scope.md R10), bit slices (R8), identifier registers
(10_state.md R25) and version lists (R28). -/

namespace Sys2Proof.Machine

@[simp] theorem be_nil : be [] = 0 := rfl

theorem be_foldl (b : List Octet) (x : Nat) :
    b.foldl (fun acc o => acc * 256 + o.toNat) x = x * 256 ^ b.length + be b := by
  induction b generalizing x with
  | nil => simp [be]
  | cons o b ih =>
    simp only [be, List.foldl_cons, List.length_cons, Nat.zero_mul, Nat.zero_add]
    rw [ih, ih o.toNat, Nat.pow_succ]
    ring

theorem be_cons (o : Octet) (b : List Octet) : be (o :: b) = o.toNat * 256 ^ b.length + be b := by
  simp only [be, List.foldl_cons, Nat.zero_mul, Nat.zero_add]
  rw [be_foldl]
  rfl

theorem be_lt (b : List Octet) : be b < 256 ^ b.length := by
  induction b with
  | nil => simp
  | cons o b ih =>
    rw [be_cons, List.length_cons, Nat.pow_succ]
    have : o.toNat < 256 := o.isLt
    calc o.toNat * 256 ^ b.length + be b < o.toNat * 256 ^ b.length + 256 ^ b.length := by omega
      _ = (o.toNat + 1) * 256 ^ b.length := by ring
      _ ≤ 256 * 256 ^ b.length := Nat.mul_le_mul_right _ (by omega)
      _ = 256 ^ b.length * 256 := by ring

@[simp] theorem beN_length (n v : Nat) : (beN n v).length = n := by
  induction n with
  | zero => rfl
  | succ n ih => simp [beN, ih]

/-- `be` undoes `be_N`, on the part of the value that `N` octets hold. -/
theorem be_beN (n v : Nat) : be (beN n v) = v % 256 ^ n := by
  induction n with
  | zero => simp [beN, Nat.mod_one]
  | succ n ih =>
    have h : v % 256 ^ (n + 1) = v % 256 ^ n + 256 ^ n * (v / 256 ^ n % 2 ^ 8) := by
      exact Nat.mod_mul
    rw [beN, be_cons, beN_length, ih, BitVec.toNat_ofNat, h, Nat.mul_comm, Nat.add_comm]

theorem be_beN_of_lt (n v : Nat) (h : v < 256 ^ n) : be (beN n v) = v := by
  rw [be_beN, Nat.mod_eq_of_lt h]

/-- Two octet sequences of one length with one value are equal. -/
theorem be_inj (b c : List Octet) (hl : b.length = c.length) (h : be b = be c) : b = c := by
  induction b generalizing c with
  | nil => exact (List.length_eq_zero_iff.mp hl.symm).symm
  | cons o b ih =>
    cases c with
    | nil => simp at hl
    | cons p c =>
      have hl' : b.length = c.length := by simpa using hl
      rw [be_cons, be_cons, hl'] at h
      have hb := be_lt b
      have hc := be_lt c
      rw [hl'] at hb
      have ho : o.toNat = p.toNat := by
        have h1 : (o.toNat * 256 ^ c.length + be b) / 256 ^ c.length = o.toNat := by
          rw [Nat.mul_comm, Nat.mul_add_div (by positivity), Nat.div_eq_of_lt hb, Nat.add_zero]
        have h2 : (p.toNat * 256 ^ c.length + be c) / 256 ^ c.length = p.toNat := by
          rw [Nat.mul_comm, Nat.mul_add_div (by positivity), Nat.div_eq_of_lt hc, Nat.add_zero]
        rw [← h1, ← h2, h]
      rw [BitVec.eq_of_toNat_eq ho, ih c hl' (by rw [ho] at h; omega)]

/-- `be_N` undoes `be` on sequences of `N` octets. -/
theorem beN_be (b : List Octet) : beN b.length (be b) = b :=
  be_inj _ _ (beN_length _ _) (by rw [be_beN, Nat.mod_eq_of_lt (be_lt b)])

/-- A mask of low ones is a remainder. -/
theorem and_ones (x k : Nat) : x &&& (2 ^ k - 1) = x % 2 ^ k := Nat.and_two_pow_sub_one_eq_mod x k

/-- An OR with a constant above every value bit is a sum (R140, R160). -/
theorem or_shift (v s k : Nat) (h : v < 2 ^ k) : v ||| s <<< k = s * 2 ^ k + v := by
  rw [Nat.or_comm, Nat.shiftLeft_eq, Nat.mul_comm, Nat.two_pow_add_eq_or_of_lt h]

theorem slice_lt (v hi lo : Nat) : slice v hi lo < 2 ^ (hi - lo + 1) := Nat.mod_lt _ (by positivity)

theorem slice_low (v hi : Nat) : slice v hi 0 = v % 2 ^ (hi + 1) := by simp [slice]

theorem varIntWidth_cases (o : Octet) :
    varIntWidth o = 1 ∨ varIntWidth o = 2 ∨ varIntWidth o = 4 ∨ varIntWidth o = 8 := by
  have h : slice o.toNat 7 6 < 4 := slice_lt _ _ _
  unfold varIntWidth
  interval_cases slice o.toNat 7 6 <;> simp

theorem pnLen_cases (o : Octet) : pnLen o = 1 ∨ pnLen o = 2 ∨ pnLen o = 4 := by
  unfold pnLen
  split
  · simp
  · split <;> simp

/-- The identifier register after a write holds what was written. -/
theorem writeCid_take (b : List Octet) (old : Vector Octet 15) (h : b.length ≤ 15) :
    (writeCid b old).toList.take b.length = b := by
  show ((b ++ old.toList.drop b.length).take 15).take b.length = b
  rw [List.take_take, min_eq_left h, List.take_left']
  rfl

theorem version_lt_trans {x y z : Version} (h1 : x < y) (h2 : y < z) : x < z := by
  rw [BitVec.lt_def] at *
  omega

theorem version_lt_irrefl (x : Version) : ¬ x < x := by
  rw [BitVec.lt_def]
  omega

theorem version_ne_of_lt {x y : Version} (h : x < y) : x ≠ y := fun e => version_lt_irrefl y (e ▸ h)

theorem version_lt_of_not {x y : Version} (h : ¬ x < y) (hn : y ≠ x) : y < x := by
  have hne : y.toNat ≠ x.toNat := fun e => hn (BitVec.eq_of_toNat_eq e)
  rw [BitVec.lt_def] at *
  omega

theorem mem_insertVersion (v x : Version) (l : List Version) : x ∈ insertVersion v l ↔ x = v ∨ x ∈ l := by
  induction l with
  | nil => simp [insertVersion]
  | cons y l ih =>
    simp only [insertVersion]
    split
    · simp
    · split
      · rename_i h
        subst h
        simp
      · simp only [List.mem_cons, ih]
        tauto

theorem insertVersion_ascending (v : Version) (l : List Version) (h : l.Pairwise (· < ·)) :
    (insertVersion v l).Pairwise (· < ·) := by
  induction l with
  | nil => simp [insertVersion]
  | cons y l ih =>
    obtain ⟨h1, h2⟩ := List.pairwise_cons.mp h
    simp only [insertVersion]
    split
    · rename_i hv
      refine List.pairwise_cons.mpr ⟨?_, h⟩
      simp only [List.mem_cons, forall_eq_or_imp]
      exact ⟨hv, fun x hx => version_lt_trans hv (h1 x hx)⟩
    · split
      · exact h
      · rename_i h3 h4
        refine List.pairwise_cons.mpr ⟨fun x hx => ?_, ih h2⟩
        rcases (mem_insertVersion v x l).mp hx with rfl | hx
        · exact version_lt_of_not h3 (Ne.symm h4)
        · exact h1 x hx

theorem insertVersion_length (v : Version) (l : List Version) : (insertVersion v l).length ≤ l.length + 1 := by
  induction l with
  | nil => simp [insertVersion]
  | cons y l ih =>
    simp only [insertVersion]
    split
    · simp
    · split
      · simp
      · simpa using ih

theorem mem_versionSet (x : Version) (l : List Version) : x ∈ versionSet l ↔ x ∈ l := by
  induction l with
  | nil => simp [versionSet]
  | cons v l ih => simp [versionSet, mem_insertVersion, ih]

theorem versionSet_ascending (l : List Version) : (versionSet l).Pairwise (· < ·) := by
  induction l with
  | nil => simp [versionSet]
  | cons v l ih => exact insertVersion_ascending v _ ih

theorem versionSet_length (l : List Version) : (versionSet l).length ≤ l.length := by
  induction l with
  | nil => simp [versionSet]
  | cons v l ih => simpa [versionSet] using (insertVersion_length v _).trans (by omega)

theorem versionsOperand_length (s : State) : s.versionsOperand.length ≤ s.op.nver := by
  simpa [State.versionsOperand] using versionSet_length ((List.range s.op.nver).map s.versionEntry)

/-- Two ascending lists with the same members are the same list. -/
theorem ascending_ext (l m : List Version) (hl : l.Pairwise (· < ·)) (hm : m.Pairwise (· < ·))
    (h : ∀ x, x ∈ l ↔ x ∈ m) : l = m :=
  List.Perm.eq_of_pairwise (fun _ _ _ _ h1 h2 => absurd (version_lt_trans h1 h2) (version_lt_irrefl _)) hl hm
    ((List.perm_ext_iff_of_nodup (hl.imp version_ne_of_lt) (hm.imp version_ne_of_lt)).mpr h)

end Sys2Proof.Machine
end

