-- ==== Sys2Proof/Laws/Config.lean ====
section
/-! SUPPORT. The reset instance's parameters are legal (00_scope.md R6), and every legal set is possible. -/

namespace Sys2Proof.Config

theorem Params.legalise_legal (p : Params) : p.legalise.Legal := by
  unfold Params.Legal Params.legalise
  dsimp only
  refine ⟨by omega, by omega, by omega, by omega, ?_⟩
  exact lt_of_lt_of_le Nat.lt_log2_self (Nat.pow_le_pow_right (by decide) (le_max_right _ _))

theorem instanceParams_legal : instanceParams.Legal := Params.legalise_legal _

/-- A legal set is left as it is, so `instanceParams` may be any legal set. -/
theorem Params.legalise_of_legal (p : Params) (h : p.Legal) : p.legalise = p := by
  obtain ⟨hb, ht, hn, ho, hc⟩ := h
  have hpos : p.obufMax ≠ 0 := by omega
  have hcw : Nat.log2 p.obufMax + 1 ≤ p.cw := (Nat.log2_lt hpos).mpr hc
  have h1 : max 1 (min p.bufMax (2 ^ 62 - 13)) = p.bufMax := by omega
  have h2 : min p.tokMax (2 ^ 62 - 13 - p.bufMax) = p.tokMax := by omega
  have h3 : max p.nverMax (p.bufMax / 4) = p.nverMax := by omega
  have h4 : max p.obufMax (max (p.bufMax + p.tokMax + 56) (36 + 4 * p.nverMax)) = p.obufMax := by omega
  have h5 : max p.cw (Nat.log2 p.obufMax + 1) = p.cw := max_eq_left hcw
  simp only [Params.legalise, h1, h2, h3, h4, h5]

end Sys2Proof.Config
end

