-- ==== Sys2Proof/Laws/Memory.lean ====
section
/-! SUPPORT. The byte spaces: a write is read back and leaves every other octet alone (20_memory.md R65), every
operation keeps the canonical form, and a range that was written reads back whole. -/

namespace Sys2Proof.Machine

theorem Memory.read_write_same (m : Memory) (a : Nat) (o : Octet) : Memory.read (Memory.write m a o) a = some o := by
  induction m with
  | nil => simp [Memory.write, Memory.read]
  | cons c m ih =>
    obtain ⟨k, x⟩ := c
    simp only [Memory.write]
    split
    · simp [Memory.read]
    · split
      · simp [Memory.read]
      · rename_i h1 h2
        simp [Memory.read, Ne.symm h2, ih]

theorem Memory.read_write_other (m : Memory) (a b : Nat) (o : Octet) (h : a ≠ b) :
    Memory.read (Memory.write m a o) b = Memory.read m b := by
  induction m with
  | nil => simp [Memory.write, Memory.read, h]
  | cons c m ih =>
    obtain ⟨k, x⟩ := c
    simp only [Memory.write]
    split
    · simp [Memory.read, h]
    · split
      · rename_i h2
        subst h2
        simp [Memory.read, h]
      · simp [Memory.read, ih]

/-- The head of a canonical space is below every other offset, and the tail is canonical. -/
theorem Memory.wf_cons (k : Nat) (x : Octet) (m : Memory) :
    Memory.wf ((k, x) :: m) = true ↔ (∀ c ∈ m, k < c.1) ∧ Memory.wf m = true := by
  induction m generalizing k x with
  | nil => simp [Memory.wf]
  | cons c m ih =>
    obtain ⟨j, y⟩ := c
    simp only [Memory.wf, Bool.and_eq_true, decide_eq_true_eq, List.mem_cons, forall_eq_or_imp]
    constructor
    · rintro ⟨h1, h2⟩
      exact ⟨⟨h1, fun c hc => lt_trans h1 (((ih j y).mp h2).1 c hc)⟩, h2⟩
    · rintro ⟨⟨h1, _⟩, h2⟩
      exact ⟨h1, h2⟩

theorem Memory.mem_write (m : Memory) (a : Nat) (o : Octet) (c : Host.Cell) (h : c ∈ Memory.write m a o) :
    c = (a, o) ∨ c ∈ m := by
  induction m with
  | nil => simpa [Memory.write] using h
  | cons d m ih =>
    obtain ⟨k, x⟩ := d
    simp only [Memory.write] at h
    split at h
    · simpa using h
    · split at h
      · simp only [List.mem_cons] at h ⊢
        tauto
      · simp only [List.mem_cons] at h ⊢
        rcases h with h | h
        · exact .inr (.inl h)
        · rcases ih h with h | h
          · exact .inl h
          · exact .inr (.inr h)

/-- A write keeps the canonical form. -/
theorem Memory.wf_write (m : Memory) (a : Nat) (o : Octet) (h : Memory.wf m = true) :
    Memory.wf (Memory.write m a o) = true := by
  induction m with
  | nil => rfl
  | cons c m ih =>
    obtain ⟨k, x⟩ := c
    obtain ⟨h1, h2⟩ := (Memory.wf_cons k x m).mp h
    simp only [Memory.write]
    split
    · rename_i hak
      refine (Memory.wf_cons _ _ _).mpr ⟨?_, h⟩
      simp only [List.mem_cons, forall_eq_or_imp]
      exact ⟨hak, fun c hc => lt_trans hak (h1 c hc)⟩
    · split
      · rename_i hak
        subst hak
        exact (Memory.wf_cons _ _ _).mpr ⟨h1, h2⟩
      · rename_i h3 h4
        refine (Memory.wf_cons _ _ _).mpr ⟨?_, ih h2⟩
        intro c hc
        rcases Memory.mem_write m a o c hc with rfl | hc
        · show k < a
          omega
        · exact h1 c hc

theorem Memory.wf_writeRange (b : List Octet) (m : Memory) (a : Nat) (h : Memory.wf m = true) :
    Memory.wf (Memory.writeRange m a b) = true := by
  induction b generalizing m a with
  | nil => exact h
  | cons o b ih => exact ih _ _ (Memory.wf_write m a o h)

theorem Memory.wf_ofOctets (b : List Octet) : Memory.wf (Memory.ofOctets b) = true :=
  Memory.wf_writeRange b [] 0 rfl

/-- A range write changes no octet outside the range. -/
theorem Memory.read_writeRange_outside (b : List Octet) (m : Memory) (a x : Nat) (h : x < a ∨ a + b.length ≤ x) :
    Memory.read (Memory.writeRange m a b) x = Memory.read m x := by
  induction b generalizing m a with
  | nil => rfl
  | cons o b ih =>
    simp only [List.length_cons] at h
    rw [Memory.writeRange, ih _ _ (by omega), Memory.read_write_other _ _ _ _ (by omega)]

/-- Each octet of a written range reads back. -/
theorem Memory.read_writeRange_inside (b : List Octet) (m : Memory) (a i : Nat) (h : i < b.length) :
    Memory.read (Memory.writeRange m a b) (a + i) = some b[i] := by
  induction b generalizing m a i with
  | nil => simp at h
  | cons o b ih =>
    rw [Memory.writeRange]
    cases i with
    | zero =>
      rw [Memory.read_writeRange_outside _ _ _ _ (by omega)]
      simpa using Memory.read_write_same m a o
    | succ i =>
      have := ih (Memory.write m a o) (a + 1) i (by simpa using h)
      rw [show a + (i + 1) = a + 1 + i by omega, this]
      rfl

theorem Memory.mem_writeRange (b : List Octet) (m : Memory) (a : Nat) (c : Host.Cell)
    (h : c ∈ Memory.writeRange m a b) : c ∈ m ∨ a ≤ c.1 ∧ c.1 < a + b.length := by
  induction b generalizing m a with
  | nil => exact .inl h
  | cons o b ih =>
    simp only [List.length_cons]
    rcases ih _ _ h with h | h
    · rcases Memory.mem_write m a o c h with rfl | h
      · exact .inr ⟨le_rfl, by omega⟩
      · exact .inl h
    · exact .inr (by omega)

/-- What a range read answers, octet by octet. -/
theorem Memory.readRange_eq_some (m : Memory) (a n : Nat) (b : List Octet) :
    Memory.readRange m a n = some b ↔ b.length = n ∧ ∀ i (h : i < b.length), Memory.read m (a + i) = some b[i] := by
  induction n generalizing a b with
  | zero =>
    simp only [Memory.readRange, Option.some.injEq]
    constructor
    · rintro rfl
      simp
    · rintro ⟨h, _⟩
      exact (List.length_eq_zero_iff.mp h).symm
  | succ n ih =>
    simp only [Memory.readRange]
    constructor
    · intro h
      split at h
      · rename_i o r ho hr
        obtain ⟨hl, hi⟩ := (ih (a + 1) r).mp hr
        simp only [Option.some.injEq] at h
        subst h
        refine ⟨by simp [hl], fun i hi' => ?_⟩
        cases i with
        | zero => simpa using ho
        | succ i =>
          have := hi i (by simpa using hi')
          simpa [Nat.add_comm, Nat.add_left_comm, Nat.add_assoc] using this
      · cases h
    · rintro ⟨hl, hi⟩
      cases b with
      | nil => simp at hl
      | cons o r =>
        have h0 := hi 0 (by simp)
        have hr : Memory.readRange m (a + 1) n = some r := by
          refine (ih (a + 1) r).mpr ⟨by simpa using hl, fun i hi' => ?_⟩
          have := hi (i + 1) (by simpa using hi')
          simpa [Nat.add_comm, Nat.add_left_comm, Nat.add_assoc] using this
        simp only [Nat.add_zero, List.getElem_cons_zero] at h0
        rw [h0, hr]

theorem Memory.readRange_length (m : Memory) (a n : Nat) (b : List Octet) (h : Memory.readRange m a n = some b) :
    b.length = n := ((Memory.readRange_eq_some m a n b).mp h).1

/-- A written range reads back whole. -/
theorem Memory.readRange_writeRange (b : List Octet) (m : Memory) (a : Nat) :
    Memory.readRange (Memory.writeRange m a b) a b.length = some b :=
  (Memory.readRange_eq_some _ _ _ _).mpr ⟨rfl, fun i h => Memory.read_writeRange_inside b m a i h⟩

theorem Memory.readRange_ofOctets (b : List Octet) : Memory.readRange (Memory.ofOctets b) 0 b.length = some b :=
  Memory.readRange_writeRange b [] 0

/-- A part of a range that reads is read as that part. -/
theorem Memory.readRange_sub (m : Memory) (b : List Octet) (n : Nat) (h : Memory.readRange m 0 n = some b)
    (a k : Nat) (hk : a + k ≤ b.length) : Memory.readRange m a k = some ((b.drop a).take k) := by
  obtain ⟨_, hi⟩ := (Memory.readRange_eq_some _ _ _ _).mp h
  refine (Memory.readRange_eq_some _ _ _ _).mpr ⟨by simp; omega, fun i hi' => ?_⟩
  have hlt : a + i < b.length := by
    simp only [List.length_take, List.length_drop] at hi'
    omega
  have := hi (a + i) hlt
  simp only [Nat.zero_add] at this
  simp [this]

/-- Writing two sequences one after the other is writing their concatenation. -/
theorem Memory.writeRange_append (b c : List Octet) (m : Memory) (a : Nat) :
    Memory.writeRange m a (b ++ c) = Memory.writeRange (Memory.writeRange m a b) (a + b.length) c := by
  induction b generalizing m a with
  | nil => rfl
  | cons o b ih =>
    simp only [List.cons_append, Memory.writeRange, List.length_cons, ih]
    rw [show a + 1 + b.length = a + (b.length + 1) by omega]

end Sys2Proof.Machine
end

