-- ==== Sys2Proof/Laws/State.lean ====
section
/-! SUPPORT. One lemma per field for each update of the state: how an operation ends (`raiseError`, `complete`,
`completeEncode`, `innerStep`) and the host's loads. No later proof unfolds a record update. -/

namespace Sys2Proof.Machine

section raiseError
variable (e : ErrorKind) (cur : Nat) (s : State)

@[simp] theorem raiseError_params : (raiseError e cur s).params = s.params := rfl
@[simp] theorem raiseError_cmd : (raiseError e cur s).cmd = s.cmd := rfl
@[simp] theorem raiseError_fetch : (raiseError e cur s).fetch = s.fetch := rfl
@[simp] theorem raiseError_op : (raiseError e cur s).op = s.op := rfl
@[simp] theorem raiseError_ibuf : (raiseError e cur s).ibuf = s.ibuf := rfl
@[simp] theorem raiseError_tokbuf : (raiseError e cur s).tokbuf = s.tokbuf := rfl
@[simp] theorem raiseError_obuf : (raiseError e cur s).obuf = [] := rfl
@[simp] theorem raiseError_cur : (raiseError e cur s).cur = cur := rfl
@[simp] theorem raiseError_free : (raiseError e cur s).free = s.free + 1 := rfl
@[simp] theorem raiseError_res_status : (raiseError e cur s).res.status = errorStatus e := rfl
@[simp] theorem raiseError_res : (raiseError e cur s).res = { freeResults s with status := errorStatus e } := rfl

end raiseError

section complete
variable (cur : Nat) (write : ResultRegs → ResultRegs) (s : State)

@[simp] theorem complete_params : (complete cur write s).params = s.params := rfl
@[simp] theorem complete_cmd : (complete cur write s).cmd = s.cmd := rfl
@[simp] theorem complete_fetch : (complete cur write s).fetch = s.fetch := rfl
@[simp] theorem complete_op : (complete cur write s).op = s.op := rfl
@[simp] theorem complete_ibuf : (complete cur write s).ibuf = s.ibuf := rfl
@[simp] theorem complete_tokbuf : (complete cur write s).tokbuf = s.tokbuf := rfl
@[simp] theorem complete_obuf : (complete cur write s).obuf = [] := rfl
@[simp] theorem complete_cur : (complete cur write s).cur = cur := rfl
@[simp] theorem complete_free : (complete cur write s).free = s.free + 1 := rfl
@[simp] theorem complete_res_status : (complete cur write s).res.status = successStatus := rfl
@[simp] theorem complete_res_rVal : (complete cur write s).res.rVal = (write (freeResults s)).rVal := rfl
@[simp] theorem complete_res_rWid : (complete cur write s).res.rWid = (write (freeResults s)).rWid := rfl
@[simp] theorem complete_res_rCur : (complete cur write s).res.rCur = (write (freeResults s)).rCur := rfl
@[simp] theorem complete_res_hForm : (complete cur write s).res.hForm = (write (freeResults s)).hForm := rfl
@[simp] theorem complete_res_hType : (complete cur write s).res.hType = (write (freeResults s)).hType := rfl
@[simp] theorem complete_res_hVer : (complete cur write s).res.hVer = (write (freeResults s)).hVer := rfl
@[simp] theorem complete_res_hDcil : (complete cur write s).res.hDcil = (write (freeResults s)).hDcil := rfl
@[simp] theorem complete_res_hScil : (complete cur write s).res.hScil = (write (freeResults s)).hScil := rfl
@[simp] theorem complete_res_hDcid : (complete cur write s).res.hDcid = (write (freeResults s)).hDcid := rfl
@[simp] theorem complete_res_hScid : (complete cur write s).res.hScid = (write (freeResults s)).hScid := rfl
@[simp] theorem complete_res_hLen : (complete cur write s).res.hLen = (write (freeResults s)).hLen := rfl
@[simp] theorem complete_res_hPn : (complete cur write s).res.hPn = (write (freeResults s)).hPn := rfl
@[simp] theorem complete_res_hPnw : (complete cur write s).res.hPnw = (write (freeResults s)).hPnw := rfl
@[simp] theorem complete_res_hTokLen : (complete cur write s).res.hTokLen = (write (freeResults s)).hTokLen := rfl
@[simp] theorem complete_res_hTokOff : (complete cur write s).res.hTokOff = (write (freeResults s)).hTokOff := rfl
@[simp] theorem complete_res_hPayOff : (complete cur write s).res.hPayOff = (write (freeResults s)).hPayOff := rfl
@[simp] theorem complete_res_hPayLen : (complete cur write s).res.hPayLen = (write (freeResults s)).hPayLen := rfl
@[simp] theorem complete_res_nver : (complete cur write s).res.nver = (write (freeResults s)).nver := rfl
@[simp] theorem complete_res_vers : (complete cur write s).res.vers = (write (freeResults s)).vers := rfl
@[simp] theorem complete_res_olen : (complete cur write s).res.olen = (write (freeResults s)).olen := rfl

end complete

section completeWidth
variable (w : Nat) (s : State)

@[simp] theorem completeWidth_params : (completeWidth w s).params = s.params := rfl
@[simp] theorem completeWidth_cmd : (completeWidth w s).cmd = s.cmd := rfl
@[simp] theorem completeWidth_fetch : (completeWidth w s).fetch = s.fetch := rfl
@[simp] theorem completeWidth_op : (completeWidth w s).op = s.op := rfl
@[simp] theorem completeWidth_ibuf : (completeWidth w s).ibuf = s.ibuf := rfl
@[simp] theorem completeWidth_tokbuf : (completeWidth w s).tokbuf = s.tokbuf := rfl
@[simp] theorem completeWidth_obuf : (completeWidth w s).obuf = s.obuf := rfl
@[simp] theorem completeWidth_cur : (completeWidth w s).cur = 0 := rfl
@[simp] theorem completeWidth_free : (completeWidth w s).free = s.free + 1 := rfl
@[simp] theorem completeWidth_res :
    (completeWidth w s).res = { freeResults s with status := successStatus, rWid := BitVec.ofNat 4 w } := rfl

end completeWidth

section completeEncode
variable (out : Out) (write : ResultRegs → ResultRegs) (s : State)

@[simp] theorem completeEncode_params : (completeEncode out write s).params = s.params := rfl
@[simp] theorem completeEncode_cmd : (completeEncode out write s).cmd = s.cmd := rfl
@[simp] theorem completeEncode_fetch : (completeEncode out write s).fetch = s.fetch := rfl
@[simp] theorem completeEncode_op : (completeEncode out write s).op = s.op := rfl
@[simp] theorem completeEncode_ibuf : (completeEncode out write s).ibuf = s.ibuf := rfl
@[simp] theorem completeEncode_tokbuf : (completeEncode out write s).tokbuf = s.tokbuf := rfl
@[simp] theorem completeEncode_obuf : (completeEncode out write s).obuf = out.mem := rfl
@[simp] theorem completeEncode_cur : (completeEncode out write s).cur = out.cur := rfl
@[simp] theorem completeEncode_free : (completeEncode out write s).free = s.free + 1 := rfl
@[simp] theorem completeEncode_res_status : (completeEncode out write s).res.status = successStatus := rfl
@[simp] theorem completeEncode_res_olen : (completeEncode out write s).res.olen = out.cur := rfl
@[simp] theorem completeEncode_res_rCur : (completeEncode out write s).res.rCur = out.cur := rfl
@[simp] theorem completeEncode_res_rVal : (completeEncode out write s).res.rVal = (write (freeResults s)).rVal := rfl
@[simp] theorem completeEncode_res_rWid : (completeEncode out write s).res.rWid = (write (freeResults s)).rWid := rfl
@[simp] theorem completeEncode_res_hForm : (completeEncode out write s).res.hForm = (write (freeResults s)).hForm := rfl
@[simp] theorem completeEncode_res_hType : (completeEncode out write s).res.hType = (write (freeResults s)).hType := rfl
@[simp] theorem completeEncode_res_hVer : (completeEncode out write s).res.hVer = (write (freeResults s)).hVer := rfl
@[simp] theorem completeEncode_res_hDcil : (completeEncode out write s).res.hDcil = (write (freeResults s)).hDcil := rfl
@[simp] theorem completeEncode_res_hScil : (completeEncode out write s).res.hScil = (write (freeResults s)).hScil := rfl
@[simp] theorem completeEncode_res_hDcid : (completeEncode out write s).res.hDcid = (write (freeResults s)).hDcid := rfl
@[simp] theorem completeEncode_res_hScid : (completeEncode out write s).res.hScid = (write (freeResults s)).hScid := rfl
@[simp] theorem completeEncode_res_hLen : (completeEncode out write s).res.hLen = (write (freeResults s)).hLen := rfl
@[simp] theorem completeEncode_res_hPn : (completeEncode out write s).res.hPn = (write (freeResults s)).hPn := rfl
@[simp] theorem completeEncode_res_hPnw : (completeEncode out write s).res.hPnw = (write (freeResults s)).hPnw := rfl
@[simp] theorem completeEncode_res_hTokLen : (completeEncode out write s).res.hTokLen = (write (freeResults s)).hTokLen := rfl
@[simp] theorem completeEncode_res_hTokOff : (completeEncode out write s).res.hTokOff = (write (freeResults s)).hTokOff := rfl
@[simp] theorem completeEncode_res_hPayOff : (completeEncode out write s).res.hPayOff = (write (freeResults s)).hPayOff := rfl
@[simp] theorem completeEncode_res_hPayLen : (completeEncode out write s).res.hPayLen = (write (freeResults s)).hPayLen := rfl
@[simp] theorem completeEncode_res_nver : (completeEncode out write s).res.nver = (write (freeResults s)).nver := rfl
@[simp] theorem completeEncode_res_vers : (completeEncode out write s).res.vers = (write (freeResults s)).vers := rfl

end completeEncode

section innerStep
variable (cur : Nat) (write : ResultRegs → ResultRegs) (s : State)

@[simp] theorem innerStep_params : (innerStep cur write s).params = s.params := rfl
@[simp] theorem innerStep_cmd : (innerStep cur write s).cmd = s.cmd := rfl
@[simp] theorem innerStep_fetch : (innerStep cur write s).fetch = s.fetch := rfl
@[simp] theorem innerStep_op : (innerStep cur write s).op = s.op := rfl
@[simp] theorem innerStep_ibuf : (innerStep cur write s).ibuf = s.ibuf := rfl
@[simp] theorem innerStep_tokbuf : (innerStep cur write s).tokbuf = s.tokbuf := rfl
@[simp] theorem innerStep_obuf : (innerStep cur write s).obuf = s.obuf := rfl
@[simp] theorem innerStep_cur : (innerStep cur write s).cur = cur := rfl
@[simp] theorem innerStep_free : (innerStep cur write s).free = s.free := rfl
@[simp] theorem innerStep_res : (innerStep cur write s).res = write s.res := rfl

end innerStep

section loadInput
variable (s : State) (b : List Octet)

@[simp] theorem loadInput_params : (s.loadInput b).params = s.params := rfl
@[simp] theorem loadInput_cmd : (s.loadInput b).cmd = s.cmd := rfl
@[simp] theorem loadInput_fetch : (s.loadInput b).fetch = s.fetch := rfl
@[simp] theorem loadInput_res : (s.loadInput b).res = s.res := rfl
@[simp] theorem loadInput_tokbuf : (s.loadInput b).tokbuf = s.tokbuf := rfl
@[simp] theorem loadInput_obuf : (s.loadInput b).obuf = s.obuf := rfl
@[simp] theorem loadInput_cur : (s.loadInput b).cur = s.cur := rfl
@[simp] theorem loadInput_free : (s.loadInput b).free = s.free := rfl
@[simp] theorem loadInput_ibuf : (s.loadInput b).ibuf = Memory.ofOctets b := rfl
@[simp] theorem loadInput_op : (s.loadInput b).op = { s.op with ilen := b.length } := rfl
@[simp] theorem loadInput_op_ilen : (s.loadInput b).op.ilen = b.length := rfl

end loadInput

section loadToken
variable (s : State) (b : List Octet)

@[simp] theorem loadToken_params : (s.loadToken b).params = s.params := rfl
@[simp] theorem loadToken_cmd : (s.loadToken b).cmd = s.cmd := rfl
@[simp] theorem loadToken_fetch : (s.loadToken b).fetch = s.fetch := rfl
@[simp] theorem loadToken_res : (s.loadToken b).res = s.res := rfl
@[simp] theorem loadToken_ibuf : (s.loadToken b).ibuf = s.ibuf := rfl
@[simp] theorem loadToken_obuf : (s.loadToken b).obuf = s.obuf := rfl
@[simp] theorem loadToken_cur : (s.loadToken b).cur = s.cur := rfl
@[simp] theorem loadToken_free : (s.loadToken b).free = s.free := rfl
@[simp] theorem loadToken_tokbuf : (s.loadToken b).tokbuf = Memory.ofOctets b := rfl
@[simp] theorem loadToken_op : (s.loadToken b).op = { s.op with tlen := b.length } := rfl
@[simp] theorem loadToken_op_tlen : (s.loadToken b).op.tlen = b.length := rfl

end loadToken

/-! ### No update touches an operand or an input space (R20, R70) -/

theorem OperandsKept.refl (s : State) : OperandsKept s s :=
  ⟨rfl, rfl, rfl, rfl, fun _ => rfl, fun _ => rfl⟩

theorem raiseError_kept (e : ErrorKind) (cur : Nat) (s : State) : OperandsKept s (raiseError e cur s) :=
  ⟨rfl, rfl, rfl, rfl, fun _ => rfl, fun _ => rfl⟩

theorem complete_kept (cur : Nat) (write : ResultRegs → ResultRegs) (s : State) :
    OperandsKept s (complete cur write s) := ⟨rfl, rfl, rfl, rfl, fun _ => rfl, fun _ => rfl⟩

theorem completeWidth_kept (w : Nat) (s : State) : OperandsKept s (completeWidth w s) :=
  ⟨rfl, rfl, rfl, rfl, fun _ => rfl, fun _ => rfl⟩

theorem completeEncode_kept (out : Out) (write : ResultRegs → ResultRegs) (s : State) :
    OperandsKept s (completeEncode out write s) := ⟨rfl, rfl, rfl, rfl, fun _ => rfl, fun _ => rfl⟩

theorem innerStep_kept (cur : Nat) (write : ResultRegs → ResultRegs) (s : State) :
    OperandsKept s (innerStep cur write s) := ⟨rfl, rfl, rfl, rfl, fun _ => rfl, fun _ => rfl⟩

section writeIds
variable (ids : Ids) (r : ResultRegs)

@[simp] theorem writeIds_status : (writeIds ids r).status = r.status := rfl
@[simp] theorem writeIds_rVal : (writeIds ids r).rVal = r.rVal := rfl
@[simp] theorem writeIds_rWid : (writeIds ids r).rWid = r.rWid := rfl
@[simp] theorem writeIds_rCur : (writeIds ids r).rCur = r.rCur := rfl
@[simp] theorem writeIds_hForm : (writeIds ids r).hForm = r.hForm := rfl
@[simp] theorem writeIds_hType : (writeIds ids r).hType = r.hType := rfl
@[simp] theorem writeIds_hVer : (writeIds ids r).hVer = r.hVer := rfl
@[simp] theorem writeIds_hLen : (writeIds ids r).hLen = r.hLen := rfl
@[simp] theorem writeIds_hPn : (writeIds ids r).hPn = r.hPn := rfl
@[simp] theorem writeIds_hPnw : (writeIds ids r).hPnw = r.hPnw := rfl
@[simp] theorem writeIds_hTokLen : (writeIds ids r).hTokLen = r.hTokLen := rfl
@[simp] theorem writeIds_hTokOff : (writeIds ids r).hTokOff = r.hTokOff := rfl
@[simp] theorem writeIds_hPayOff : (writeIds ids r).hPayOff = r.hPayOff := rfl
@[simp] theorem writeIds_hPayLen : (writeIds ids r).hPayLen = r.hPayLen := rfl
@[simp] theorem writeIds_nver : (writeIds ids r).nver = r.nver := rfl
@[simp] theorem writeIds_vers : (writeIds ids r).vers = r.vers := rfl
@[simp] theorem writeIds_olen : (writeIds ids r).olen = r.olen := rfl
@[simp] theorem writeIds_hDcil : (writeIds ids r).hDcil = BitVec.ofNat 4 ids.dcil := rfl
@[simp] theorem writeIds_hScil : (writeIds ids r).hScil = BitVec.ofNat 4 ids.scil := rfl
@[simp] theorem writeIds_hDcid : (writeIds ids r).hDcid = writeCid ids.dcid r.hDcid := rfl
@[simp] theorem writeIds_hScid : (writeIds ids r).hScid = writeCid ids.scid r.hScid := rfl

end writeIds

section writeLong
variable (f : LongFields) (r : ResultRegs)

@[simp] theorem writeLong_status : (writeLong f r).status = r.status := rfl
@[simp] theorem writeLong_rVal : (writeLong f r).rVal = r.rVal := rfl
@[simp] theorem writeLong_rWid : (writeLong f r).rWid = r.rWid := rfl
@[simp] theorem writeLong_rCur : (writeLong f r).rCur = r.rCur := rfl
@[simp] theorem writeLong_hForm : (writeLong f r).hForm = r.hForm := rfl
@[simp] theorem writeLong_hTokLen : (writeLong f r).hTokLen = r.hTokLen := rfl
@[simp] theorem writeLong_hTokOff : (writeLong f r).hTokOff = r.hTokOff := rfl
@[simp] theorem writeLong_hPayOff : (writeLong f r).hPayOff = r.hPayOff := rfl
@[simp] theorem writeLong_hPayLen : (writeLong f r).hPayLen = r.hPayLen := rfl
@[simp] theorem writeLong_nver : (writeLong f r).nver = r.nver := rfl
@[simp] theorem writeLong_vers : (writeLong f r).vers = r.vers := rfl
@[simp] theorem writeLong_olen : (writeLong f r).olen = r.olen := rfl
@[simp] theorem writeLong_hType : (writeLong f r).hType = BitVec.ofNat 7 f.type := rfl
@[simp] theorem writeLong_hVer : (writeLong f r).hVer = BitVec.ofNat 32 f.version := rfl
@[simp] theorem writeLong_hDcil : (writeLong f r).hDcil = BitVec.ofNat 4 f.ids.dcil := rfl
@[simp] theorem writeLong_hScil : (writeLong f r).hScil = BitVec.ofNat 4 f.ids.scil := rfl
@[simp] theorem writeLong_hDcid : (writeLong f r).hDcid = writeCid f.ids.dcid r.hDcid := rfl
@[simp] theorem writeLong_hScid : (writeLong f r).hScid = writeCid f.ids.scid r.hScid := rfl
@[simp] theorem writeLong_hLen : (writeLong f r).hLen = BitVec.ofNat 62 f.len := rfl
@[simp] theorem writeLong_hPn : (writeLong f r).hPn = BitVec.ofNat 32 f.pn.value := rfl
@[simp] theorem writeLong_hPnw : (writeLong f r).hPnw = BitVec.ofNat 4 f.pn.width := rfl

end writeLong

end Sys2Proof.Machine
end

