-- ==== Sys2Proof/Laws/Ops.lean ====
section
/-! SUPPORT. What each shared operation can do, said once: the access primitives (20_memory.md R66 to R68), the
ends of an operation (60_exceptions.md R270, R271), and what the primitives answer on a buffer whose octets are
known. -/

namespace Sys2Proof.Machine

/-! ### Every case of a primitive -/

theorem skip_ok {s : State} {cur n c : Nat} (h : skip s cur n = .ok c) : c = cur + n ∧ c ≤ s.op.ilen := by
  simp only [skip] at h
  split at h
  · cases h
  · cases h
    omega

theorem skip_error {s : State} {cur n : Nat} {x : Stop} (h : skip s cur n = .error x) :
    x = .raised .bufferTooShort cur ∧ s.op.ilen < cur + n := by
  simp only [skip] at h
  split at h
  · cases h
    exact ⟨rfl, by assumption⟩
  · cases h

theorem readInput_ok {s : State} {a n : Nat} {b : List Octet} (h : readInput s a n = .ok b) :
    Memory.readRange s.ibuf a n = some b := by
  simp only [readInput] at h
  split at h
  · cases h
    assumption
  · cases h

theorem readInput_error {s : State} {a n : Nat} {x : Stop} (h : readInput s a n = .error x) :
    x = .unwritten .unwrittenInput ∧ Memory.readRange s.ibuf a n = none := by
  simp only [readInput] at h
  split at h
  · cases h
  · cases h
    exact ⟨rfl, by assumption⟩

theorem take_ok {s : State} {cur n c : Nat} {b : List Octet} (h : take s cur n = .ok (b, c)) :
    c = cur + n ∧ c ≤ s.op.ilen ∧ b.length = n ∧ Memory.readRange s.ibuf cur n = some b := by
  simp only [take] at h
  split at h
  · cases h
  · rename_i c' hc
    split at h
    · cases h
    · rename_i b' hb
      cases h
      obtain ⟨h1, h2⟩ := skip_ok hc
      exact ⟨h1, h2, Memory.readRange_length _ _ _ _ (readInput_ok hb), readInput_ok hb⟩

theorem take_error {s : State} {cur n : Nat} {x : Stop} (h : take s cur n = .error x) :
    (x = .raised .bufferTooShort cur ∧ s.op.ilen < cur + n) ∨
      (x = .unwritten .unwrittenInput ∧ Memory.readRange s.ibuf cur n = none) := by
  simp only [take] at h
  split at h
  · rename_i e he
    cases h
    exact .inl (skip_error he)
  · split at h
    · rename_i e he
      cases h
      exact .inr (readInput_error he)
    · cases h

theorem peek_ok {s : State} {cur k : Nat} {o : Octet} (h : peek s cur k = .ok o) :
    cur + k < s.op.ilen ∧ Memory.read s.ibuf (cur + k) = some o := by
  simp only [peek] at h
  split at h
  · cases h
  · split at h
    · cases h
      exact ⟨by omega, by assumption⟩
    · cases h

theorem peek_error {s : State} {cur k : Nat} {x : Stop} (h : peek s cur k = .error x) :
    (x = .raised .bufferTooShort cur ∧ s.op.ilen ≤ cur + k) ∨
      (x = .unwritten .unwrittenInput ∧ Memory.read s.ibuf (cur + k) = none) := by
  simp only [peek] at h
  split at h
  · cases h
    exact .inl ⟨rfl, by omega⟩
  · split at h
    · cases h
    · cases h
      exact .inr ⟨rfl, by assumption⟩

theorem skip_of_le {s : State} {cur n : Nat} (h : cur + n ≤ s.op.ilen) : skip s cur n = .ok (cur + n) := by
  rw [skip, if_neg (by omega)]

theorem skip_of_lt {s : State} {cur n : Nat} (h : s.op.ilen < cur + n) :
    skip s cur n = .error (.raised .bufferTooShort cur) := by
  rw [skip, if_pos h]

theorem peek_of_read {s : State} {cur k : Nat} {o : Octet} (h : cur + k < s.op.ilen)
    (hr : Memory.read s.ibuf (cur + k) = some o) : peek s cur k = .ok o := by
  rw [peek, if_neg (by omega), hr]

theorem peek_of_le {s : State} {cur k : Nat} (h : s.op.ilen ≤ cur + k) :
    peek s cur k = .error (.raised .bufferTooShort cur) := by
  rw [peek, if_pos (by omega)]

/-- What `takeAfterFirst` answers when it answers (log 9). -/
theorem takeAfterFirst_ok {s : State} {cur w c : Nat} {first : Octet} {b : List Octet}
    (h : takeAfterFirst s cur first w = .ok (b, c)) :
    c = cur + w ∧ c ≤ s.op.ilen ∧ ∃ r, b = first :: r ∧ Memory.readRange s.ibuf (cur + 1) (w - 1) = some r := by
  simp only [takeAfterFirst] at h
  split at h
  · cases h
  · rename_i c' hc
    split at h
    · cases h
    · rename_i r hr
      cases h
      obtain ⟨h1, h2⟩ := skip_ok hc
      exact ⟨h1, h2, r, rfl, readInput_ok hr⟩

/-- A sequence of `Emit`s is one write of their concatenation at the cursor (R68). -/
theorem emitAll_eq (bs : List (List Octet)) (o : Out) :
    emitAll o bs = ⟨Memory.writeRange o.mem o.cur bs.flatten, o.cur + bs.flatten.length⟩ := by
  induction bs generalizing o with
  | nil => rfl
  | cons b bs ih =>
    rw [emitAll, ih]
    simp [emit, Memory.writeRange_append, Nat.add_assoc]

theorem emitAll_empty (bs : List (List Octet)) :
    emitAll Out.empty bs = ⟨Memory.ofOctets bs.flatten, bs.flatten.length⟩ := by
  rw [emitAll_eq]
  simp [Out.empty, Memory.ofOctets]

theorem emit_empty (b : List Octet) : emit Out.empty b = ⟨Memory.ofOctets b, b.length⟩ := by
  simp [emit, Out.empty, Memory.ofOctets]

/-! ### How an operation ends -/

/-- An operation that answers a next state succeeded, or raised one error. -/
theorem conclude_next {s t : State} {r : Except Stop State} (h : conclude s r = .next t) :
    r = .ok t ∨ ∃ e cur, r = .error (.raised e cur) ∧ t = raiseError e cur s := by
  cases r with
  | ok u =>
    simp only [conclude, Host.Outcome.next.injEq] at h
    exact .inl (by rw [h])
  | error x =>
    cases x with
    | raised e cur =>
      simp only [conclude, Host.Outcome.next.injEq] at h
      exact .inr ⟨e, cur, rfl, h.symm⟩
    | unwritten f => simp [conclude] at h

@[simp] theorem withinCapacity_iff (n cap : Nat) : withinCapacity n cap = true ↔ n ≤ cap := by
  simp only [withinCapacity, Bool.or_eq_true, beq_iff_eq, decide_eq_true_eq]
  omega

theorem guardInput_next {s t : State} {k : StepOutcome} (h : guardInput s k = .next t) :
    s.op.ilen ≤ s.params.bufMax ∧ k = .next t := by
  simp only [guardInput] at h
  split at h
  · exact ⟨(withinCapacity_iff _ _).mp (by assumption), h⟩
  · cases h

theorem guardToken_next {s t : State} {k : StepOutcome} (h : guardToken s k = .next t) :
    s.op.tlen ≤ s.params.tokMax ∧ k = .next t := by
  simp only [guardToken] at h
  split at h
  · exact ⟨(withinCapacity_iff _ _).mp (by assumption), h⟩
  · cases h

theorem guardVersions_next {s t : State} {k : StepOutcome} (h : guardVersions s k = .next t) :
    s.op.nver ≤ s.params.nverMax ∧ k = .next t := by
  simp only [guardVersions] at h
  split at h
  · exact ⟨(withinCapacity_iff _ _).mp (by assumption), h⟩
  · cases h

theorem guardInput_of_le {s : State} (h : s.op.ilen ≤ s.params.bufMax) (k : StepOutcome) : guardInput s k = k := by
  simp [guardInput, h]

theorem guardToken_of_le {s : State} (h : s.op.tlen ≤ s.params.tokMax) (k : StepOutcome) : guardToken s k = k := by
  simp [guardToken, h]

theorem guardVersions_of_le {s : State} (h : s.op.nver ≤ s.params.nverMax) (k : StepOutcome) :
    guardVersions s k = k := by
  simp [guardVersions, h]

/-- The codes of R22 are legal. -/
theorem errorStatus_legal (e : ErrorKind) : statusLegal (errorStatus e) = true := by
  cases e <;> decide

theorem successStatus_legal : statusLegal successStatus = true := by decide

/-- The unspecified values fit their registers (R9). -/
theorem freeResults_bounds (s : State) :
    (freeResults s).rCur < 2 ^ s.params.cw ∧ (freeResults s).hTokOff < 2 ^ s.params.cw ∧
    (freeResults s).hPayOff < 2 ^ s.params.cw ∧ (freeResults s).hPayLen < 2 ^ s.params.cw ∧
    (freeResults s).nver < 2 ^ s.params.cw ∧ (freeResults s).olen < 2 ^ s.params.cw ∧
    (freeResults s).vers.length ≤ s.params.nverMax := by
  have h : ∀ n, n % 2 ^ s.params.cw < 2 ^ s.params.cw := fun n => Nat.mod_lt _ (by positivity)
  exact ⟨h _, h _, h _, h _, h _, h _, by simp [freeResults]⟩

/-! ### The primitives on a buffer whose octets are known -/

section known
variable {s : State} {b : List Octet} (hb : HoldsInput s b)
include hb

theorem HoldsInput.skip_eq (cur n : Nat) :
    skip s cur n = if b.length < cur + n then .error (.raised .bufferTooShort cur) else .ok (cur + n) := by
  simp [skip, hb.ilen]

theorem HoldsInput.readInput_eq (a n : Nat) (h : a + n ≤ b.length) :
    readInput s a n = .ok ((b.drop a).take n) := by
  simp [readInput, Memory.readRange_sub s.ibuf b b.length hb.octets a n h]

theorem HoldsInput.take_eq (cur n : Nat) :
    take s cur n =
      if b.length < cur + n then .error (.raised .bufferTooShort cur)
      else .ok ((b.drop cur).take n, cur + n) := by
  rw [take, hb.skip_eq]
  by_cases h : b.length < cur + n
  · simp [h]
  · simp [h, hb.readInput_eq cur n (by omega)]

theorem HoldsInput.peek_eq (cur k : Nat) :
    peek s cur k =
      match b[cur + k]? with
      | some o => .ok o
      | none => .error (.raised .bufferTooShort cur) := by
  have hread := ((Memory.readRange_eq_some _ _ _ _).mp hb.octets).2
  simp only [peek, hb.ilen]
  split
  · rw [List.getElem?_eq_none (by omega)]
  · rename_i h
    have := hread (cur + k) (by omega)
    rw [Nat.zero_add] at this
    simp [this, List.getElem?_eq_getElem (show cur + k < b.length by omega)]

/-- `Take` of the next field of a buffer split at the cursor. -/
theorem HoldsInput.take_field (x f y : List Octet) (h : b = x ++ f ++ y) :
    take s x.length f.length = .ok (f, x.length + f.length) := by
  rw [hb.take_eq, if_neg (by simp [h])]
  simp [h]

/-- `Peek` of the next field of a buffer split at the cursor. -/
theorem HoldsInput.peek_field (x : List Octet) (o : Octet) (y : List Octet) (h : b = x ++ o :: y) :
    peek s x.length 0 = .ok o := by
  rw [hb.peek_eq]
  simp [h]

/-- `ReadVarInt` of a well-framed VarInt field at the cursor (R138). -/
theorem HoldsInput.readVarInt_field (x f y : List Octet) (h : b = x ++ f ++ y) (hf : isVarIntField f = true) :
    readVarInt s x.length = .ok ⟨varIntValue f, f.length, x.length + f.length⟩ := by
  cases f with
  | nil => simp [isVarIntField] at hf
  | cons o f =>
    have hw : varIntWidth o = (o :: f).length := by simpa [isVarIntField] using (beq_iff_eq.mp hf).symm
    rw [readVarInt, hb.peek_field x o (f ++ y) (by simp [h])]
    simp only [hw, hb.take_field x (o :: f) y h]

/-- `ReadPN` of a well-framed packet number field at the cursor (R158). -/
theorem HoldsInput.readPn_field (x f y : List Octet) (h : b = x ++ f ++ y) (hf : isPnField f = true) :
    readPn s x.length = .ok ⟨pnValue f, f.length, x.length + f.length⟩ := by
  cases f with
  | nil => simp [isPnField] at hf
  | cons o f =>
    have hw : pnLen o = (o :: f).length := by simpa [isPnField] using (beq_iff_eq.mp hf).symm
    rw [readPn, hb.peek_field x o (f ++ y) (by simp [h])]
    simp only [hw, hb.take_field x (o :: f) y h]

/-- `ReadCIDs` of a CIL octet and its identifiers at the cursor (R172). -/
theorem HoldsInput.readCids_field (x dcid scid y : List Octet) (h : b = x ++ idOctets dcid scid ++ y)
    (hd : dcid.length ≤ 15) (hs : scid.length ≤ 15) :
    readCids s x.length =
      .ok ⟨dcid.length, scid.length, dcid, scid, x.length + (idOctets dcid scid).length⟩ := by
  have h1 := hb.take_field x [BitVec.ofNat 8 (16 * dcid.length + scid.length)] (dcid ++ scid ++ y)
    (by simp [h, idOctets])
  have h2 := hb.take_field (x ++ [BitVec.ofNat 8 (16 * dcid.length + scid.length)]) dcid (scid ++ y)
    (by simp [h, idOctets])
  have h3 := hb.take_field (x ++ [BitVec.ofNat 8 (16 * dcid.length + scid.length)] ++ dcid) scid y
    (by simp [h, idOctets])
  have hbe : be [BitVec.ofNat 8 (16 * dcid.length + scid.length)] = 16 * dcid.length + scid.length := by
    simp [be]
    omega
  have hhi : slice (16 * dcid.length + scid.length) 7 4 = dcid.length := by
    simp [slice]
    omega
  have hlo : slice (16 * dcid.length + scid.length) 3 0 = scid.length := by
    simp [slice]
    omega
  simp only [List.length_append, List.length_cons, List.length_nil, Nat.zero_add] at h1 h2 h3
  simp only [readCids, h1, hbe, hhi, hlo, readIds, h2, h3, idOctets, List.length_cons, List.length_append]
  simp only [Except.ok.injEq, Ids.mk.injEq, true_and]
  omega

end known

end Sys2Proof.Machine
end

