-- ==== Sys2Proof/Laws/PerInstr.lean ====
section
/-! SUPPORT. Statements made of every instruction, one lemma per constructor. -/

namespace Sys2Proof.Laws

/-- A field of an octet below fixed high bits leaves them as they are. -/
theorem octet_matches {k v pattern : Nat} (row : Row) (table : ∀ v : Fin k, row.matches (pattern ||| v.val) = true)
    (h : v < k) : row.matches (pattern ||| v) = true := table ⟨v, h⟩

end Sys2Proof.Laws

namespace Sys2Proof.Laws.EncodeInRow

/-- The word of a well-formed instruction has its table row's width and fixed bits (30_encoding.md R107). -/
def Statement (i : Instr) : Prop := i.wellFormed = true → (rowOf i).matches (encode i) = true

theorem viWid : Statement .viWid := fun _ => rfl
theorem viDec : Statement .viDec := fun _ => rfl
theorem viEnc : Statement .viEnc := fun _ => rfl
theorem pnLen : Statement .pnLen := fun _ => rfl
theorem pnDec : Statement .pnDec := fun _ => rfl
theorem pnEnc : Statement .pnEnc := fun _ => rfl
theorem lhDec : Statement .lhDec := fun _ => rfl
theorem lhEnc : Statement .lhEnc := fun _ => rfl
theorem ipDec : Statement .ipDec := fun _ => rfl
theorem ipEnc : Statement .ipEnc := fun _ => rfl
theorem vnDec : Statement .vnDec := fun _ => rfl
theorem vnEnc : Statement .vnEnc := fun _ => rfl
theorem shDec : Statement .shDec := fun _ => rfl
theorem shEnc : Statement .shEnc := fun _ => rfl
theorem pkParse : Statement .pkParse := fun _ => rfl
theorem pkBuild : Statement .pkBuild := fun _ => rfl

theorem varintW1 (v : Nat) : Statement (.varintW1 v) := fun h => by
  have := octet_matches (k := 64) (v := v) (pattern := 0) (rowOf (.varintW1 0)) (by decide) (of_decide_eq_true h)
  rwa [Nat.zero_or] at this

theorem varintW2 (v : Nat) : Statement (.varintW2 v) := fun h =>
  octet_matches (k := 64) (pattern := 0x40) (rowOf (.varintW2 0)) (by decide) (of_decide_eq_true h)

theorem varintW4 (v : Nat) : Statement (.varintW4 v) := fun h =>
  octet_matches (k := 64) (pattern := 0x80) (rowOf (.varintW4 0)) (by decide) (of_decide_eq_true h)

theorem varintW8 (v : Nat) : Statement (.varintW8 v) := fun h =>
  octet_matches (k := 64) (pattern := 0xC0) (rowOf (.varintW8 0)) (by decide) (of_decide_eq_true h)

theorem pnW1 (v : Nat) : Statement (.pnW1 v) := fun h => by
  have := octet_matches (k := 128) (v := v) (pattern := 0) (rowOf (.pnW1 0)) (by decide) (of_decide_eq_true h)
  rwa [Nat.zero_or] at this

theorem pnW2 (v : Nat) : Statement (.pnW2 v) := fun h =>
  octet_matches (k := 64) (pattern := 0x80) (rowOf (.pnW2 0)) (by decide) (of_decide_eq_true h)

theorem pnW4 (v : Nat) : Statement (.pnW4 v) := fun h =>
  octet_matches (k := 64) (pattern := 0xC0) (rowOf (.pnW4 0)) (by decide) (of_decide_eq_true h)

theorem cilOctet (dcil scil : Nat) : Statement (.cilOctet dcil scil) := fun h => by
  have table : ∀ d c : Fin 16, (rowOf (.cilOctet 0 0)).matches (d.val <<< 4 ||| c.val) = true := by decide
  obtain ⟨hd, hc⟩ : dcil < 16 ∧ scil < 16 := by simpa [Instr.wellFormed] using h
  exact table ⟨dcil, hd⟩ ⟨scil, hc⟩

theorem pktShort (x : Nat) : Statement (.pktShort x) := fun h => by
  have := octet_matches (k := 128) (v := x) (pattern := 0) (rowOf (.pktShort 0)) (by decide) (of_decide_eq_true h)
  rwa [Nat.zero_or] at this

theorem pktLong (t : Nat) : Statement (.pktLong t) := fun h =>
  octet_matches (k := 128) (pattern := 0x80) (rowOf (.pktLong 0)) (by decide) (of_decide_eq_true h)

end Sys2Proof.Laws.EncodeInRow
end

