-- ==== Sys2Proof/Laws/Steps.lean ====
section
/-! SUPPORT. What each composite step of a parser or builder can do, said once: when it answers, what it answers and
where the cursor stands; when it does not, which error it raises (R138, R158, R172, R186, R188, R190; R134, R156). -/

namespace Sys2Proof.Machine

/-- A step's error is one of the kinds `K`, raised inside the buffer, or the read of an octet without a value. -/
def StopsWith (s : State) (K : ErrorKind → Prop) (x : Stop) : Prop :=
  (∃ e cur, x = .raised e cur ∧ K e ∧ cur ≤ s.op.ilen) ∨ x = .unwritten .unwrittenInput

theorem StopsWith.mono {s : State} {K L : ErrorKind → Prop} {x : Stop} (h : StopsWith s K x) (hkl : ∀ e, K e → L e) :
    StopsWith s L x := by
  rcases h with ⟨e, cur, rfl, hk, hc⟩ | rfl
  · exact .inl ⟨e, cur, rfl, hkl e hk, hc⟩
  · exact .inr rfl

theorem skip_stops {s : State} {cur n : Nat} {x : Stop} (hc : cur ≤ s.op.ilen) (h : skip s cur n = .error x) :
    StopsWith s (· = .bufferTooShort) x :=
  .inl ⟨_, cur, (skip_error h).1, rfl, hc⟩

theorem take_stops {s : State} {cur n : Nat} {x : Stop} (hc : cur ≤ s.op.ilen) (h : take s cur n = .error x) :
    StopsWith s (· = .bufferTooShort) x := by
  rcases take_error h with ⟨rfl, _⟩ | ⟨rfl, _⟩
  · exact .inl ⟨_, cur, rfl, rfl, hc⟩
  · exact .inr rfl

theorem peek_stops {s : State} {cur k : Nat} {x : Stop} (hc : cur ≤ s.op.ilen) (h : peek s cur k = .error x) :
    StopsWith s (· = .bufferTooShort) x := by
  rcases peek_error h with ⟨rfl, _⟩ | ⟨rfl, _⟩
  · exact .inl ⟨_, cur, rfl, rfl, hc⟩
  · exact .inr rfl

theorem varIntValue_lt (b : List Octet) : varIntValue b < 2 ^ (8 * b.length - 2) := by
  rw [varIntValue, and_ones]
  exact Nat.mod_lt _ (by positivity)

/-- A VarInt read inside a header is below `2^62` and 1 to 8 octets wide (R138). -/
theorem readVarInt_ok {s : State} {cur : Nat} {v : VarIntItem} (h : readVarInt s cur = .ok v) :
    v.cur = cur + v.width ∧ v.cur ≤ s.op.ilen ∧ v.width ∈ [1, 2, 4, 8] ∧ v.value < 2 ^ 62 := by
  simp only [readVarInt] at h
  split at h
  · cases h
  · rename_i o _
    split at h
    · cases h
    · rename_i b c hb
      cases h
      obtain ⟨h1, h2, h3, _⟩ := take_ok hb
      refine ⟨h1, h2, by simpa using varIntWidth_cases o, lt_of_lt_of_le (varIntValue_lt b) ?_⟩
      refine Nat.pow_le_pow_right (by decide) ?_
      rcases varIntWidth_cases o with hw | hw | hw | hw <;> omega

theorem readVarInt_stops {s : State} {cur : Nat} {x : Stop} (hc : cur ≤ s.op.ilen) (h : readVarInt s cur = .error x) :
    StopsWith s (· = .bufferTooShort) x := by
  simp only [readVarInt] at h
  split at h
  · rename_i e he
    cases h
    exact peek_stops hc he
  · split at h
    · rename_i e he
      cases h
      exact take_stops hc he
    · cases h

/-- A packet number read inside a header is 1, 2 or 4 octets wide (R158). -/
theorem readPn_ok {s : State} {cur : Nat} {v : PnItem} (h : readPn s cur = .ok v) :
    v.cur = cur + v.width ∧ v.cur ≤ s.op.ilen ∧ v.width ∈ [1, 2, 4] := by
  simp only [readPn] at h
  split at h
  · cases h
  · rename_i o _
    split at h
    · cases h
    · rename_i b c hb
      cases h
      obtain ⟨h1, h2, _, _⟩ := take_ok hb
      exact ⟨h1, h2, by simpa using pnLen_cases o⟩

theorem readPn_stops {s : State} {cur : Nat} {x : Stop} (hc : cur ≤ s.op.ilen) (h : readPn s cur = .error x) :
    StopsWith s (· = .bufferTooShort) x := by
  simp only [readPn] at h
  split at h
  · rename_i e he
    cases h
    exact peek_stops hc he
  · split at h
    · rename_i e he
      cases h
      exact take_stops hc he
    · cases h

theorem readIds_ok {s : State} {cur d c : Nat} {ids : Ids} (h : readIds s cur d c = .ok ids) :
    ids.dcil = d ∧ ids.scil = c ∧ ids.dcid.length = d ∧ ids.scid.length = c ∧ ids.cur = cur + d + c ∧
      ids.cur ≤ s.op.ilen := by
  simp only [readIds] at h
  split at h
  · cases h
  · rename_i b1 c1 h1
    split at h
    · cases h
    · rename_i b2 c2 h2
      cases h
      obtain ⟨e1, _, l1, _⟩ := take_ok h1
      obtain ⟨e2, g2, l2, _⟩ := take_ok h2
      exact ⟨rfl, rfl, l1, l2, by simp [e2, e1], g2⟩

theorem readIds_stops {s : State} {cur d c : Nat} {x : Stop} (hc : cur ≤ s.op.ilen)
    (h : readIds s cur d c = .error x) : StopsWith s (· = .bufferTooShort) x := by
  simp only [readIds] at h
  split at h
  · rename_i e he
    cases h
    exact take_stops hc he
  · rename_i b1 c1 h1
    split at h
    · rename_i e he
      cases h
      exact take_stops (take_ok h1).2.1 he
    · cases h

/-- The lengths read are nibbles and the identifiers have them (R172). -/
theorem readCids_ok {s : State} {cur : Nat} {ids : Ids} (h : readCids s cur = .ok ids) :
    ids.dcil < 16 ∧ ids.scil < 16 ∧ ids.dcid.length = ids.dcil ∧ ids.scid.length = ids.scil ∧
      ids.cur = cur + 1 + ids.dcil + ids.scil ∧ ids.cur ≤ s.op.ilen := by
  simp only [readCids] at h
  split at h
  · cases h
  · rename_i b c hb
    obtain ⟨e, _, _, _⟩ := take_ok hb
    obtain ⟨h1, h2, h3, h4, h5, h6⟩ := readIds_ok h
    refine ⟨?_, ?_, by rw [h1, h3], by rw [h2, h4], by rw [h5, e, h1, h2], h6⟩
    · rw [h1]
      exact slice_lt _ _ _
    · rw [h2]
      exact slice_lt _ _ _

theorem readCids_stops {s : State} {cur : Nat} {x : Stop} (hc : cur ≤ s.op.ilen) (h : readCids s cur = .error x) :
    StopsWith s (· = .bufferTooShort) x := by
  simp only [readCids] at h
  split at h
  · rename_i e he
    cases h
    exact take_stops hc he
  · rename_i b c hb
    exact readIds_stops (take_ok hb).2.1 h

theorem longRegion_ok {s : State} {len a z : Nat} {pn : PnItem} (h : longRegion s len pn = .ok (a, z)) :
    a = pn.cur ∧ z = a + (len - pn.width) ∧ pn.width ≤ len ∧ z ≤ s.op.ilen := by
  simp only [longRegion] at h
  split at h
  · cases h
  · split at h
    · cases h
    · cases h
      omega

/-- What `LongCommon()` guarantees when it answers (R186): the region follows the packet number, lies in the buffer
and has the octets `length` counts beyond the packet number. -/
theorem longCommon_ok {s : State} {f : LongFields} (h : longCommon s = .ok f) :
    f.regionStart ≤ f.regionEnd ∧ f.regionEnd ≤ s.op.ilen ∧ f.regionEnd = f.regionStart + (f.len - f.pn.width) ∧
      f.pn.width ≤ f.len ∧ f.len < 2 ^ 62 ∧ f.pn.width ∈ [1, 2, 4] ∧ f.ids.dcil < 16 ∧ f.ids.scil < 16 ∧
      f.ids.dcid.length = f.ids.dcil ∧ f.ids.scid.length = f.ids.scil ∧ 8 ≤ f.regionStart := by
  simp only [longCommon] at h
  split at h
  · cases h
  rename_i o0 c1 h1
  split at h
  · cases h
  rename_i ver c2 h2
  split at h
  · cases h
  rename_i ids h3
  split at h
  · cases h
  rename_i len h4
  split at h
  · cases h
  rename_i pn h5
  split at h
  · cases h
  rename_i a z h6
  cases h
  obtain ⟨e1, _, _, _⟩ := take_ok h1
  obtain ⟨e2, _, _, _⟩ := take_ok h2
  obtain ⟨k1, k2, k3, k4, k5, _⟩ := readCids_ok h3
  obtain ⟨v1, _, v3, v4⟩ := readVarInt_ok h4
  obtain ⟨p1, _, p3⟩ := readPn_ok h5
  obtain ⟨r1, r2, r3, r4⟩ := longRegion_ok h6
  simp only [List.mem_cons, List.not_mem_nil, or_false] at v3
  refine ⟨by dsimp only; omega, r4, r2, r3, v4, p3, k1, k2, k3, k4, ?_⟩
  simp only [List.mem_cons, List.not_mem_nil, or_false] at p3
  dsimp only
  omega

/-- `LongCommon()` raises only `BufferTooShort` and `UnderflowLength` (R182, R260). -/
theorem longCommon_stops {s : State} {x : Stop} (h : longCommon s = .error x) :
    StopsWith s (fun e => e = .bufferTooShort ∨ e = .underflowLength) x := by
  have short : ∀ e, e = ErrorKind.bufferTooShort → e = .bufferTooShort ∨ e = .underflowLength := fun _ => .inl
  simp only [longCommon] at h
  split at h
  · rename_i e he
    cases h
    exact (take_stops (Nat.zero_le _) he).mono short
  rename_i o0 c1 h1
  split at h
  · rename_i e he
    cases h
    exact (take_stops (take_ok h1).2.1 he).mono short
  rename_i ver c2 h2
  split at h
  · rename_i e he
    cases h
    exact (readCids_stops (take_ok h2).2.1 he).mono short
  rename_i ids h3
  split at h
  · rename_i e he
    cases h
    exact (readVarInt_stops (readCids_ok h3).2.2.2.2.2 he).mono short
  rename_i len h4
  split at h
  · rename_i e he
    cases h
    exact (readPn_stops (readVarInt_ok h4).2.1 he).mono short
  rename_i pn h5
  split at h
  · rename_i e he
    cases h
    have hc := (readPn_ok h5).2.1
    simp only [longRegion] at he
    split at he
    · cases he
      exact .inl ⟨_, _, rfl, .inr rfl, hc⟩
    · split at he
      · cases he
        exact .inl ⟨_, _, rfl, .inl rfl, hc⟩
      · cases he
  · cases h

theorem skipR_ok {s : State} {cur n e c : Nat} (h : skipR s cur n e = .ok c) : c = cur + n ∧ c ≤ e ∧ c ≤ s.op.ilen := by
  simp only [skipR] at h
  split at h
  · cases h
  · split at h
    · cases h
    · cases h
      omega

theorem skipR_stops {s : State} {cur n e : Nat} {x : Stop} (hc : cur ≤ s.op.ilen) (h : skipR s cur n e = .error x) :
    StopsWith s (fun e => e = .bufferTooShort ∨ e = .underflowLength) x := by
  simp only [skipR] at h
  split at h
  · cases h
    exact .inl ⟨_, cur, rfl, .inl rfl, hc⟩
  · split at h
    · cases h
      exact .inl ⟨_, cur, rfl, .inr rfl, hc⟩
    · cases h

theorem takeR_ok {s : State} {cur n e c : Nat} {b : List Octet} (h : takeR s cur n e = .ok (b, c)) :
    c = cur + n ∧ c ≤ e ∧ c ≤ s.op.ilen ∧ b.length = n ∧ Memory.readRange s.ibuf cur n = some b := by
  simp only [takeR] at h
  split at h
  · cases h
  · rename_i c' hc
    split at h
    · cases h
    · rename_i b' hb
      cases h
      obtain ⟨h1, h2, h3⟩ := skipR_ok hc
      exact ⟨h1, h2, h3, Memory.readRange_length _ _ _ _ (readInput_ok hb), readInput_ok hb⟩

theorem takeR_stops {s : State} {cur n e : Nat} {x : Stop} (hc : cur ≤ s.op.ilen) (h : takeR s cur n e = .error x) :
    StopsWith s (fun e => e = .bufferTooShort ∨ e = .underflowLength) x := by
  simp only [takeR] at h
  split at h
  · rename_i y hy
    cases h
    exact skipR_stops hc hy
  · split at h
    · rename_i y hy
      cases h
      exact .inr (readInput_error hy).1
    · cases h

/-- A region-limited VarInt stays inside the region (R188). -/
theorem readVarIntR_ok {s : State} {cur e : Nat} {v : VarIntItem} (h : readVarIntR s cur e = .ok v) :
    v.cur = cur + v.width ∧ v.cur ≤ e ∧ v.cur ≤ s.op.ilen ∧ v.width ∈ [1, 2, 4, 8] ∧ v.value < 2 ^ 62 := by
  simp only [readVarIntR] at h
  split at h
  · cases h
  · rename_i o c _
    split at h
    · cases h
    · rename_i b c' hb
      cases h
      obtain ⟨h1, h2, h3, h4, _⟩ := takeR_ok hb
      refine ⟨h1, h2, h3, by simpa using varIntWidth_cases _, lt_of_lt_of_le (varIntValue_lt b) ?_⟩
      refine Nat.pow_le_pow_right (by decide) ?_
      rcases varIntWidth_cases (BitVec.ofNat 8 (be o)) with hw | hw | hw | hw <;> omega

theorem readVarIntR_stops {s : State} {cur e : Nat} {x : Stop} (hc : cur ≤ s.op.ilen)
    (h : readVarIntR s cur e = .error x) :
    StopsWith s (fun e => e = .bufferTooShort ∨ e = .underflowLength) x := by
  simp only [readVarIntR] at h
  split at h
  · rename_i y hy
    cases h
    exact takeR_stops hc hy
  · split at h
    · rename_i y hy
      cases h
      exact takeR_stops hc hy
    · cases h

/-- The version loop adds at most one member for each 4 octets it consumes (R191). -/
theorem readVersions_ok {s : State} {fuel cur c : Nat} {vs ws : List Version}
    (h : readVersions s fuel cur vs = .ok (ws, c)) (hc : cur ≤ s.op.ilen) :
    cur ≤ c ∧ c ≤ s.op.ilen ∧ 4 * ws.length ≤ 4 * vs.length + (c - cur) := by
  induction fuel generalizing cur vs with
  | zero =>
    cases h
    omega
  | succ fuel ih =>
    simp only [readVersions] at h
    split at h
    · split at h
      · cases h
      · rename_i b c' hb
        obtain ⟨h1, h2, _, _⟩ := take_ok hb
        obtain ⟨g1, g2, g3⟩ := ih h h2
        have := insertVersion_length (BitVec.ofNat 32 (be b)) vs
        omega
    · cases h
      omega

theorem readVersions_ascending {s : State} {fuel cur c : Nat} {vs ws : List Version}
    (h : readVersions s fuel cur vs = .ok (ws, c)) (hv : vs.Pairwise (· < ·)) : ws.Pairwise (· < ·) := by
  induction fuel generalizing cur vs with
  | zero =>
    cases h
    exact hv
  | succ fuel ih =>
    simp only [readVersions] at h
    split at h
    · split at h
      · cases h
      · exact ih h (insertVersion_ascending _ _ hv)
    · cases h
      exact hv

theorem readVersions_stops {s : State} {fuel cur : Nat} {vs : List Version} {x : Stop} (hc : cur ≤ s.op.ilen)
    (h : readVersions s fuel cur vs = .error x) : StopsWith s (· = .bufferTooShort) x := by
  induction fuel generalizing cur vs with
  | zero => cases h
  | succ fuel ih =>
    simp only [readVersions] at h
    split at h
    · split at h
      · rename_i e he
        cases h
        exact take_stops hc he
      · rename_i b c' hb
        exact ih (take_ok hb).2.1 h
    · cases h

/-- The four widths of `EncVarInt`, and nothing above `2^62 - 1` (R134). -/
theorem encVarInt_ok {v : Nat} {b : List Octet} (h : encVarInt v = .ok b) :
    v ≤ 2 ^ 62 - 1 ∧ b.length = varIntLength v ∧ b.length ∈ [1, 2, 4, 8] := by
  simp only [encVarInt] at h
  simp only [varIntLength]
  split at h
  · cases h
    simp [*]
    omega
  split at h
  · cases h
    simp [*]
    omega
  split at h
  · cases h
    simp [*]
    omega
  split at h
  · cases h
    simp [*]
    omega
  · cases h

theorem encVarInt_of_le {v : Nat} (h : v ≤ 2 ^ 62 - 1) : ∃ b, encVarInt v = .ok b := by
  simp only [encVarInt]
  split
  · exact ⟨_, rfl⟩
  split
  · exact ⟨_, rfl⟩
  split
  · exact ⟨_, rfl⟩
  exact ⟨_, rfl⟩

theorem encVarInt_error {v : Nat} {e : ErrorKind} (h : encVarInt v = .error e) :
    e = .valueTooLarge ∧ 2 ^ 62 - 1 < v := by
  simp only [encVarInt] at h
  repeat' split at h
  all_goals cases h
  exact ⟨rfl, by omega⟩

theorem encPn_ok {v w : Nat} {b : List Octet} (h : encPn v w = .ok b) :
    b.length ∈ [1, 2, 4] ∧ pnWidth v w = .ok b.length := by
  simp only [encPn] at h
  split at h
  · cases h
  · rename_i w' hw
    have hw' : w' = 1 ∨ w' = 2 ∨ w' = 4 := by
      simp only [pnWidth] at hw
      repeat' split at hw
      all_goals first
        | (cases hw; done)
        | (cases hw; simp_all)
    split at h
    · split at h
      · cases h
      · cases h
        simp_all
    · split at h
      · split at h
        · cases h
        · cases h
          simp_all
      · split at h
        · cases h
        · cases h
          have : w' = 4 := by omega
          simp_all

theorem encPn_error {v w : Nat} {e : ErrorKind} (h : encPn v w = .error e) :
    e = .invalidLength ∨ e = .valueTooLarge := by
  simp only [encPn, pnWidth] at h
  repeat' split at h
  all_goals first
    | (cases h; simp)
    | (rename_i hw; repeat' split at hw
       all_goals simp_all)

end Sys2Proof.Machine
end

