-- ==== Sys2Proof/Tests/Slice0.lean ====
section
/-! SUPPORT. Tests. Expected results are the spec's: the source's worked examples and the derived vectors of
95_test_vectors.md, and the encoding tables of 30_encoding.md. Then, for every obligation with hypotheses,
concrete values that meet them, clause by clause, at boundaries where there are any. -/

namespace Sys2Proof.Tests

open Sys2Proof.Machine

/-! ### States and observations -/

/-- Parameters that admit the vectors, with `INITIAL_TYPE = 0x7F` as 95_test_vectors.md takes it. -/
def params : Config.Params := ⟨128, 64, 32, 256, 9, 0x7F⟩

/-- An instance with those parameters, fresh from reset. -/
def s0 : State := { State.reset with params := params }

/-- `s0` with a buffer to parse or a payload to frame. -/
def withInput (b : List Octet) : State := s0.loadInput b

/-- A state whose next step reads a wire item at `cur`. -/
def atWire (f : WireFormat) (b : List Octet) (cur : Nat) : State := { withInput b with fetch := .wire f, cur := cur }

/-- A connection-ID register with the given first octets and `0xEE` after them. -/
def cid (b : List Octet) : Vector Octet 15 := writeCid b (Vector.replicate 15 0xEE)

/-- Numbers observed in the next state, if there is one. -/
def see (o : StepOutcome) (f : State → List Nat) : Option (List Nat) :=
  match o with
  | .next t => some (f t)
  | _ => none

/-- `STATUS` after an instruction. -/
def statusAfter (i : Instr) (s : State) : Option (List Nat) := see (exec i s) (fun t => [t.res.status.toNat])

/-- `STATUS`, `R_VAL`, `R_WID`, `R_CUR` after an instruction. -/
def valueAfter (i : Instr) (s : State) : Option (List Nat) :=
  see (exec i s) (fun t => [t.res.status.toNat, t.res.rVal.toNat, t.res.rWid.toNat, t.res.rCur])

/-- `OBUF[0 .. OLEN)` after an instruction, as far as it holds values. -/
def outputAfter (i : Instr) (s : State) : Option (List Nat) :=
  see (exec i s) (fun t => ((Memory.readRange t.obuf 0 t.res.olen).getD []).map (fun o => o.toNat))

/-- `STATUS`, `H_FORM`, `H_TYPE`, `H_VER`, `H_DCIL`, `H_SCIL`, `H_LEN`, `H_PN`, `H_PNW`, `H_PAYOFF`, `H_PAYLEN`,
`R_CUR`. -/
def longFields (t : State) : List Nat :=
  [t.res.status.toNat, t.res.hForm.toNat, t.res.hType.toNat, t.res.hVer.toNat, t.res.hDcil.toNat,
   t.res.hScil.toNat, t.res.hLen.toNat, t.res.hPn.toNat, t.res.hPnw.toNat, t.res.hPayOff, t.res.hPayLen, t.res.rCur]

/-- `P1` of 95_test_vectors.md 2.3. -/
def p1 : List Octet :=
  [0xFD, 0, 0, 0, 1, 0x53, 0xA1, 0xA2, 0xA3, 0xA4, 0xA5, 0xB1, 0xB2, 0xB3, 5, 0x81, 2, 0xDE, 0xAD, 0xBE]

/-- `P2` of 95_test_vectors.md 2.5. -/
def p2 : List Octet :=
  [0xFF, 0, 0, 0, 1, 0x80, 1, 2, 3, 4, 5, 6, 7, 8, 9, 0x25, 3, 0xAA, 0xBB, 0xCC, 0x10, 0x11, 0x12, 0x13]

/-- `P3` of 95_test_vectors.md 2.6. -/
def p3 : List Octet :=
  [0x80, 0, 0, 0, 0, 0x44, 0xD1, 0xD2, 0xD3, 0xD4, 0x51, 0x52, 0x53, 0x54, 0, 0, 0, 1, 0xFF, 0, 0, 0x0D, 0, 0, 0, 1]

/-- The operands of `P1` (2.4). -/
def p1Operands : State :=
  let s := withInput [0xDE, 0xAD, 0xBE]
  { s with op := { s.op with
      hType := 0x7D, hVer := 1, hDcil := 5, hScil := 3, hDcid := cid [0xA1, 0xA2, 0xA3, 0xA4, 0xA5]
      hScid := cid [0xB1, 0xB2, 0xB3], hPn := 0x102, hPnw := 2 } }

/-- The operands of `P2` (2.5), with the form `PK_BUILD` needs. -/
def p2Operands : State :=
  let s := (withInput [0x10, 0x11, 0x12, 0x13]).loadToken [0xAA, 0xBB, 0xCC]
  { s with op := { s.op with
      hForm := 3, hType := 0x7F, hVer := 1, hDcil := 8, hDcid := cid [1, 2, 3, 4, 5, 6, 7, 8], hPn := 0x25
      hPnw := 1 } }

/-- The operands of `P3` (2.6): the repeated version is an operand too. -/
def p3Operands : State :=
  { s0 with op := { s0.op with
      hForm := 2, hDcil := 4, hScil := 4, hDcid := cid [0xD1, 0xD2, 0xD3, 0xD4]
      hScid := cid [0x51, 0x52, 0x53, 0x54], nver := 3, vers := [1, 0xFF00000D, 1] } }

/-! ### WellFormed refuses a field that does not fit (R94 to R97) -/

theorem test_wellFormed_varintW1 : (Instr.varintW1 64).wellFormed = false := by decide
theorem test_wellFormed_varintW2 : (Instr.varintW2 64).wellFormed = false := by decide
theorem test_wellFormed_varintW4 : (Instr.varintW4 64).wellFormed = false := by decide
theorem test_wellFormed_varintW8 : (Instr.varintW8 64).wellFormed = false := by decide
theorem test_wellFormed_pnW1 : (Instr.pnW1 128).wellFormed = false := by decide
theorem test_wellFormed_pnW2 : (Instr.pnW2 64).wellFormed = false := by decide
theorem test_wellFormed_pnW4 : (Instr.pnW4 64).wellFormed = false := by decide
theorem test_wellFormed_cilOctet_dcil : (Instr.cilOctet 16 0).wellFormed = false := by decide
theorem test_wellFormed_cilOctet_scil : (Instr.cilOctet 0 16).wellFormed = false := by decide
theorem test_wellFormed_pktShort : (Instr.pktShort 128).wellFormed = false := by decide
theorem test_wellFormed_pktLong : (Instr.pktLong 128).wellFormed = false := by decide

/-- R34: a value whose packet number does not fit its width, and the short variant, are not well-formed. -/
theorem test_wellFormed_packetHeader :
    (PacketHeader.long ⟨0, 1, [], [], ⟨128, 1⟩, []⟩).wellFormed params = false ∧
    (PacketHeader.long ⟨0, 1, [], [], ⟨127, 1⟩, []⟩).wellFormed params = true ∧
    PacketHeader.short.wellFormed params = false := by decide

/-- R34, R28: a list that is not a set's presentation is no version set. -/
theorem test_wellFormed_versions :
    (PacketHeader.versionNegotiation [] [] [1, 1]).wellFormed params = false ∧
    (PacketHeader.versionNegotiation [] [] [2, 1]).wellFormed params = false ∧
    (PacketHeader.versionNegotiation [] [] [1, 2]).wellFormed params = true := by decide

/-- R6: the tests' parameters are an instance; one with too small an `OBUF` is none. -/
theorem test_params_legal : params.Legal ∧ ¬ (Config.Params.mk 128 64 32 247 9 0x7F).Legal := by decide

/-! ### Decoding of words written out from the encodings -/

/-- The command codes of R92 as 4-bit words. -/
theorem test_decode_commands :
    decodeWord .command 0b0000 = .ok .viWid ∧ decodeWord .command 0b0001 = .ok .viDec ∧
    decodeWord .command 0b0010 = .ok .viEnc ∧ decodeWord .command 0b0011 = .ok .pnLen ∧
    decodeWord .command 0b0100 = .ok .pnDec ∧ decodeWord .command 0b0101 = .ok .pnEnc ∧
    decodeWord .command 0b0110 = .ok .lhDec ∧ decodeWord .command 0b0111 = .ok .lhEnc ∧
    decodeWord .command 0b1000 = .ok .ipDec ∧ decodeWord .command 0b1001 = .ok .ipEnc ∧
    decodeWord .command 0b1010 = .ok .vnDec ∧ decodeWord .command 0b1011 = .ok .vnEnc ∧
    decodeWord .command 0b1100 = .ok .shDec ∧ decodeWord .command 0b1101 = .ok .shEnc ∧
    decodeWord .command 0b1110 = .ok .pkParse ∧ decodeWord .command 0b1111 = .ok .pkBuild := by decide

/-- A command is one 4-bit word (R90), an item's first word one octet (R104). -/
theorem test_decode_refuses_wide_words :
    decodeWord .command 16 = .error .notACommandCode ∧ decodeWord (.wire .varint) 256 = .error .notAnOctet := by decide

/-- R94: the first octets of the source's VarInt examples `25`, `7B BD`, `9D 7F 3E 7D`, `C2 19 ...`. -/
theorem test_decode_varint :
    decodeWord (.wire .varint) 0b00100101 = .ok (.varintW1 37) ∧
    decodeWord (.wire .varint) 0b01111011 = .ok (.varintW2 59) ∧
    decodeWord (.wire .varint) 0b10011101 = .ok (.varintW4 29) ∧
    decodeWord (.wire .varint) 0b11000010 = .ok (.varintW8 2) := by decide

/-- R95: `0vvvvvvv`, `10vvvvvv`, `11vvvvvv`; the second bit is free in the 1-octet form. -/
theorem test_decode_packetNumber :
    decodeWord (.wire .packetNumber) 0b01111111 = .ok (.pnW1 127) ∧
    decodeWord (.wire .packetNumber) 0b10111111 = .ok (.pnW2 63) ∧
    decodeWord (.wire .packetNumber) 0b11000001 = .ok (.pnW4 1) := by decide

/-- R96: DCIL in the high nibble; R97: bit 7 is the form. -/
theorem test_decode_cil_and_packet :
    decodeWord (.wire .cil) 0b01010011 = .ok (.cilOctet 5 3) ∧
    decodeWord (.wire .packet) 0b01000000 = .ok (.pktShort 64) ∧
    decodeWord (.wire .packet) 0b11111101 = .ok (.pktLong 125) := by decide

/-- The host's table words: commands below 16, VarInt first octets above (log 11). -/
theorem test_decodeTableWord :
    decodeTableWord 4 0b0110 = some .lhDec ∧ decodeTableWord 8 0b01111011 = some (.varintW2 59) ∧
    decodeTableWord 4 16 = none := by decide

/-! ### One or two vectors per command (95_test_vectors.md) -/

/-- 2.1: the widths change at `0x40`, `0x80`, `0xC0`. -/
theorem test_viWid :
    see (exec .viWid { s0 with op := { s0.op with rOct := 0xBF } }) (fun t => [t.res.rWid.toNat]) = some [4] ∧
    see (exec .viWid { s0 with op := { s0.op with rOct := 0xC0 } }) (fun t => [t.res.rWid.toNat]) = some [8] := by decide

/-- 1.1: the source's 8-octet example. -/
theorem test_viDec :
    valueAfter .viDec (withInput [0xC2, 0x19, 0x7C, 0x5E, 0xFF, 0x14, 0xE8, 0x8C]) =
      some [0, 151288809941952652, 8, 8] := by decide

/-- 2.1: `[25 00]` is read by its length; three octets are no VarInt. -/
theorem test_viDec_by_length :
    valueAfter .viDec (withInput [0x25, 0]) = some [0, 9472, 2, 2] ∧
    statusAfter .viDec (withInput [1, 2, 3]) = some [1] := by decide

/-- 2.1: 16384 is the least value of the 4-octet form. -/
theorem test_viEnc :
    outputAfter .viEnc { s0 with op := { s0.op with rVal := 16384 } } = some [0x80, 0, 0x40, 0] := by decide

/-- 2.1: `2^62` is too large. -/
theorem test_viEnc_too_large :
    statusAfter .viEnc { s0 with op := { s0.op with rVal := 4611686018427387904 } } = some [5] := by decide

/-- 2.2: `40` is a 1-octet form, `C0` a 4-octet form. -/
theorem test_pnLen :
    see (exec .pnLen { s0 with op := { s0.op with rOct := 0x40 } }) (fun t => [t.res.rWid.toNat]) = some [1] ∧
    see (exec .pnLen { s0 with op := { s0.op with rOct := 0xC0 } }) (fun t => [t.res.rWid.toNat]) = some [4] := by decide

/-- 2.2: one bit is cleared in two octets, none in one. -/
theorem test_pnDec :
    valueAfter .pnDec (withInput [0xFF, 0xFF]) = some [0, 32767, 2, 2] ∧
    valueAfter .pnDec (withInput [0xFF]) = some [0, 255, 1, 1] := by decide

/-- 2.2: eight octets are no packet number. -/
theorem test_pnDec_length : statusAfter .pnDec (withInput [1, 2, 3, 4, 5, 6, 7, 8]) = some [1] := by decide

/-- 2.2: a requested width is used even where a smaller would do. -/
theorem test_pnEnc :
    outputAfter .pnEnc { s0 with op := { s0.op with rVal := 0x25, rWid := 2 } } = some [0x80, 0x25] := by decide

/-- 2.2: width 3 is no request; `0x7FFF` does not fit two octets. -/
theorem test_pnEnc_errors :
    statusAfter .pnEnc { s0 with op := { s0.op with rVal := 5, rWid := 3 } } = some [1] ∧
    statusAfter .pnEnc { s0 with op := { s0.op with rVal := 0x7FFF, rWid := 2 } } = some [5] := by decide

/-- 2.3: `P1`. -/
theorem test_lhDec : see (exec .lhDec (withInput p1)) longFields = some [0, 0, 0x7D, 1, 5, 3, 5, 0x102, 2, 17, 3, 20] := by
  decide

/-- 2.3: `length` 0 with width 1 underflows; the packet number's own octets are tested first. -/
theorem test_lhDec_order :
    statusAfter .lhDec (withInput [0x80, 0, 0, 0, 1, 0, 1, 0x80, 0]) = some [9] ∧
    statusAfter .lhDec (withInput [0x80, 0, 0, 0, 1, 0, 1, 0x80]) = some [2] := by decide

/-- 2.4: `P1` from its operands, and the error of a width request. -/
theorem test_lhEnc : outputAfter .lhEnc p1Operands = some (p1.map (fun o => o.toNat)) := by decide

theorem test_lhEnc_error :
    statusAfter .lhEnc { p1Operands with op := { p1Operands.op with hPnw := 1 } } = some [5] := by decide

/-- 2.5: `P2`. -/
theorem test_ipDec :
    see (exec .ipDec (withInput p2)) (fun t => longFields t ++ [t.res.hTokLen.toNat, t.res.hTokOff]) =
      some [0, 3, 0x7F, 1, 8, 0, 9, 0x25, 1, 20, 4, 24, 3, 17] := by decide

/-- 2.5: a token of 5 past the buffer, one that fits the buffer but not the region, a token length cut by the region. -/
theorem test_ipDec_token :
    statusAfter .ipDec (withInput [0xFF, 0, 0, 0, 1, 0, 3, 0, 5, 0xAA]) = some [2] ∧
    statusAfter .ipDec (withInput [0xFF, 0, 0, 0, 1, 0, 3, 0, 5, 0xAA, 0xEE, 0xEE, 0xEE, 0xEE, 0xEE]) = some [9] ∧
    statusAfter .ipDec (withInput [0xFF, 0, 0, 0, 1, 0, 2, 0, 0x40, 0xEE, 0xEE]) = some [9] := by decide

/-- 2.5: `P2` from its operands. -/
theorem test_ipEnc : outputAfter .ipEnc p2Operands = some (p2.map (fun o => o.toNat)) := by decide

/-- 2.6: `P3`; the repeated version is coalesced. -/
theorem test_vnDec :
    see (exec .vnDec (withInput p3)) (fun t => [t.res.status.toNat, t.res.hForm.toNat, t.res.nver, t.res.rCur] ++
      (t.res.vers.take t.res.nver).map (fun v => v.toNat)) = some [0, 2, 2, 26, 1, 0xFF00000D] := by decide

/-- 1.4: version 1 is unsupported, as soon as it is read. -/
theorem test_vnDec_version : statusAfter .vnDec (withInput [0x80, 0, 0, 0, 1]) = some [3] := by decide

/-- 2.6: the first 22 octets of `P3`. -/
theorem test_vnEnc : outputAfter .vnEnc p3Operands = some ((p3.take 22).map (fun o => o.toNat)) := by decide

/-- R200, R230: the short-header operations always fail. -/
theorem test_shDec : statusAfter .shDec (withInput [0x40]) = some [4] := by decide
theorem test_shEnc : statusAfter .shEnc s0 = some [4] := by decide

/-- 2.8: type `0x7F` is routed to the Initial parser, type `0x7D` to the long-header parser. -/
theorem test_pkParse :
    see (exec .pkParse (withInput p2)) longFields = some [0, 3, 0x7F, 1, 8, 0, 9, 0x25, 1, 20, 4, 24] ∧
    see (exec .pkParse (withInput p1)) longFields = some [0, 0, 0x7D, 1, 5, 3, 5, 0x102, 2, 17, 3, 20] := by decide

/-- 2.8: a short form is rejected whatever follows; a long form needs its version. -/
theorem test_pkParse_errors :
    statusAfter .pkParse (withInput [0x7F, 0, 0, 0, 1, 0, 1, 0]) = some [4] ∧
    statusAfter .pkParse (withInput [0xC0, 0, 0, 0]) = some [2] := by decide

/-- R244: `H_FORM` alone selects. -/
theorem test_pkBuild :
    outputAfter .pkBuild p2Operands = some (p2.map (fun o => o.toNat)) ∧
    outputAfter .pkBuild p3Operands = some ((p3.take 22).map (fun o => o.toNat)) := by decide

/-! ### Wire items (log 9): the same examples, read one item at a time -/

/-- 1.1 as items: `25`, `7B BD`, `9D 7F 3E 7D` at cursor 1, and the 8-octet example. -/
theorem test_varint_items :
    see (step (atWire .varint [0xEE, 0x25] 1)) (fun t => [t.res.rVal.toNat, t.res.rWid.toNat, t.cur]) =
      some [37, 1, 2] ∧
    see (step (atWire .varint [0xEE, 0x7B, 0xBD] 1)) (fun t => [t.res.rVal.toNat, t.res.rWid.toNat, t.cur]) =
      some [15293, 2, 3] ∧
    see (step (atWire .varint [0xEE, 0x9D, 0x7F, 0x3E, 0x7D] 1))
      (fun t => [t.res.rVal.toNat, t.res.rWid.toNat, t.cur]) = some [494878333, 4, 5] ∧
    see (step (atWire .varint [0xC2, 0x19, 0x7C, 0x5E, 0xFF, 0x14, 0xE8, 0x8C] 0))
      (fun t => [t.res.rVal.toNat, t.res.rWid.toNat, t.cur]) = some [151288809941952652, 8, 8] := by decide

/-- 1.2 as items: `7F`, `BF FF`, `C1 23 45 67`. -/
theorem test_packetNumber_items :
    see (step (atWire .packetNumber [0x7F] 0)) (fun t => [t.res.rVal.toNat, t.res.rWid.toNat, t.cur]) =
      some [0x7F, 1, 1] ∧
    see (step (atWire .packetNumber [0xBF, 0xFF] 0)) (fun t => [t.res.rVal.toNat, t.res.rWid.toNat, t.cur]) =
      some [0x3FFF, 2, 2] ∧
    see (step (atWire .packetNumber [0xC1, 0x23, 0x45, 0x67] 0))
      (fun t => [t.res.rVal.toNat, t.res.rWid.toNat, t.cur]) = some [0x1234567, 4, 4] := by decide

/-- `P1`'s identifiers from its CIL octet at offset 5. -/
theorem test_cilOctet :
    see (step (atWire .cil p1 5)) (fun t => [t.res.hDcil.toNat, t.res.hScil.toNat, t.cur] ++
      (t.res.hDcid.toList.take 5 ++ t.res.hScid.toList.take 3).map (fun o => o.toNat)) =
      some [5, 3, 14, 0xA1, 0xA2, 0xA3, 0xA4, 0xA5, 0xB1, 0xB2, 0xB3] := by decide

/-- Octet 0 of a short packet and of `P1`, read as packet first octets. -/
theorem test_packet_items :
    see (step (atWire .packet [0x40] 0)) (fun t => [t.res.status.toNat]) = some [4] ∧
    see (step (atWire .packet p1 0)) longFields = some [0, 0, 0x7D, 1, 5, 3, 5, 0x102, 2, 17, 3, 20] := by decide

/-- An item cut short by the end of the buffer. -/
theorem test_wire_too_short :
    see (step (atWire .varint [0x7B] 0)) (fun t => [t.res.status.toNat]) = some [2] ∧
    see (step (atWire .packetNumber [0xC1, 0x23, 0x45] 0)) (fun t => [t.res.status.toNat]) = some [2] := by decide

/-! ### The step and the host's word -/

/-- `withFetchWord` puts a command, or an item followed by zeros, where the next step reads it, from reset. -/
theorem test_withFetchWord_command : step (State.reset.withFetchWord 4 0b1100) = exec .shDec (State.reset.withFetchWord 4 0b1100) :=
  rfl

theorem test_withFetchWord_item :
    see (step (State.reset.withFetchWord 8 0b01111011)) (fun t => [t.res.rVal.toNat, t.res.rWid.toNat, t.cur]) =
      some [0x3B00, 2, 2] := by decide

/-- Program 1 of 95_test_vectors.md, steps 1, 3, 4, 5: `VI_WID` between the encode and the host's copy leaves `OBUF`. -/
theorem test_program1 :
    (match exec .viEnc { s0 with op := { s0.op with rVal := 15293, rOct := 0x7B } } with
      | .next t =>
        match exec .viWid t with
        | .next u => (u.presentOutputOf t.res.olen).map (fun v => valueAfter .viDec v)
        | _ => none
      | _ => none) = some (some [0, 15293, 2, 2]) := by decide

/-- Program 5 of 95_test_vectors.md: the host presents the rest of the buffer. -/
theorem test_presentSlice :
    ((withInput [0xFD, 0, 0, 0, 1, 0, 2, 1, 0xAA, 0xFC, 0, 0, 0, 2, 0, 1, 7]).presentSlice 9 17).map
      (fun u => see (exec .pkParse u) longFields) = some (some [0, 0, 0x7C, 2, 0, 0, 1, 7, 1, 8, 0, 8]) := by decide

/-! ### Witnesses: the hypotheses of every obligation can be met, clause by clause -/

/-- A buffer within capacity is held. -/
theorem holds (b : List Octet) (h : b.length ≤ 128) : HoldsInput (withInput b) b :=
  ⟨rfl, h, Memory.readRange_ofOctets b⟩

/-- `P1` as a packet. -/
def longP1 : LongPacket :=
  ⟨0xFD, 1, [0xA1, 0xA2, 0xA3, 0xA4, 0xA5], [0xB1, 0xB2, 0xB3], [5], [0x81, 2], [0xDE, 0xAD, 0xBE]⟩

/-- `P2` as a packet; its region is `03`, the token, the payload. -/
def longP2 : LongPacket :=
  ⟨0xFF, 1, [1, 2, 3, 4, 5, 6, 7, 8], [], [9], [0x25], [3, 0xAA, 0xBB, 0xCC, 0x10, 0x11, 0x12, 0x13]⟩

/-- `P3` as a packet. -/
def vnP3 : VnPacket := ⟨0x80, [0xD1, 0xD2, 0xD3, 0xD4], [0x51, 0x52, 0x53, 0x54], [1, 0xFF00000D, 1]⟩

theorem test_layouts_are_the_vectors : longP1.octets = p1 ∧ longP2.octets = p2 ∧ vnP3.octets = p3 := by decide

/-- The longest identifiers a nibble can announce. -/
def longMax : LongPacket :=
  ⟨0x80, 1, List.replicate 15 0xD0, List.replicate 15 0xE0, [0x40, 4], [0xC0, 0, 0, 7], []⟩

/-- A small instance with every buffer full: `ILEN = BUF_MAX`, `TLEN = TOK_MAX`, `NVER = NVER_MAX`. -/
def full : State :=
  let s := (withInput [1, 2, 3, 4, 5, 6, 7, 8]).loadToken [1, 2, 3, 4]
  { s with params := ⟨8, 4, 2, 68, 7, 0x7F⟩, op := { s.op with nver := 2 } }

theorem full_ready : full.params.Legal ∧ HostReady full :=
  ⟨by decide, ⟨by decide, by decide, by decide, by decide, by decide⟩⟩

theorem witness_DecodeOfEncode :
    (Instr.varintW8 63).wellFormed = true ∧ (Instr.cilOctet 15 15).wellFormed = true ∧
    Instr.pkBuild.wellFormed = true := by decide

theorem witness_StepRunsDecodedInstruction_command : s0.fetch = .command := rfl

theorem witness_StepRunsDecodedInstruction_item :
    (atWire .varint [0xEE, 0x25] 1).fetch = .wire .varint ∧ WireFormat.varint ≠ .packet ∧
    (atWire .varint [0xEE, 0x25] 1).cur < (atWire .varint [0xEE, 0x25] 1).op.ilen ∧
    Memory.read (atWire .varint [0xEE, 0x25] 1).ibuf 1 = some 0x25 := by decide

theorem witness_StepRunsDecodedInstruction_packet :
    (atWire .packet p1 0).fetch = .wire .packet ∧ 0 < (atWire .packet p1 0).op.ilen ∧
    Memory.read (atWire .packet p1 0).ibuf 0 = some 0xFD := by decide

theorem witness_StepRunsDecodedInstruction_past_end :
    (atWire .cil [0x53] 1).fetch = .wire .cil ∧ WireFormat.cil ≠ .packet ∧
    (atWire .cil [0x53] 1).op.ilen ≤ (atWire .cil [0x53] 1).cur := by decide

theorem witness_StepRunsDecodedInstruction_empty :
    (atWire .packet [] 0).fetch = .wire .packet ∧ (atWire .packet [] 0).op.ilen = 0 := by decide

theorem witness_StepKeepsInvariant : Inv (withInput p1) ∧ ∃ t, step (withInput p1) = .next t :=
  ⟨⟨by decide, Memory.wf_ofOctets p1, by decide, by decide, by decide, by decide, by decide, by decide, by decide,
    by decide, by decide, by decide, by decide, by decide, by decide, by decide, by decide⟩, _, rfl⟩

theorem witness_OperandsAndInputSpacesAreKept : ∃ t, exec .lhDec (withInput p1) = .next t := ⟨_, rfl⟩

theorem witness_NoStateBetweenOperations :
    (isCommand .lhDec = true ∧ Instr.lhDec ∉ [.viWid, .pnLen] ∧ ∃ t, exec .lhDec (withInput p1) = .next t) ∧
    (Instr.pnLen ∈ [.viWid, .pnLen] ∧ ∃ t, exec .pnLen s0 = .next t) :=
  ⟨⟨rfl, by decide, _, rfl⟩, by decide, _, rfl⟩

theorem witness_StatusIsAlwaysLegal :
    isCommand .shDec = true ∧ ∃ t, exec .shDec s0 = .next t := ⟨rfl, _, rfl⟩

theorem witness_OperationsAreTotalForReadyHost : isCommand .ipEnc = true ∧ HostReady full := ⟨rfl, full_ready.2⟩

theorem witness_ErrorsOnlyWhereTheTableSays_raised :
    isCommand .shDec = true ∧
    ∃ t, exec .shDec s0 = .next t ∧ t.res.status = errorStatus .unknownPacketType := ⟨rfl, _, rfl, rfl⟩

theorem witness_ErrorsOnlyWhereTheTableSays_never :
    isCommand .vnEnc = true ∧ (∃ t, exec .vnEnc s0 = .next t) ∧ ∀ e, Instr.vnEnc ∉ raisedBy e :=
  ⟨rfl, ⟨_, rfl⟩, fun e => by cases e <;> decide⟩

theorem witness_FailureLeavesOnlyStatus :
    isCommand .shEnc = true ∧ ∃ t, exec .shEnc s0 = .next t ∧ t.res.status ≠ 0b0000 :=
  ⟨rfl, _, rfl, by decide⟩

theorem witness_OutputOutsideLengthHasNoValue :
    (isCommand .viWid = true ∧ ∃ t, exec .viWid s0 = .next t) ∧
    (isCommand .viEnc = true ∧ ∃ t, exec .viEnc s0 = .next t ∧ t.res.status = 0b0000) ∧
    (isCommand .lhDec = true ∧ ∃ t, exec .lhDec (withInput p1) = .next t) :=
  ⟨⟨rfl, _, rfl⟩, ⟨rfl, _, rfl, rfl⟩, rfl, _, rfl⟩

theorem witness_OutputSizeBounds_builders :
    params.Legal ∧ (∃ t, exec .viEnc s0 = .next t ∧ t.res.status = 0b0000) ∧
    (∃ t, exec .pnEnc s0 = .next t ∧ t.res.status = 0b0000) ∧
    (∃ t, exec .lhEnc p1Operands = .next t ∧ t.res.status = 0b0000) ∧
    (∃ t, exec .ipEnc p2Operands = .next t ∧ t.res.status = 0b0000) ∧
    (∃ t, exec .vnEnc p3Operands = .next t ∧ t.res.status = 0b0000) :=
  ⟨by decide, ⟨_, rfl, rfl⟩, ⟨_, rfl, rfl⟩, ⟨_, rfl, rfl⟩, ⟨_, rfl, rfl⟩, ⟨_, rfl, rfl⟩⟩

theorem witness_OutputSizeBounds_length :
    (List.replicate 4 (0 : Octet)).length ≤ 4 ∧ (List.replicate 8 (0 : Octet)).length ≤ 8 ∧
    full.op.ilen ≤ full.params.bufMax ∧ full.op.tlen ≤ full.params.tokMax := by decide

theorem witness_OverCapacityIsRefused :
    params.bufMax < ({ s0.op with ilen := 129 } : OperandRegs).ilen ∧
    (s0.op.ilen ≤ params.bufMax ∧ params.tokMax < ({ s0.op with tlen := 65 } : OperandRegs).tlen) ∧
    params.nverMax < ({ s0.op with nver := 33 } : OperandRegs).nver := by decide

/-- A buffer of `n` octets of which only the first, `b`, have been written. -/
def partly (b : List Octet) (n : Nat) : State :=
  let s := withInput b
  { s with op := { s.op with ilen := n } }

theorem witness_UnwrittenOctetFaults_leaf :
    (partly [0xC0] 8).op.ilen ≤ params.bufMax ∧ 7 < (partly [0xC0] 8).op.ilen ∧
    Memory.read (partly [0xC0] 8).ibuf 7 = none ∧ (partly [0xC0] 8).op.ilen ∈ [1, 2, 4, 8] ∧
    (partly [0xC0] 4).op.ilen ∈ [1, 2, 4] := by decide

theorem witness_UnwrittenOctetFaults_first :
    (partly [] 1).op.ilen ≤ params.bufMax ∧ 0 < (partly [] 1).op.ilen ∧ Memory.read (partly [] 1).ibuf 0 = none := by
  decide

theorem witness_UnwrittenOctetFaults_long :
    let s := partly (longP1.headOctets.take 16) 20
    longP1.framed = true ∧ (128 ≤ longP1.first.toNat ∧ longP1.version ≠ 0) ∧ s.op.ilen ≤ s.params.bufMax ∧
      longP1.headOctets.length ≤ s.op.ilen ∧ 16 < longP1.headOctets.length ∧
      Memory.readRange s.ibuf 0 16 = some (longP1.headOctets.take 16) ∧ Memory.read s.ibuf 16 = none := by decide

theorem witness_UnwrittenOctetFaults_versions :
    let s := partly (vnP3.octets.take 25) 26
    vnP3.framed = true ∧ 128 ≤ vnP3.first.toNat ∧ s.op.ilen ≤ s.params.bufMax ∧ s.op.ilen = vnP3.octets.length ∧
      25 < vnP3.octets.length ∧ Memory.readRange s.ibuf 0 25 = some (vnP3.octets.take 25) ∧
      Memory.read s.ibuf 25 = none := by decide

theorem witness_UnwrittenOctetFaults_payload :
    let s := partly [1, 2] 3
    s.params.Legal ∧ s.op.ilen ≤ s.params.bufMax ∧ encPn s.op.hPn.toNat s.op.hPnw.toNat = .ok [0] ∧ 2 < s.op.ilen ∧
      Memory.read s.ibuf 2 = none ∧ s.op.tlen ≤ s.params.tokMax ∧
      (Memory.readRange s.tokbuf 0 s.op.tlen).isSome = true := by decide

theorem witness_UnwrittenOctetFaults_token :
    let s := { s0 with op := { s0.op with tlen := 1 } }
    s.params.Legal ∧ s.op.ilen ≤ s.params.bufMax ∧ s.op.tlen ≤ s.params.tokMax ∧
      encPn s.op.hPn.toNat s.op.hPnw.toNat = .ok [0] ∧ 0 < s.op.tlen ∧ Memory.read s.tokbuf 0 = none := by decide

theorem witness_ViDecClearsTopTwoBits_value :
    HoldsInput (withInput (List.replicate 8 0xFF)) (List.replicate 8 0xFF) ∧
    (List.replicate 8 (0xFF : Octet)).length ∈ [1, 2, 4, 8] := ⟨holds _ (by decide), by decide⟩

theorem witness_ViDecClearsTopTwoBits_length :
    (withInput [1, 2, 3]).op.ilen ≤ params.bufMax ∧ (withInput [1, 2, 3]).op.ilen ∉ [1, 2, 4, 8] := by decide

theorem witness_ViEncIsMinimal :
    ({ s0.op with rVal := 0x3FFFFFFFFFFFFFFF } : OperandRegs).rVal.toNat ≤ 2 ^ 62 - 1 ∧
    2 ^ 62 - 1 < ({ s0.op with rVal := 0x4000000000000000 } : OperandRegs).rVal.toNat := by decide

theorem witness_VarIntRoundTrip :
    (2 ^ 62 - 1 ≤ 2 ^ 62 - 1) ∧ (8 ∈ [1, 2, 4, 8] ∧ 2 ^ 62 - 1 < 2 ^ (8 * 8 - 2)) := by decide

theorem witness_ViDecIgnoresSelectorBits :
    HoldsInput (withInput [0x25, 0]) [0x25, 0] ∧ HoldsInput (withInput [0xE5, 0]) [0xE5, 0] ∧
    [0x25, (0 : Octet)].length ∈ [1, 2, 4, 8] ∧ (0x25 : Octet).toNat % 64 = (0xE5 : Octet).toNat % 64 :=
  ⟨holds _ (by decide), holds _ (by decide), by decide, by decide⟩

theorem witness_PnDecMasksByLength_value :
    HoldsInput (withInput [0xFF, 0xFF]) [0xFF, 0xFF] ∧ [0xFF, (0xFF : Octet)].length ∈ [1, 2, 4] :=
  ⟨holds _ (by decide), by decide⟩

theorem witness_PnDecMasksByLength_length :
    (withInput []).op.ilen ≤ params.bufMax ∧ (withInput []).op.ilen ∉ [1, 2, 4] := by decide

theorem witness_PnEncFollowsWidthRequest_given :
    let o : OperandRegs := { s0.op with rVal := 0x3FFF, rWid := 2 }
    o.rWid.toNat = 2 ∧ 2 ∈ [1, 2, 4] ∧ o.rVal.toNat < 2 ^ (if 2 = 4 then 30 else if 2 = 2 then 14 else 7) := by decide

theorem witness_PnEncFollowsWidthRequest_derived :
    let o : OperandRegs := { s0.op with rVal := 0x3FFFFFFF, rWid := 0 }
    o.rWid = 0 ∧ o.rVal.toNat < 2 ^ 30 := by decide

theorem witness_PnEncFollowsWidthRequest_no_request :
    ({ s0.op with rWid := 3 } : OperandRegs).rWid.toNat ∉ [0, 1, 2, 4] := by decide

theorem witness_PnEncFollowsWidthRequest_too_large :
    let o : OperandRegs := { s0.op with rVal := 0x4000, rWid := 2 }
    o.rWid.toNat = 2 ∧ 2 ∈ [0, 1, 2, 4] ∧ 2 ^ (if 2 = 2 then 14 else if 2 = 1 then 7 else 30) ≤ o.rVal.toNat := by decide

theorem witness_PacketNumberRoundTrip :
    0 ∈ [0, 1, 2, 4] ∧ 0x3FFFFFFF < 2 ^ (if 0 = 2 then 14 else if 0 = 1 then 7 else 30) ∧
    (4 ∈ [1, 2, 4] ∧ 0x3FFFFFFF < 2 ^ (if 4 = 2 then 14 else if 4 = 1 then 7 else 30)) := by decide

theorem witness_FramedPacketNumberRange :
    isPnField [0x7F] = true ∧ isPnField [0xBF, 0xFF] = true ∧ isPnField [0xFF, 0xFF, 0xFF, 0xFF] = true := by decide

theorem witness_LhDecParsesLongHeader :
    longP1.framed = true ∧ longP1.measured = true ∧
    HoldsInput (withInput (longP1.octets ++ [0xEE, 0xEE])) (longP1.octets ++ [0xEE, 0xEE]) :=
  ⟨by decide, by decide, holds _ (by decide)⟩

theorem witness_LhDecParsesLongHeader_longest_ids :
    longMax.framed = true ∧ longMax.measured = true ∧ HoldsInput (withInput (longMax.octets ++ [])) (longMax.octets ++ []) :=
  ⟨by decide, by decide, holds _ (by decide)⟩

theorem witness_LongHeaderNeedsEightOctets :
    HoldsInput (withInput (p1.take 7)) (p1.take 7) ∧ (p1.take 7).length < 8 := ⟨holds _ (by decide), by decide⟩

theorem witness_LongHeaderCheckOrder_cut :
    longP1.framed = true ∧ 16 < longP1.headOctets.length ∧
    HoldsInput (withInput (longP1.headOctets.take 16)) (longP1.headOctets.take 16) :=
  ⟨by decide, by decide, holds _ (by decide)⟩

theorem witness_LongHeaderCheckOrder_underflow :
    let p : LongPacket := ⟨0x80, 1, [], [], [1], [0x80, 0], []⟩
    p.framed = true ∧ HoldsInput (withInput p.octets) p.octets ∧ varIntValue p.lengthField < p.pnField.length :=
  ⟨by decide, holds _ (by decide), by decide⟩

theorem witness_LongHeaderCheckOrder_region :
    let p : LongPacket := ⟨0x80, 1, [], [], List.replicate 8 0xFF, [0], []⟩
    p.framed = true ∧ HoldsInput (withInput p.octets) p.octets ∧
      p.pnField.length + p.region.length < varIntValue p.lengthField :=
  ⟨by decide, holds _ (by decide), by decide⟩

theorem witness_IpDecParsesInitialPacket :
    longP2.framed = true ∧ longP2.measured = true ∧
    longP2.region = [3] ++ [0xAA, 0xBB, 0xCC] ++ [0x10, 0x11, 0x12, 0x13] ∧ isVarIntField [3] = true ∧
    varIntValue [3] = [0xAA, 0xBB, (0xCC : Octet)].length ∧
    HoldsInput (withInput (longP2.octets ++ [])) (longP2.octets ++ []) :=
  ⟨by decide, by decide, by decide, by decide, by decide, holds _ (by decide)⟩

theorem witness_IpDecTokenBounds_empty_region :
    let p : LongPacket := ⟨0xFF, 1, [], [], [1], [0], []⟩
    p.framed = true ∧ p.measured = true ∧ p.region = [] ∧
      HoldsInput (withInput (p.octets ++ [])) (p.octets ++ []) ∧
      HoldsInput (withInput (p.octets ++ [0xEE])) (p.octets ++ [0xEE]) :=
  ⟨by decide, by decide, by decide, holds _ (by decide), holds _ (by decide)⟩

theorem witness_IpDecTokenBounds_cut_length :
    let p : LongPacket := ⟨0xFF, 1, [], [], [2], [0], [0x40]⟩
    p.framed = true ∧ p.measured = true ∧ p.region = 0x40 :: [] ∧ ([] : List Octet).length + 1 < varIntWidth 0x40 ∧
      HoldsInput (withInput (p.octets ++ [])) (p.octets ++ []) ∧
      HoldsInput (withInput (p.octets ++ [0xEE, 0xEE])) (p.octets ++ [0xEE, 0xEE]) :=
  ⟨by decide, by decide, by decide, by decide, holds _ (by decide), holds _ (by decide)⟩

theorem witness_IpDecTokenBounds_token :
    let p : LongPacket := ⟨0xFF, 1, [], [], [3], [0], [5, 0xAA]⟩
    p.framed = true ∧ p.measured = true ∧ p.region = [5] ++ [0xAA] ∧ isVarIntField [5] = true ∧
      [(0xAA : Octet)].length < varIntValue [5] ∧ HoldsInput (withInput (p.octets ++ [])) (p.octets ++ []) ∧
      HoldsInput (withInput (p.octets ++ [1, 2, 3, 4])) (p.octets ++ [1, 2, 3, 4]) :=
  ⟨by decide, by decide, by decide, by decide, by decide, holds _ (by decide), holds _ (by decide)⟩

theorem witness_InitialParseRefinesLongParse_failure :
    ∃ t u, exec .lhDec (withInput [0x80]) = .next t ∧ exec .ipDec (withInput [0x80]) = .next u ∧
      t.res.status ≠ 0b0000 := ⟨_, _, rfl, rfl, by decide⟩

theorem witness_InitialParseRefinesLongParse_success :
    ∃ t u, exec .lhDec (withInput p2) = .next t ∧ exec .ipDec (withInput p2) = .next u ∧ u.res.status = 0b0000 :=
  ⟨_, _, rfl, rfl, rfl⟩

theorem witness_SlicesLieInTheBuffer :
    (∃ t, exec .pkParse (withInput p2) = .next t ∧ t.res.status = 0b0000 ∧ t.res.hForm = 3) ∧
    (∃ t, exec .pkParse (withInput p1) = .next t ∧ t.res.status = 0b0000 ∧ t.res.hForm = 0) :=
  ⟨⟨_, rfl, rfl, rfl⟩, ⟨_, rfl, rfl, rfl⟩⟩

theorem witness_VnDecCollectsVersionSet : vnP3.framed = true ∧ HoldsInput (withInput vnP3.octets) vnP3.octets :=
  ⟨by decide, holds _ (by decide)⟩

theorem witness_VnDecRejects_short :
    HoldsInput (withInput (p3.take 4)) (p3.take 4) ∧ (p3.take 4).length < 5 := ⟨holds _ (by decide), by decide⟩

theorem witness_VnDecRejects_version :
    HoldsInput (withInput (0x80 :: ([0, 0, 0, 1] ++ []))) (0x80 :: ([0, 0, 0, 1] ++ [])) ∧
    [0, 0, 0, (1 : Octet)].length = 4 ∧ [0, 0, 0, (1 : Octet)] ≠ [0, 0, 0, 0] := ⟨holds _ (by decide), by decide, by decide⟩

theorem witness_VnDecRejects_ids :
    vnP3.framed = true ∧ 13 < 6 + vnP3.dcid.length + vnP3.scid.length ∧
    HoldsInput (withInput (vnP3.octets.take 13)) (vnP3.octets.take 13) ∧
    HoldsInput (withInput (vnP3.octets.take 5)) (vnP3.octets.take 5) :=
  ⟨by decide, by decide, holds _ (by decide), holds _ (by decide)⟩

theorem witness_VnDecRejects_tail :
    vnP3.framed = true ∧ HoldsInput (withInput (vnP3.octets ++ [0, 0, 0])) (vnP3.octets ++ [0, 0, 0]) ∧
    1 ≤ [0, 0, (0 : Octet)].length ∧ [0, 0, (0 : Octet)].length ≤ 3 :=
  ⟨by decide, holds _ (by decide), by decide, by decide⟩

/-- `P1`'s operands hold its payload. -/
theorem p1Operands_holds : HoldsInput p1Operands [0xDE, 0xAD, 0xBE] := ⟨rfl, by decide, by decide⟩

theorem p2Operands_holds : HoldsInput p2Operands [0x10, 0x11, 0x12, 0x13] ∧ HoldsToken p2Operands [0xAA, 0xBB, 0xCC] :=
  ⟨⟨rfl, by decide, by decide⟩, ⟨rfl, by decide, by decide⟩⟩

theorem witness_LhEncBuildsLongHeader :
    p1Operands.params.Legal ∧ HoldsInput p1Operands [0xDE, 0xAD, 0xBE] ∧
    encPn p1Operands.op.hPn.toNat p1Operands.op.hPnw.toNat = .ok [0x81, 2] :=
  ⟨by decide, p1Operands_holds, by decide⟩

theorem witness_IpEncBuildsInitialPacket :
    p2Operands.params.Legal ∧ HoldsInput p2Operands [0x10, 0x11, 0x12, 0x13] ∧
    HoldsToken p2Operands [0xAA, 0xBB, 0xCC] ∧
    encPn p2Operands.op.hPn.toNat p2Operands.op.hPnw.toNat = .ok [0x25] :=
  ⟨by decide, p2Operands_holds.1, p2Operands_holds.2, by decide⟩

theorem witness_BuilderErrorsAreThePacketNumbers_request :
    full.op.ilen ≤ full.params.bufMax ∧ full.op.tlen ≤ full.params.tokMax ∧
    ({ full.op with hPnw := 3 } : OperandRegs).hPnw.toNat ∉ [0, 1, 2, 4] := by decide

theorem witness_BuilderErrorsAreThePacketNumbers_value :
    full.op.ilen ≤ full.params.bufMax ∧ full.op.tlen ≤ full.params.tokMax ∧
    ({ full.op with hPnw := 1 } : OperandRegs).hPnw.toNat = 1 ∧ 1 ∈ [0, 1, 2, 4] ∧
    2 ^ (if 1 = 2 then 14 else if 1 = 1 then 7 else 30) ≤ ({ full.op with hPn := 0x80 } : OperandRegs).hPn.toNat := by
  decide

theorem witness_VnEncBuildsVersionNegotiation : full.op.nver ≤ full.params.nverMax := by decide

/-- The values the packets stand for. -/
def valueP1 : PacketHeader :=
  .long ⟨0x7D, 1, [0xA1, 0xA2, 0xA3, 0xA4, 0xA5], [0xB1, 0xB2, 0xB3], ⟨0x102, 2⟩, [0xDE, 0xAD, 0xBE]⟩

def valueP2 : PacketHeader :=
  .initial ⟨0x7F, 1, [1, 2, 3, 4, 5, 6, 7, 8], [], ⟨0x25, 1⟩, [0x10, 0x11, 0x12, 0x13]⟩ [0xAA, 0xBB, 0xCC]

def valueP3 : PacketHeader :=
  .versionNegotiation [0xD1, 0xD2, 0xD3, 0xD4] [0x51, 0x52, 0x53, 0x54] [1, 0xFF00000D]

theorem witness_LongHeaderRoundTrip :
    p1Operands.params.Legal ∧ p1Operands.longHeaderOperand = some valueP1 ∧
    valueP1.wellFormed p1Operands.params = true := by decide

theorem witness_InitialPacketRoundTrip :
    p2Operands.params.Legal ∧ p2Operands.initialOperand = some valueP2 ∧
    valueP2.wellFormed p2Operands.params = true := by decide

theorem witness_VersionNegotiationRoundTrip :
    p3Operands.params.Legal ∧ p3Operands.op.nver ≤ p3Operands.params.nverMax ∧
    p3Operands.versionNegotiationOperand = valueP3 ∧ valueP3.wellFormed p3Operands.params = true := by decide

theorem witness_PkParseRoutes_empty : HoldsInput (withInput []) [] := holds _ (by decide)

theorem witness_PkParseRoutes_short :
    HoldsInput (withInput (0x7F :: [])) (0x7F :: []) ∧ (0x7F : Octet).toNat < 128 := ⟨holds _ (by decide), by decide⟩

theorem witness_PkParseRoutes_no_version :
    HoldsInput (withInput (0x80 :: [0, 0, 0])) (0x80 :: [0, 0, 0]) ∧ 128 ≤ (0x80 : Octet).toNat ∧
    [0, 0, (0 : Octet)].length < 4 := ⟨holds _ (by decide), by decide, by decide⟩

theorem witness_PkParseRoutes_versionNegotiation :
    HoldsInput (withInput (0xFF :: ([0, 0, 0, 0] ++ [0]))) (0xFF :: ([0, 0, 0, 0] ++ [0])) ∧
    128 ≤ (0xFF : Octet).toNat := ⟨holds _ (by decide), by decide⟩

theorem witness_PkParseRoutes_type :
    HoldsInput (withInput (0xFF :: ([0, 0, 0, 1] ++ [0]))) (0xFF :: ([0, 0, 0, 1] ++ [0])) ∧
    128 ≤ (0xFF : Octet).toNat ∧ [0, 0, 0, (1 : Octet)].length = 4 ∧ [0, 0, 0, (1 : Octet)] ≠ [0, 0, 0, 0] :=
  ⟨holds _ (by decide), by decide, by decide, by decide⟩

theorem witness_PkParseParsesEachVariant_long :
    longP1.framed = true ∧ longP1.measured = true ∧ 128 ≤ longP1.first.toNat ∧ longP1.version ≠ 0 ∧
    longP1.first.toNat - 128 ≠ params.initialType.toNat ∧
    HoldsInput (withInput (longP1.octets ++ [])) (longP1.octets ++ []) :=
  ⟨by decide, by decide, by decide, by decide, by decide, holds _ (by decide)⟩

theorem witness_PkParseParsesEachVariant_initial :
    longP2.framed = true ∧ longP2.measured = true ∧ 128 ≤ longP2.first.toNat ∧ longP2.version ≠ 0 ∧
    longP2.first.toNat - 128 = params.initialType.toNat ∧
    longP2.region = [3] ++ [0xAA, 0xBB, 0xCC] ++ [0x10, 0x11, 0x12, 0x13] ∧ isVarIntField [3] = true ∧
    varIntValue [3] = [0xAA, 0xBB, (0xCC : Octet)].length ∧
    HoldsInput (withInput (longP2.octets ++ [])) (longP2.octets ++ []) :=
  ⟨by decide, by decide, by decide, by decide, by decide, by decide, by decide, by decide, holds _ (by decide)⟩

theorem witness_PkParseParsesEachVariant_versionNegotiation :
    vnP3.framed = true ∧ 128 ≤ vnP3.first.toNat ∧ HoldsInput (withInput vnP3.octets) vnP3.octets :=
  ⟨by decide, by decide, holds _ (by decide)⟩

theorem witness_PkBuildSelectsByForm :
    p1Operands.op.hForm = 0 ∧ ({ s0.op with hForm := 1 } : OperandRegs).hForm = 1 ∧ p3Operands.op.hForm = 2 ∧
    p2Operands.op.hForm = 3 := by decide

theorem witness_PkBuildBuildsEachVariant :
    p2Operands.params.Legal ∧ HostReady p2Operands ∧ p2Operands.headerOperand = some valueP2 ∧ valueP2 ≠ .short :=
  ⟨by decide, ⟨by decide, by decide, by decide, by decide, by decide⟩, by decide, by decide⟩

/-- The serialised values are the vectors; the repeated version of `P3` is emitted once. -/
theorem test_packetHeader_octets :
    valueP1.octets = p1 ∧ valueP2.octets = p2 ∧ valueP3.octets = p3.take 22 := by decide

theorem witness_DispatcherRoundTripExactlyWhen :
    p3Operands.params.Legal ∧ HostReady p3Operands ∧ p3Operands.headerOperand = some valueP3 ∧
    valueP3.wellFormed p3Operands.params = true :=
  ⟨by decide, ⟨by decide, by decide, by decide, by decide, by decide⟩, by decide, by decide⟩

theorem witness_VarIntItemIsRead :
    Instr.varintW2 63 ∈ [.varintW1 63, .varintW2 63, .varintW4 63, .varintW8 63] ∧
    (Instr.varintW2 63).wellFormed = true ∧ (0x7F : Octet).toNat = encode (.varintW2 63) ∧
    isVarIntField (0x7F :: [0xFF]) = true ∧
    (atWire .varint [0xEE, 0x7F, 0xFF] 1).cur + 1 + 1 ≤ (atWire .varint [0xEE, 0x7F, 0xFF] 1).op.ilen ∧
    Memory.readRange (atWire .varint [0xEE, 0x7F, 0xFF] 1).ibuf 2 1 = some [0xFF] := by decide

theorem witness_PacketNumberItemIsRead :
    Instr.pnW2 63 ∈ [.pnW1 63, .pnW2 63, .pnW4 63] ∧ (Instr.pnW2 63).wellFormed = true ∧
    (0xBF : Octet).toNat = encode (.pnW2 63) ∧ isPnField (0xBF :: [0xFF]) = true ∧
    (atWire .packetNumber [0xBF, 0xFF] 0).cur + 1 + 1 ≤ (atWire .packetNumber [0xBF, 0xFF] 0).op.ilen ∧
    Memory.readRange (atWire .packetNumber [0xBF, 0xFF] 0).ibuf 1 1 = some [0xFF] := by decide

theorem witness_CilItemReadsIdentifiers :
    let d : List Octet := List.replicate 15 0xD0
    let s := atWire .cil (0xF1 :: (d ++ [0x51])) 0
    d.length ≤ 15 ∧ [(0x51 : Octet)].length ≤ 15 ∧ s.cur + 1 + d.length + [(0x51 : Octet)].length ≤ s.op.ilen ∧
      Memory.readRange s.ibuf (s.cur + 1) (d.length + [(0x51 : Octet)].length) = some (d ++ [0x51]) := by decide

theorem witness_WireItemPastTheBufferIsTooShort :
    (withInput (List.replicate 7 0xC0)).op.ilen < s0.cur + varIntWidth 0xC0 ∧
    (withInput [0x80]).op.ilen < s0.cur + pnLen 0x80 := by decide

/-- The CIL octet missing, the destination identifier cut, the source identifier cut by its last octet. -/
theorem witness_WireItemPastTheBufferIsTooShort_cil :
    s0.op.ilen < s0.cur + 1 + 0 + 0 ∧ ¬ s0.cur + 1 + 0 ≤ s0.op.ilen ∧
    (partly [0xF0] 15).op.ilen < s0.cur + 1 + 15 + 0 ∧ ¬ s0.cur + 1 + 15 ≤ (partly [0xF0] 15).op.ilen ∧
    (withInput [0x12, 0xD0, 0xE0]).op.ilen < s0.cur + 1 + 1 + 2 ∧
    (Memory.readRange (withInput [0x12, 0xD0, 0xE0]).ibuf (s0.cur + 1) 1).isSome = true := by decide

/-- R172: a source identifier of which one octet is missing. -/
theorem test_cil_too_short : statusAfter (.cilOctet 1 2) (withInput [0x12, 0xD0, 0xE0]) = some [2] := by decide

theorem witness_PacketFirstOctetRoutes :
    HoldsInput (withInput (0xFD :: p1.drop 1)) (0xFD :: p1.drop 1) ∧ 127 < 128 := ⟨holds _ (by decide), by decide⟩

theorem witness_PktLongParsesEachVariant_long :
    0x7D < 128 ∧ longP1.first.toNat = 128 + 0x7D ∧ longP1.framed = true ∧ longP1.measured = true ∧
    longP1.version ≠ 0 ∧ 0x7D ≠ params.initialType.toNat ∧
    HoldsInput (withInput (longP1.octets ++ [])) (longP1.octets ++ []) :=
  ⟨by decide, by decide, by decide, by decide, by decide, by decide, holds _ (by decide)⟩

theorem witness_PktLongParsesEachVariant_initial :
    0x7F < 128 ∧ longP2.first.toNat = 128 + 0x7F ∧ longP2.framed = true ∧ longP2.measured = true ∧
    longP2.version ≠ 0 ∧ 0x7F = params.initialType.toNat ∧
    longP2.region = [3] ++ [0xAA, 0xBB, 0xCC] ++ [0x10, 0x11, 0x12, 0x13] ∧ isVarIntField [3] = true ∧
    varIntValue [3] = [0xAA, 0xBB, (0xCC : Octet)].length ∧
    HoldsInput (withInput (longP2.octets ++ [])) (longP2.octets ++ []) :=
  ⟨by decide, by decide, by decide, by decide, by decide, by decide, by decide, by decide, by decide,
    holds _ (by decide)⟩

theorem witness_PktLongParsesEachVariant_versionNegotiation :
    0 < 128 ∧ vnP3.first.toNat = 128 + 0 ∧ vnP3.framed = true ∧ HoldsInput (withInput vnP3.octets) vnP3.octets :=
  ⟨by decide, by decide, by decide, holds _ (by decide)⟩

theorem witness_UnlistedResultsAreUnspecified :
    (isCommand .viWid = true ∧ ∃ t, exec .viWid s0 = .next t ∧ t.res.status = 0b0000) ∧
    (isCommand .pnDec = true ∧ ∃ t, exec .pnDec (withInput [0x7F]) = .next t ∧ t.res.status = 0b0000) ∧
    (isCommand .pnEnc = true ∧ ∃ t, exec .pnEnc s0 = .next t ∧ t.res.status = 0b0000) ∧
    (isCommand .pkBuild = true ∧ ∃ t, exec .pkBuild p1Operands = .next t ∧ t.res.status = 0b0000) ∧
    (isCommand .pkParse = true ∧
      (∃ t, exec .pkParse (withInput p1) = .next t ∧ t.res.status = 0b0000 ∧ t.res.hForm = 0) ∧
      (∃ t, exec .pkParse (withInput p2) = .next t ∧ t.res.status = 0b0000 ∧ t.res.hForm = 3) ∧
      (∃ t, exec .pkParse (withInput p3) = .next t ∧ t.res.status = 0b0000 ∧ t.res.hForm = 2)) :=
  ⟨⟨rfl, _, rfl, rfl⟩, ⟨rfl, _, rfl, rfl⟩, ⟨rfl, _, rfl, rfl⟩, ⟨rfl, _, rfl, rfl⟩,
    rfl, ⟨_, rfl, rfl, rfl⟩, ⟨_, rfl, rfl, rfl⟩, ⟨_, rfl, rfl, rfl⟩⟩

theorem witness_UnwrittenItemOctetFaults_fetch :
    let s := { partly [] 1 with fetch := .wire .cil }
    let u := { partly [] 1 with fetch := .wire .packet }
    (s.fetch = .wire .cil ∧ WireFormat.cil ≠ .packet ∧ s.cur < s.op.ilen ∧ Memory.read s.ibuf s.cur = none) ∧
      (u.fetch = .wire .packet ∧ 0 < u.op.ilen ∧ Memory.read u.ibuf 0 = none) := by decide

theorem witness_UnwrittenItemOctetFaults_later :
    let s := partly [0xC0] 8
    (s.cur < 7 ∧ Memory.read s.ibuf 7 = none ∧ 7 < s.cur + varIntWidth 0xC0 ∧ s.cur + varIntWidth 0xC0 ≤ s.op.ilen) ∧
      (s.cur < 3 ∧ Memory.read s.ibuf 3 = none ∧ 3 < s.cur + pnLen 0xC0 ∧ s.cur + pnLen 0xC0 ≤ s.op.ilen) ∧
      (s.cur < 7 ∧ 7 < s.cur + 1 + 4 + 3 ∧ s.cur + 1 + 4 + 3 ≤ s.op.ilen) := by decide

end Sys2Proof.Tests
end

/-! PROOFS. The VarInt codec (40_varint.md): the width an octet announces (R135), the minimal field of a value (R134,
R136), and what VI_WID, VI_DEC and VI_ENC do (R131 to R133). -/

namespace Sys2Proof.Machine

/-! ### The width announced by a first octet -/

/-- `1 << o[7:6]`, read off the four ranges of the octet. -/
theorem varIntWidth_eq_ite (o : Octet) :
    varIntWidth o = if o.toNat ≤ 0x3F then 1 else if o.toNat ≤ 0x7F then 2 else if o.toNat ≤ 0xBF then 4 else 8 := by
  have hsel : slice o.toNat 7 6 = o.toNat / 64 := by
    have := o.isLt
    simp only [slice]
    omega
  rw [varIntWidth, hsel]
  split_ifs with h1 h2 h3
  · rw [show o.toNat / 64 = 0 by omega]; rfl
  · rw [show o.toNat / 64 = 1 by omega]; rfl
  · rw [show o.toNat / 64 = 2 by omega]; rfl
  · rw [show o.toNat / 64 = 3 by omega]; rfl

/-- The first of `n + 1` octets whose top two bits hold the selector `k` announces the width `2^k`. -/
theorem varIntWidth_leading_octet {n k v : Nat} (hk : k < 4) (hv : v < 2 ^ (8 * n + 6)) :
    varIntWidth (BitVec.ofNat 8 ((k * 2 ^ (8 * n + 6) + v) / 256 ^ n)) = 2 ^ k := by
  have hpow : 2 ^ (8 * n + 6) = 256 ^ n * 64 := by rw [Nat.pow_add, Nat.pow_mul]
  have hdiv : (k * 2 ^ (8 * n + 6) + v) / 256 ^ n / 64 = k := by
    rw [Nat.div_div_eq_div_mul, ← hpow, Nat.mul_comm, Nat.mul_add_div (by positivity), Nat.div_eq_of_lt hv,
      Nat.add_zero]
  have hsel : slice (BitVec.ofNat 8 ((k * 2 ^ (8 * n + 6) + v) / 256 ^ n)).toNat 7 6 = k := by
    simp only [slice, BitVec.toNat_ofNat]
    omega
  rw [varIntWidth, hsel, Nat.shiftLeft_eq, Nat.one_mul]

/-! ### A selector above the value bits -/

/-- `VarIntValue` clears the selector: any selector above `8w - 2` value bits gives the same value (R139). -/
theorem varIntValue_beN {w k v : Nat} (hv : v < 2 ^ (8 * w - 2)) :
    varIntValue (beN w (k * 2 ^ (8 * w - 2) + v)) = v := by
  have hdvd : 2 ^ (8 * w - 2) ∣ 256 ^ w := by
    rw [show (256 : Nat) = 2 ^ 8 from rfl, ← Nat.pow_mul]
    exact Nat.pow_dvd_pow 2 (Nat.sub_le _ _)
  rw [varIntValue, and_ones, beN_length, be_beN, Nat.mod_mod_of_dvd _ hdvd, Nat.mul_add_mod_self_right,
    Nat.mod_eq_of_lt hv]

theorem isVarIntField_beN {k v : Nat} (hk : k < 4) (hv : v < 2 ^ (8 * 2 ^ k - 2)) :
    isVarIntField (beN (2 ^ k) (k * 2 ^ (8 * 2 ^ k - 2) + v)) = true := by
  obtain ⟨n, hn⟩ : ∃ n, 2 ^ k = n + 1 := Nat.exists_eq_add_one_of_ne_zero (by positivity)
  have hbits : 8 * (n + 1) - 2 = 8 * n + 6 := by omega
  rw [hn, hbits] at hv
  simp [hn, hbits, beN, isVarIntField, varIntWidth_leading_octet hk hv]

theorem isVarIntField_length_mem {b : List Octet} (h : isVarIntField b = true) : b.length ∈ [1, 2, 4, 8] := by
  cases b with
  | nil => simp [isVarIntField] at h
  | cons o b =>
    have hlen : b.length + 1 = varIntWidth o := by simpa [isVarIntField] using h
    simpa [hlen] using varIntWidth_cases o

/-! ### The minimal field -/

theorem varIntLength_eq_two_pow (v : Nat) : ∃ k < 4, varIntLength v = 2 ^ k := by
  unfold varIntLength
  split_ifs
  · exact ⟨0, by decide, rfl⟩
  · exact ⟨1, by decide, rfl⟩
  · exact ⟨2, by decide, rfl⟩
  · exact ⟨3, by decide, rfl⟩

theorem lt_two_pow_varIntLength {v : Nat} (h : v ≤ 2 ^ 62 - 1) : v < 2 ^ (8 * varIntLength v - 2) := by
  unfold varIntLength
  split_ifs <;> norm_num <;> omega

/-- No width below `varIntLength` holds the value (R134). -/
theorem varIntLength_le {v w : Nat} (hw : w ∈ [1, 2, 4, 8]) (hv : v < 2 ^ (8 * w - 2)) : varIntLength v ≤ w := by
  simp only [List.mem_cons, List.not_mem_nil, or_false] at hw
  unfold varIntLength
  rcases hw with rfl | rfl | rfl | rfl <;> norm_num at hv <;> split_ifs <;> omega

@[simp] theorem varIntField_length (v : Nat) : (varIntField v).length = varIntLength v := beN_length _ _

theorem varIntField_length_mem (v : Nat) : (varIntField v).length ∈ [1, 2, 4, 8] := by
  obtain ⟨k, hk, hlen⟩ := varIntLength_eq_two_pow v
  rw [varIntField_length, hlen]
  interval_cases k <;> decide

theorem varIntValue_varIntField {v : Nat} (h : v ≤ 2 ^ 62 - 1) : varIntValue (varIntField v) = v :=
  varIntValue_beN (lt_two_pow_varIntLength h)

theorem isVarIntField_varIntField {v : Nat} (h : v ≤ 2 ^ 62 - 1) : isVarIntField (varIntField v) = true := by
  have hv := lt_two_pow_varIntLength h
  obtain ⟨k, hk, hlen⟩ := varIntLength_eq_two_pow v
  rw [varIntField, hlen, Nat.log2_two_pow]
  exact isVarIntField_beN hk (hlen ▸ hv)

/-- The minimal field is no longer than any VarInt of the same value, whatever form that one has (R136). -/
theorem varIntField_length_le {c : List Octet} (h : isVarIntField c = true) :
    (varIntField (varIntValue c)).length ≤ c.length := by
  rw [varIntField_length]
  exact varIntLength_le (isVarIntField_length_mem h) (varIntValue_lt c)

/-- `EncVarInt` emits the minimal field: each branch ORs its selector above the value bits (R134, R140). -/
theorem encVarInt_eq_varIntField {v : Nat} (h : v ≤ 2 ^ 62 - 1) : encVarInt v = .ok (varIntField v) := by
  unfold encVarInt varIntField varIntLength
  split_ifs with h1 h2 h3
  · rw [or_shift v 0 6 (by omega)]; rfl
  · rw [or_shift v 1 14 (by omega)]; rfl
  · rw [or_shift v 2 30 (by omega)]; rfl
  · rw [or_shift v 3 62 (by omega)]; rfl

theorem encVarInt_of_lt {v : Nat} (h : 2 ^ 62 - 1 < v) : encVarInt v = .error .valueTooLarge := by
  cases hb : encVarInt v with
  | ok b => exact absurd (encVarInt_ok hb).1 (by omega)
  | error e => rw [(encVarInt_error hb).1]

/-! ### VI_WID, VI_DEC, VI_ENC -/

theorem exec_viWid (s : State) : exec .viWid s = .next (completeWidth (varIntWidth s.op.rOct) s) := rfl

theorem exec_viDec (s : State) : exec .viDec s = guardInput s (conclude s (viDecode s)) := rfl

theorem exec_viEnc (s : State) : exec .viEnc s = conclude s (viEncode s) := rfl

/-- VI_DEC of a buffer that has the length of a VarInt (R132). -/
theorem exec_viDec_of_holdsInput {s : State} {b : List Octet} (hb : HoldsInput s b) (hlen : b.length ∈ [1, 2, 4, 8]) :
    exec .viDec s = .next (complete b.length (fun r => { r with
      rVal := BitVec.ofNat 64 (varIntValue b)
      rWid := BitVec.ofNat 4 b.length
      rCur := b.length }) s) := by
  have htake : take s 0 b.length = .ok (b, b.length) := by simpa using hb.take_field [] b [] (by simp)
  simp only [List.mem_cons, List.not_mem_nil, or_false] at hlen
  rw [exec_viDec, guardInput_of_le hb.capacity, viDecode, hb.ilen, if_pos hlen, htake]
  rfl

/-- VI_DEC of a buffer of any other length (R132). -/
theorem exec_viDec_of_badLength {s : State} (hcap : s.op.ilen ≤ s.params.bufMax) (hlen : s.op.ilen ∉ [1, 2, 4, 8]) :
    exec .viDec s = .next (raiseError .invalidLength 0 s) := by
  simp only [List.mem_cons, List.not_mem_nil, or_false] at hlen
  rw [exec_viDec, guardInput_of_le hcap, viDecode, if_neg hlen]
  rfl

/-- VI_ENC of a value that a VarInt can hold (R133). -/
theorem exec_viEnc_of_le {s : State} (h : s.op.rVal.toNat ≤ 2 ^ 62 - 1) :
    exec .viEnc s = .next (completeEncode (emit Out.empty (varIntField s.op.rVal.toNat))
      (fun r => { r with rWid := BitVec.ofNat 4 (varIntField s.op.rVal.toNat).length }) s) := by
  rw [exec_viEnc, viEncode, encVarInt_eq_varIntField h]
  rfl

/-- VI_ENC of a value above every VarInt (R133). -/
theorem exec_viEnc_of_lt {s : State} (h : 2 ^ 62 - 1 < s.op.rVal.toNat) :
    exec .viEnc s = .next (raiseError .valueTooLarge 0 s) := by
  rw [exec_viEnc, viEncode, encVarInt_of_lt h]
  rfl

/-- An encode that emits `b` into the empty `OBUF` leaves it there, `OLEN` and `R_CUR` its length (R68, R32). -/
theorem completeEncode_holdsOutput (b : List Octet) (write : ResultRegs → ResultRegs) (s : State) :
    HoldsOutput (completeEncode (emit Out.empty b) write s) b where
  olen := by simp [emit_empty]
  rCur := by simp [emit_empty]
  octets := by simpa [emit_empty] using Memory.readRange_ofOctets b

/-- A VarInt width fits the four bits of `R_WID`. -/
theorem toNat_ofNat_width {w : Nat} (h : w ∈ [1, 2, 4, 8]) : (BitVec.ofNat 4 w).toNat = w := by
  simp only [List.mem_cons, List.not_mem_nil, or_false] at h
  rw [BitVec.toNat_ofNat]
  omega

/-- A decoded VarInt fits the 64 bits of `R_VAL`. -/
theorem toNat_ofNat_varIntValue {b : List Octet} (h : b.length ∈ [1, 2, 4, 8]) :
    (BitVec.ofNat 64 (varIntValue b)).toNat = varIntValue b := by
  have hlen : 8 * b.length - 2 ≤ 64 := by
    simp only [List.mem_cons, List.not_mem_nil, or_false] at h
    omega
  have hlt : varIntValue b < 2 ^ 64 := (varIntValue_lt b).trans_le (Nat.pow_le_pow_right (by decide) hlen)
  rw [BitVec.toNat_ofNat, Nat.mod_eq_of_lt hlt]

/-! ### The obligations -/

/-- Settles O21: the whole buffer is taken and masked, or its length is refused. -/
theorem viDecClearsTopTwoBits : Obligations.ViDecClearsTopTwoBits := by
  refine ⟨fun s b hb hlen => ?_, fun s hcap hlen => ?_⟩
  · refine ⟨_, exec_viDec_of_holdsInput hb hlen, rfl, complete_kept _ _ _, ?_, toNat_ofNat_width hlen, rfl⟩
    exact (toNat_ofNat_varIntValue hlen).trans (and_ones _ _)
  · exact ⟨_, exec_viDec_of_badLength hcap hlen, rfl, raiseError_kept _ _ _⟩

/-- Settles O22: the output is the minimal field of `R_VAL`. -/
theorem viEncIsMinimal : Obligations.ViEncIsMinimal := by
  refine ⟨fun s h => ?_, fun s h => ?_⟩
  · refine ⟨_, varIntField s.op.rVal.toNat, exec_viEnc_of_le h, rfl, completeEncode_kept _ _ _,
      completeEncode_holdsOutput _ _ _, toNat_ofNat_width (varIntField_length_mem _), isVarIntField_varIntField h,
      varIntValue_varIntField h, fun c hc hval => ?_⟩
    exact hval ▸ varIntField_length_le hc
  · exact ⟨_, exec_viEnc_of_lt h, rfl, raiseError_kept _ _ _⟩

/-- Settles O23: the minimal field has the value; the two octets `40 00` have the value 0 and are not its encoding. -/
theorem varIntRoundTrip : Obligations.VarIntRoundTrip := by
  refine ⟨fun v h => ⟨varIntField v, encVarInt_eq_varIntField h, varIntValue_varIntField h,
    varIntField_length_mem v, ?_, fun w hw hv => ?_⟩, [0x40, 0x00], by decide, by decide⟩
  · rw [varIntField_length]
    exact lt_two_pow_varIntLength h
  · rw [varIntField_length]
    exact varIntLength_le hw hv

/-- Settles O20: the width is read from `R_OCT` alone. -/
theorem viWidGivesWidthOfFirstOctet : Obligations.ViWidGivesWidthOfFirstOctet := by
  intro s
  refine ⟨_, exec_viWid s, rfl, completeWidth_kept _ _, ?_, fun _ _ _ => rfl⟩
  rw [completeWidth_res, varIntWidth_eq_ite]
  split_ifs <;> rfl

end Sys2Proof.Machine

/-! PROOFS. PN_LEN and PN_DEC (41_packet_number.md): the width an octet announces (R154), the value of a buffer by its
length (R155), and what the two commands do (R151, R152). -/

namespace Sys2Proof.Machine

/-! ### The pure functions -/

/-- `o[7:6]`, read off the ranges of the octet. -/
theorem pnLen_eq_ite (o : Octet) : pnLen o = if o.toNat ≤ 0x7F then 1 else if o.toNat ≤ 0xBF then 2 else 4 := by
  have hsel : slice o.toNat 7 6 = o.toNat / 64 := by
    have := o.isLt
    simp only [slice]
    omega
  have := o.isLt
  rw [pnLen, hsel]
  split_ifs <;> omega

/-- Clearing bits of a known length is a remainder; a single octet has none to clear (R155). -/
theorem pnValue_eq_mod {b : List Octet} (h : b.length ∈ [1, 2, 4]) :
    pnValue b = be b % 2 ^ (if b.length = 4 then 30 else if b.length = 2 then 15 else 8) := by
  unfold pnValue
  split_ifs with h4 h2
  · exact and_ones (be b) 30
  · exact and_ones (be b) 15
  · have h1 : b.length = 1 := by simpa [h4, h2] using h
    have hlt : be b < 2 ^ 8 := by simpa [h1] using be_lt b
    rw [Nat.mod_eq_of_lt hlt]

/-- A decoded packet number fits the 64 bits of `R_VAL`. -/
theorem toNat_ofNat_pnValue {b : List Octet} (h : b.length ∈ [1, 2, 4]) :
    (BitVec.ofNat 64 (pnValue b)).toNat = pnValue b := by
  have hbits : (if b.length = 4 then 30 else if b.length = 2 then 15 else 8) ≤ 64 := by split_ifs <;> decide
  have hlt : pnValue b < 2 ^ 64 := by
    rw [pnValue_eq_mod h]
    exact (Nat.mod_lt _ (by positivity)).trans_le (Nat.pow_le_pow_right (by decide) hbits)
  rw [BitVec.toNat_ofNat, Nat.mod_eq_of_lt hlt]

/-! ### PN_LEN and PN_DEC -/

theorem exec_pnLen (s : State) : exec .pnLen s = .next (completeWidth (pnLen s.op.rOct) s) := rfl

theorem exec_pnDec (s : State) : exec .pnDec s = guardInput s (conclude s (pnDecode s)) := rfl

/-- PN_DEC of a buffer that has the length of a packet number (R152). -/
theorem exec_pnDec_of_holdsInput {s : State} {b : List Octet} (hb : HoldsInput s b) (hlen : b.length ∈ [1, 2, 4]) :
    exec .pnDec s = .next (complete b.length (fun r => { r with
      rVal := BitVec.ofNat 64 (pnValue b)
      rWid := BitVec.ofNat 4 b.length
      rCur := b.length }) s) := by
  have htake : take s 0 b.length = .ok (b, b.length) := by simpa using hb.take_field [] b [] (by simp)
  simp only [List.mem_cons, List.not_mem_nil, or_false] at hlen
  rw [exec_pnDec, guardInput_of_le hb.capacity, pnDecode, hb.ilen, if_pos hlen, htake]
  rfl

/-- PN_DEC of a buffer of any other length (R152). -/
theorem exec_pnDec_of_badLength {s : State} (hcap : s.op.ilen ≤ s.params.bufMax) (hlen : s.op.ilen ∉ [1, 2, 4]) :
    exec .pnDec s = .next (raiseError .invalidLength 0 s) := by
  simp only [List.mem_cons, List.not_mem_nil, or_false] at hlen
  rw [exec_pnDec, guardInput_of_le hcap, pnDecode, if_neg hlen]
  rfl

/-! ### The obligations -/

/-- Settles O26: the whole buffer is taken and masked by its length, or its length is refused. -/
theorem pnDecMasksByLength : Obligations.PnDecMasksByLength := by
  refine ⟨fun s b hb hlen => ?_, fun s hcap hlen => ?_⟩
  · have hwidth : b.length ∈ [1, 2, 4, 8] := List.mem_append_left [8] hlen
    exact ⟨_, exec_pnDec_of_holdsInput hb hlen, rfl, complete_kept _ _ _,
      (toNat_ofNat_pnValue hlen).trans (pnValue_eq_mod hlen), toNat_ofNat_width hwidth, rfl⟩
  · exact ⟨_, exec_pnDec_of_badLength hcap hlen, rfl, raiseError_kept _ _ _⟩

/-- Settles O25: the width is read from `R_OCT` alone. -/
theorem pnLenGivesWidthOfFirstOctet : Obligations.PnLenGivesWidthOfFirstOctet := by
  intro s
  refine ⟨_, exec_pnLen s, rfl, completeWidth_kept _ _, ?_, fun _ _ _ => rfl⟩
  rw [completeWidth_res, pnLen_eq_ite]
  split_ifs <;> rfl

end Sys2Proof.Machine

/-! PROOFS. The instruction tables (30_encoding.md section 10): every word of the wire rows is a selector above a field
(R94 to R97), decoding undoes encoding, no word is reserved (R93), and the codes of `STATUS` (10_state.md R22). -/

namespace Sys2Proof.Machine

/-! ### A selector above a field of a word -/

theorem slice_high {n k v lo hi : Nat} (hn : n = k * 2 ^ lo + v) (hv : v < 2 ^ lo) (hk : k < 2 ^ (hi - lo + 1)) :
    slice n hi lo = k := by
  have hdiv : n / 2 ^ lo = k := by
    rw [hn, Nat.mul_comm, Nat.mul_add_div (by positivity), Nat.div_eq_of_lt hv, Nat.add_zero]
  rw [slice, hdiv, Nat.mod_eq_of_lt hk]

theorem slice_field {n k v hi : Nat} (hn : n = k * 2 ^ (hi + 1) + v) (hv : v < 2 ^ (hi + 1)) : slice n hi 0 = v := by
  rw [slice_low, hn, Nat.mul_comm, Nat.mul_add_mod, Nat.mod_eq_of_lt hv]

theorem decodeWord_wire {n : Nat} (f : WireFormat) (h : n < 256) :
    decodeWord (.wire f) n = .ok (decodeFirstOctet f (BitVec.ofNat 8 n)) := if_pos h

theorem toNat_ofNat_octet {n : Nat} (h : n < 256) : (BitVec.ofNat 8 n).toNat = n := by
  rw [BitVec.toNat_ofNat, Nat.mod_eq_of_lt h]

/-- The row of each VarInt selector (R94). -/
def varIntRow (k v : Nat) : Instr :=
  match k with
  | 0 => .varintW1 v
  | 1 => .varintW2 v
  | 2 => .varintW4 v
  | _ => .varintW8 v

theorem decodeWord_varint {n k v : Nat} (hn : n = k * 2 ^ 6 + v) (hk : k < 4) (hv : v < 64) :
    decodeWord (.wire .varint) n = .ok (varIntRow k v) := by
  have hlt : n < 256 := by omega
  rw [decodeWord_wire _ hlt, decodeFirstOctet, toNat_ofNat_octet hlt, slice_high hn hv hk, slice_field hn hv]
  interval_cases k <;> rfl

theorem decodeWord_pnW1 {n : Nat} (h : n < 128) : decodeWord (.wire .packetNumber) n = .ok (.pnW1 n) := by
  have hlt : n < 256 := by omega
  have hsel : slice n 7 6 < 2 := by simp only [slice]; omega
  have hval : slice n 6 0 = n := slice_field (k := 0) (by omega) h
  rw [decodeWord_wire _ hlt, decodeFirstOctet, toNat_ofNat_octet hlt, hval]
  interval_cases slice n 7 6 <;> rfl

theorem decodeWord_pnW2 {n v : Nat} (hn : n = 2 * 2 ^ 6 + v) (hv : v < 64) :
    decodeWord (.wire .packetNumber) n = .ok (.pnW2 v) := by
  have hlt : n < 256 := by omega
  rw [decodeWord_wire _ hlt, decodeFirstOctet, toNat_ofNat_octet hlt, slice_high hn hv (by decide), slice_field hn hv]
  rfl

theorem decodeWord_pnW4 {n v : Nat} (hn : n = 3 * 2 ^ 6 + v) (hv : v < 64) :
    decodeWord (.wire .packetNumber) n = .ok (.pnW4 v) := by
  have hlt : n < 256 := by omega
  rw [decodeWord_wire _ hlt, decodeFirstOctet, toNat_ofNat_octet hlt, slice_high hn hv (by decide), slice_field hn hv]
  rfl

theorem decodeWord_cil {n d c : Nat} (hn : n = d * 2 ^ 4 + c) (hd : d < 16) (hc : c < 16) :
    decodeWord (.wire .cil) n = .ok (.cilOctet d c) := by
  have hlt : n < 256 := by omega
  rw [decodeWord_wire _ hlt, decodeFirstOctet, toNat_ofNat_octet hlt, slice_high hn hc hd, slice_field hn hc]

theorem decodeWord_pktShort {n : Nat} (h : n < 128) : decodeWord (.wire .packet) n = .ok (.pktShort n) := by
  have hn : n = 0 * 2 ^ 7 + n := by omega
  have hlt : n < 256 := by omega
  rw [decodeWord_wire _ hlt, decodeFirstOctet, toNat_ofNat_octet hlt, slice_high hn h (by decide), slice_field hn h]
  rfl

theorem decodeWord_pktLong {n v : Nat} (hn : n = 1 * 2 ^ 7 + v) (hv : v < 128) :
    decodeWord (.wire .packet) n = .ok (.pktLong v) := by
  have hlt : n < 256 := by omega
  rw [decodeWord_wire _ hlt, decodeFirstOctet, toNat_ofNat_octet hlt, slice_high hn hv (by decide), slice_field hn hv]
  rfl

/-! ### The words of the wire rows as sums -/

/-- A constant above every bit of a field, written on its left. -/
theorem shift_or {v k : Nat} (s : Nat) (h : v < 2 ^ k) : s <<< k ||| v = s * 2 ^ k + v :=
  (Nat.or_comm _ _).trans (or_shift v s k h)

theorem encode_varIntRow {k v : Nat} (hk : k < 4) (hv : v < 64) : encode (varIntRow k v) = k * 2 ^ 6 + v := by
  interval_cases k
  · simp [varIntRow, encode]
  · exact shift_or (k := 6) 1 hv
  · exact shift_or (k := 6) 2 hv
  · exact shift_or (k := 6) 3 hv

theorem varIntRow_wellFormed {k v : Nat} (hv : v < 64) : (varIntRow k v).wellFormed = true := by
  unfold varIntRow
  split <;> exact decide_eq_true hv

theorem sourceOf_varIntRow (k v : Nat) : sourceOf (varIntRow k v) = .wire .varint := by
  unfold varIntRow
  split <;> rfl

theorem encode_pnW2 {v : Nat} (hv : v < 64) : encode (.pnW2 v) = 2 * 2 ^ 6 + v := shift_or (k := 6) 2 hv

theorem encode_pnW4 {v : Nat} (hv : v < 64) : encode (.pnW4 v) = 3 * 2 ^ 6 + v := shift_or (k := 6) 3 hv

theorem encode_cilOctet {d c : Nat} (hc : c < 16) : encode (.cilOctet d c) = d * 2 ^ 4 + c :=
  shift_or d hc

theorem encode_pktLong {t : Nat} (ht : t < 128) : encode (.pktLong t) = 1 * 2 ^ 7 + t := shift_or (k := 7) 1 ht

/-! ### The obligations -/

/-- Settles O1: a command by its code; a wire row by the selector and the field its word is the sum of. -/
theorem decodeOfEncode : Obligations.DecodeOfEncode := by
  intro i h
  cases i with
  | varintW1 v =>
    have hv : v < 64 := of_decide_eq_true h
    exact decodeWord_varint (encode_varIntRow (k := 0) (by decide) hv) (by decide) hv
  | varintW2 v =>
    have hv : v < 64 := of_decide_eq_true h
    exact decodeWord_varint (encode_varIntRow (k := 1) (by decide) hv) (by decide) hv
  | varintW4 v =>
    have hv : v < 64 := of_decide_eq_true h
    exact decodeWord_varint (encode_varIntRow (k := 2) (by decide) hv) (by decide) hv
  | varintW8 v =>
    have hv : v < 64 := of_decide_eq_true h
    exact decodeWord_varint (encode_varIntRow (k := 3) (by decide) hv) (by decide) hv
  | pnW1 v => exact decodeWord_pnW1 (of_decide_eq_true h)
  | pnW2 v => exact decodeWord_pnW2 (encode_pnW2 (of_decide_eq_true h)) (of_decide_eq_true h)
  | pnW4 v => exact decodeWord_pnW4 (encode_pnW4 (of_decide_eq_true h)) (of_decide_eq_true h)
  | cilOctet d c =>
    obtain ⟨hd, hc⟩ : d < 16 ∧ c < 16 := by simpa [Instr.wellFormed] using h
    exact decodeWord_cil (encode_cilOctet hc) hd hc
  | pktShort x => exact decodeWord_pktShort (of_decide_eq_true h)
  | pktLong t => exact decodeWord_pktLong (encode_pktLong (of_decide_eq_true h)) (of_decide_eq_true h)
  | _ => rfl

/-- Every octet is the word of a well-formed row of each wire format (R94 to R97). -/
theorem exists_wireRow (f : WireFormat) {n : Nat} (h : n < 256) :
    ∃ i : Instr, i.wellFormed = true ∧ sourceOf i = .wire f ∧ encode i = n := by
  have hlow : n % 64 < 64 := Nat.mod_lt _ (by decide)
  cases f with
  | varint =>
    refine ⟨varIntRow (n / 64) (n % 64), varIntRow_wellFormed hlow, sourceOf_varIntRow _ _, ?_⟩
    rw [encode_varIntRow (by omega) hlow]
    omega
  | packetNumber =>
    rcases (by omega : n < 128 ∨ n = 2 * 2 ^ 6 + n % 64 ∨ n = 3 * 2 ^ 6 + n % 64) with h1 | h2 | h4
    · exact ⟨.pnW1 n, decide_eq_true h1, rfl, rfl⟩
    · exact ⟨.pnW2 (n % 64), decide_eq_true hlow, rfl, (encode_pnW2 hlow).trans h2.symm⟩
    · exact ⟨.pnW4 (n % 64), decide_eq_true hlow, rfl, (encode_pnW4 hlow).trans h4.symm⟩
  | cil =>
    have hc : n % 16 < 16 := Nat.mod_lt _ (by decide)
    refine ⟨.cilOctet (n / 16) (n % 16), by simp [Instr.wellFormed]; omega, rfl, ?_⟩
    rw [encode_cilOctet hc]
    omega
  | packet =>
    rcases (by omega : n < 128 ∨ (n % 128 < 128 ∧ n = 1 * 2 ^ 7 + n % 128)) with h0 | ⟨hv, h1⟩
    · exact ⟨.pktShort n, decide_eq_true h0, rfl, rfl⟩
    · exact ⟨.pktLong (n % 128), decide_eq_true hv, rfl, (encode_pktLong hv).trans h1.symm⟩

/-- Each of the sixteen codes is the code of a command (R92, R93). -/
theorem exists_command (c : BitVec 4) : ∃ i : Instr, i.wellFormed = true ∧ sourceOf i = .command ∧ encode i = c.toNat := by
  have table : ∀ c : BitVec 4, (decodeCommand c).wellFormed = true ∧ sourceOf (decodeCommand c) = .command ∧
      encode (decodeCommand c) = c.toNat := by decide
  exact ⟨decodeCommand c, table c⟩

/-- Settles O2: every word is the word of a well-formed row, and decoding undoes encoding. -/
theorem everyWordHasOneInstruction : Obligations.EveryWordHasOneInstruction := by
  refine ⟨fun c => ?_, fun f o => ?_⟩
  · obtain ⟨i, hwf, hsrc, henc⟩ := exists_command c
    exact ⟨i, by rw [← hsrc, ← henc, decodeOfEncode i hwf], hwf, hsrc, henc⟩
  · obtain ⟨i, hwf, hsrc, henc⟩ := exists_wireRow f o.isLt
    exact ⟨i, by rw [← hsrc, ← henc, decodeOfEncode i hwf], hwf, hsrc, henc⟩

/-- Settles O3: the table of R92, code by code. -/
theorem commandCodes : Obligations.CommandCodes :=
  ⟨rfl, rfl, rfl, rfl, rfl, rfl, rfl, rfl, rfl, rfl, rfl, rfl, rfl, rfl, rfl, rfl⟩

/-- Settles O4: ten octets, each a row's selector above a field. -/
theorem wireFirstOctets : Obligations.WireFirstOctets :=
  ⟨rfl, rfl, rfl, rfl, rfl, rfl, rfl, rfl, rfl, rfl⟩

/-- Settles O14: the code and the sub-kind bit of each error kind. -/
theorem errorCodesOfStatus : Obligations.ErrorCodesOfStatus := by
  refine ⟨by decide, fun e => ?_, fun e => ?_⟩
  · cases e <;> decide
  · cases e <;> rfl

end Sys2Proof.Machine

/-! PROOFS. The packet-number encoder (41_packet_number.md): the field of a value in a width (R156, R157), the range of
a framed field (R158), and PN_ENC (R153). -/

namespace Sys2Proof.Machine

/-! ### The field of a packet number in its width -/

/-- The value bits of a packet number of width `w` (R95). -/
def pnBits (w : Nat) : Nat := if w = 2 then 14 else if w = 1 then 7 else 30

@[simp] theorem pnBits_zero : pnBits 0 = 30 := rfl
@[simp] theorem pnBits_one : pnBits 1 = 7 := rfl
@[simp] theorem pnBits_two : pnBits 2 = 14 := rfl
@[simp] theorem pnBits_four : pnBits 4 = 30 := rfl

theorem pnFits_iff (pn : PacketNumber) :
    pn.fits = true ↔ pn.width ∈ [1, 2, 4] ∧ pn.value < 2 ^ pnBits pn.width := by
  obtain ⟨v, w⟩ := pn
  simp only [PacketNumber.fits, Bool.or_eq_true, Bool.and_eq_true, beq_iff_eq, decide_eq_true_eq,
    List.mem_cons, List.not_mem_nil, or_false]
  constructor
  · rintro ((⟨rfl, h⟩ | ⟨rfl, h⟩) | ⟨rfl, h⟩) <;> simpa using h
  · rintro ⟨rfl | rfl | rfl, h⟩ <;> simpa using h

theorem pnField_length {pn : PacketNumber} (h : pn.width ∈ [1, 2, 4]) : (pnField pn).length = pn.width := by
  simp only [List.mem_cons, List.not_mem_nil, or_false] at h
  unfold pnField
  split_ifs <;> rw [beN_length] <;> omega

/-- The leading octet of a packet number field announces the field's width (R154). -/
theorem isPnField_pnField {pn : PacketNumber} (h : pn.fits = true) : isPnField (pnField pn) = true := by
  obtain ⟨hw, hv⟩ := (pnFits_iff pn).mp h
  obtain ⟨v, w⟩ := pn
  simp only [List.mem_cons, List.not_mem_nil, or_false] at hw
  rcases hw with rfl | rfl | rfl
  · simp only [pnBits_one] at hv
    simp [pnField, beN, isPnField, pnLen_eq_ite]
    omega
  · simp only [pnBits_two] at hv
    have h1 : ¬ (32768 + v) / 256 % 256 ≤ 127 := by omega
    have h2 : (32768 + v) / 256 % 256 ≤ 191 := by omega
    simp [pnField, beN, isPnField, pnLen_eq_ite, h1, h2]
  · simp only [pnBits_four] at hv
    have h1 : ¬ (3221225472 + v) / 16777216 % 256 ≤ 127 := by omega
    have h2 : ¬ (3221225472 + v) / 16777216 % 256 ≤ 191 := by omega
    simp [pnField, beN, isPnField, pnLen_eq_ite, h1, h2]

theorem pnValue_pnField {pn : PacketNumber} (h : pn.fits = true) : pnValue (pnField pn) = pn.value := by
  obtain ⟨hw, hv⟩ := (pnFits_iff pn).mp h
  rw [pnValue_eq_mod (by rwa [pnField_length hw]), pnField_length hw]
  obtain ⟨v, w⟩ := pn
  simp only [List.mem_cons, List.not_mem_nil, or_false] at hw
  rcases hw with rfl | rfl | rfl <;> simp at hv <;> simp [pnField, be_beN] <;> omega

theorem isPnField_length_mem {b : List Octet} (h : isPnField b = true) : b.length ∈ [1, 2, 4] := by
  cases b with
  | nil => simp [isPnField] at h
  | cons o b =>
    have hlen : b.length + 1 = pnLen o := by simpa [isPnField] using h
    simpa [hlen] using pnLen_cases o

/-- The announcing bits are gone from the value of a framed field, also the second one of width 2 (R158). -/
theorem pnValue_lt {b : List Octet} (h : isPnField b = true) : pnValue b < 2 ^ pnBits b.length := by
  have hlen := isPnField_length_mem h
  have hmod := pnValue_eq_mod hlen
  cases b with
  | nil => simp at hlen
  | cons o b =>
    have hw : b.length + 1 = pnLen o := by simpa [isPnField] using h
    have hrest := be_lt b
    rw [pnLen_eq_ite] at hw
    rw [be_cons] at hmod
    split_ifs at hw with h1 h2
    · simp_all
      omega
    · simp_all
      omega
    · simp_all
      omega

/-! ### The width and the encoder -/

/-- The least width that holds a value (R156). -/
def leastPnWidth (v : Nat) : Nat := if v ≤ 0x7F then 1 else if v ≤ 0x3FFF then 2 else 4

theorem leastPnWidth_mem (v : Nat) : leastPnWidth v ∈ [1, 2, 4] := by
  unfold leastPnWidth
  split_ifs <;> decide

theorem lt_leastPnWidth {v : Nat} (h : v < 2 ^ 30) : v < 2 ^ pnBits (leastPnWidth v) := by
  unfold leastPnWidth
  split_ifs <;> simp [pnBits] <;> omega

theorem leastPnWidth_le {v w : Nat} (hw : w ∈ [1, 2, 4]) (hv : v < 2 ^ pnBits w) : leastPnWidth v ≤ w := by
  simp only [List.mem_cons, List.not_mem_nil, or_false] at hw
  unfold leastPnWidth
  rcases hw with rfl | rfl | rfl <;> simp [pnBits] at hv <;> split_ifs <;> omega

theorem pnWidth_of_mem {v w : Nat} (hw : w ∈ [1, 2, 4]) : pnWidth v w = .ok w := by
  rw [pnWidth, if_pos (by simpa using hw)]

theorem pnWidth_zero {v : Nat} (hv : v < 2 ^ 30) : pnWidth v 0 = .ok (leastPnWidth v) := by
  have h4 : v ≤ 0x3FFFFFFF := by omega
  simp only [pnWidth, leastPnWidth, h4, if_true]
  split_ifs <;> simp_all

/-- Once the width is known `EncPN` emits the field of that width: the constant is ORed above the value bits
(R156, R160). -/
theorem encPn_of_pnWidth {v w k : Nat} (hk : pnWidth v w = .ok k) (hmem : k ∈ [1, 2, 4]) (hv : v < 2 ^ pnBits k) :
    encPn v w = .ok (pnField ⟨v, k⟩) := by
  simp only [List.mem_cons, List.not_mem_nil, or_false] at hmem
  rcases hmem with rfl | rfl | rfl <;> simp only [pnBits_one, pnBits_two, pnBits_four] at hv <;> rw [encPn, hk] <;>
    dsimp only
  · rw [if_pos rfl, if_neg (by omega)]; rfl
  · rw [if_neg (by decide), if_pos rfl, if_neg (by omega)]
    exact congrArg (fun n => Except.ok (beN 2 n)) (or_shift v 2 14 hv)
  · rw [if_neg (by decide), if_neg (by decide), if_neg (by omega)]
    exact congrArg (fun n => Except.ok (beN 4 n)) (or_shift v 3 30 hv)

theorem encPn_of_mem {v w : Nat} (hw : w ∈ [1, 2, 4]) (hv : v < 2 ^ pnBits w) : encPn v w = .ok (pnField ⟨v, w⟩) :=
  encPn_of_pnWidth (pnWidth_of_mem hw) hw hv

theorem encPn_zero {v : Nat} (hv : v < 2 ^ 30) : encPn v 0 = .ok (pnField ⟨v, leastPnWidth v⟩) :=
  encPn_of_pnWidth (pnWidth_zero hv) (leastPnWidth_mem v) (lt_leastPnWidth hv)

/-- A width request outside 0, 1, 2, 4 is judged before the value (R156, R268). -/
theorem encPn_badRequest {v w : Nat} (hw : w ∉ [0, 1, 2, 4]) : encPn v w = .error .invalidLength := by
  simp only [List.mem_cons, List.not_mem_nil, or_false, not_or] at hw
  obtain ⟨h0, h1, h2, h4⟩ := hw
  simp [encPn, pnWidth, h0, h1, h2, h4]

theorem encPn_tooLarge {v w : Nat} (hw : w ∈ [0, 1, 2, 4]) (hv : 2 ^ pnBits w ≤ v) :
    encPn v w = .error .valueTooLarge := by
  simp only [List.mem_cons, List.not_mem_nil, or_false] at hw
  rcases hw with rfl | hw
  · have h1 : ¬ v ≤ 0x7F := by rw [pnBits_zero] at hv; omega
    have h2 : ¬ v ≤ 0x3FFF := by rw [pnBits_zero] at hv; omega
    have h4 : ¬ v ≤ 0x3FFFFFFF := by rw [pnBits_zero] at hv; omega
    simp [encPn, pnWidth, h1, h2, h4]
  · rcases hw with rfl | rfl | rfl <;> simp at hv <;> simp [encPn, pnWidth] <;> omega

/-- What `EncPN` answers is the field of the value in a width that holds it (R156). -/
theorem encPn_eq_ok {v w : Nat} {b : List Octet} (h : encPn v w = .ok b) :
    b = pnField ⟨v, b.length⟩ ∧ PacketNumber.fits ⟨v, b.length⟩ = true := by
  obtain ⟨hmem, hwidth⟩ := encPn_ok h
  have hreq : w ∈ [0, 1, 2, 4] := by
    by_contra hbad
    simp [encPn_badRequest hbad] at h
  have hlt : v < 2 ^ pnBits b.length := by
    by_contra hge
    have hlarge : 2 ^ pnBits w ≤ v := by
      by_cases h0 : w = 0
      · subst h0
        by_contra hv
        have hleast : pnWidth v 0 = .ok (leastPnWidth v) := pnWidth_zero (by simpa [pnBits] using hv)
        have hlen : b.length = leastPnWidth v := by simpa [hleast] using hwidth.symm
        exact hge (hlen ▸ lt_leastPnWidth (by simpa [pnBits] using hv))
      · have hlen : pnWidth v w = .ok w := pnWidth_of_mem (by simpa [h0] using hreq)
        have hbw : b.length = w := by simpa [hlen] using hwidth.symm
        exact hbw ▸ not_lt.mp hge
    simp [encPn_tooLarge hreq hlarge] at h
  rw [encPn_of_pnWidth hwidth hmem hlt, Except.ok.injEq] at h
  exact ⟨h.symm, (pnFits_iff _).mpr ⟨hmem, hlt⟩⟩

/-! ### PN_ENC -/

theorem exec_pnEnc (s : State) : exec .pnEnc s = conclude s (pnEncode s) := rfl

/-- PN_ENC of a value whose field is `b` (R153). -/
theorem exec_pnEnc_of_ok {s : State} {b : List Octet} (h : encPn s.op.rVal.toNat s.op.rWid.toNat = .ok b) :
    exec .pnEnc s = .next (completeEncode (emit Out.empty b) (fun r => { r with rWid := BitVec.ofNat 4 b.length }) s) := by
  rw [exec_pnEnc, pnEncode, h]
  rfl

theorem exec_pnEnc_of_error {s : State} {e : ErrorKind} (h : encPn s.op.rVal.toNat s.op.rWid.toNat = .error e) :
    exec .pnEnc s = .next (raiseError e 0 s) := by
  rw [exec_pnEnc, pnEncode, h]
  rfl

/-- A packet-number width fits the four bits of `R_WID`. -/
theorem toNat_ofNat_pnWidth {w : Nat} (h : w ∈ [1, 2, 4]) : (BitVec.ofNat 4 w).toNat = w :=
  toNat_ofNat_width (List.mem_append_left [8] h)

/-! ### The obligations -/

/-- Settles O28: the width asked for, or the least, holds the value; the field of that width gives it back. -/
theorem packetNumberRoundTrip : Obligations.PacketNumberRoundTrip := by
  intro v w hw hv
  by_cases h0 : w = 0
  · subst h0
    have hfit : PacketNumber.fits ⟨v, leastPnWidth v⟩ = true :=
      (pnFits_iff _).mpr ⟨leastPnWidth_mem v, lt_leastPnWidth hv⟩
    refine ⟨_, encPn_zero hv, isPnField_pnField hfit, pnValue_pnField hfit, by simp, fun _ k hk hvk => ?_⟩
    rw [pnField_length (leastPnWidth_mem v)]
    exact leastPnWidth_le hk hvk
  · have hmem : w ∈ [1, 2, 4] := by simpa [h0] using hw
    have hfit : PacketNumber.fits ⟨v, w⟩ = true := (pnFits_iff _).mpr ⟨hmem, hv⟩
    exact ⟨_, encPn_of_mem hmem hv, isPnField_pnField hfit, pnValue_pnField hfit, fun _ => pnField_length hmem,
      fun h => absurd h h0⟩

/-- Settles O29: a framed field has one of three lengths, and its value is below that length's range. -/
theorem framedPacketNumberRange : Obligations.FramedPacketNumberRange := by
  intro b h
  have hlt := pnValue_lt h
  have hlen := isPnField_length_mem h
  simp only [List.mem_cons, List.not_mem_nil, or_false] at hlen
  rcases hlen with h1 | h2 | h4
  · exact .inl ⟨h1, by simpa [h1, pnBits] using hlt⟩
  · exact .inr (.inl ⟨h2, by simpa [h2, pnBits] using hlt⟩)
  · exact .inr (.inr ⟨h4, by simpa [h4, pnBits] using hlt⟩)

/-- Settles O27: PN_ENC emits what `EncPN` answers, and raises what it raises. -/
theorem pnEncFollowsWidthRequest : Obligations.PnEncFollowsWidthRequest := by
  refine ⟨fun s w hreq hw hv => ?_, fun s hreq hv => ?_, fun s hreq => ?_, fun s w hreq hw hv => ?_⟩
  · have hlt : s.op.rVal.toNat < 2 ^ pnBits w := by
      simp only [List.mem_cons, List.not_mem_nil, or_false] at hw
      rcases hw with rfl | rfl | rfl <;> exact hv
    have hfit : PacketNumber.fits ⟨s.op.rVal.toNat, w⟩ = true := (pnFits_iff _).mpr ⟨hw, hlt⟩
    refine ⟨_, _, exec_pnEnc_of_ok (by rw [hreq]; exact encPn_of_mem hw hlt), rfl, completeEncode_kept _ _ _,
      completeEncode_holdsOutput _ _ _, pnField_length hw, ?_, isPnField_pnField hfit, pnValue_pnField hfit⟩
    rw [completeEncode_res_rWid, pnField_length hw]
    exact toNat_ofNat_pnWidth hw
  · have hmem := leastPnWidth_mem s.op.rVal.toNat
    have hfit : PacketNumber.fits ⟨s.op.rVal.toNat, leastPnWidth s.op.rVal.toNat⟩ = true :=
      (pnFits_iff _).mpr ⟨hmem, lt_leastPnWidth hv⟩
    refine ⟨_, _, exec_pnEnc_of_ok (by rw [hreq]; exact encPn_zero hv), rfl, completeEncode_kept _ _ _,
      completeEncode_holdsOutput _ _ _, toNat_ofNat_pnWidth (by rwa [pnField_length hmem]), isPnField_pnField hfit,
      pnValue_pnField hfit, fun c hc hval => ?_⟩
    rw [pnField_length hmem]
    exact leastPnWidth_le (isPnField_length_mem hc) (hval ▸ pnValue_lt hc)
  · exact ⟨_, exec_pnEnc_of_error (encPn_badRequest hreq), rfl, raiseError_kept _ _ _⟩
  · exact ⟨_, exec_pnEnc_of_error (by rw [hreq]; exact encPn_tooLarge hw hv), rfl, raiseError_kept _ _ _⟩

end Sys2Proof.Machine

/-! PROOFS. The steps of the operations as sequences: each is a chain of binds, and two lemmas take a chain apart
(R180, R268). -/

namespace Sys2Proof.Machine

/-! ### Taking a sequence of steps apart -/

section chain
variable {ε α β : Type} {r : Except ε α} {k : α → Except ε β} {f : α → β}

theorem bind_eq_ok {b : β} : r.bind k = .ok b ↔ ∃ a, r = .ok a ∧ k a = .ok b := by
  cases r <;> simp [Except.bind]

theorem bind_eq_error {x : ε} : r.bind k = .error x ↔ r = .error x ∨ ∃ a, r = .ok a ∧ k a = .error x := by
  cases r <;> simp [Except.bind]

theorem map_eq_ok {b : β} : r.map f = .ok b ↔ ∃ a, r = .ok a ∧ f a = b := by
  cases r <;> simp [Except.map]

theorem map_eq_error {x : ε} : r.map f = .error x ↔ r = .error x := by
  cases r <;> simp [Except.map]

end chain

theorem raising_eq_ok {α : Type} {cur : Nat} {r : Except ErrorKind α} {a : α} : raising cur r = .ok a ↔ r = .ok a := by
  cases r <;> simp [raising]

theorem raising_eq_error {α : Type} {cur : Nat} {r : Except ErrorKind α} {x : Stop} :
    raising cur r = .error x ↔ ∃ e, r = .error e ∧ x = .raised e cur := by
  cases r <;> simp [raising, eq_comm]

/-! ### The reading steps -/

theorem take_eq_bind (s : State) (cur n : Nat) :
    take s cur n = (skip s cur n).bind fun c => (readInput s cur n).map fun b => (b, c) := by
  unfold take
  rcases skip s cur n with _ | c
  · rfl
  dsimp only [Except.bind]
  cases readInput s cur n <;> rfl

theorem takeAfterFirst_eq_bind (s : State) (cur : Nat) (first : Octet) (w : Nat) :
    takeAfterFirst s cur first w =
      (skip s cur w).bind fun c => (readInput s (cur + 1) (w - 1)).map fun b => (first :: b, c) := by
  unfold takeAfterFirst
  rcases skip s cur w with _ | c
  · rfl
  dsimp only [Except.bind]
  cases readInput s (cur + 1) (w - 1) <;> rfl

theorem readIds_eq_bind (s : State) (cur d c : Nat) :
    readIds s cur d c = (take s cur d).bind fun p => (take s p.2 c).map fun q => ⟨d, c, p.1, q.1, q.2⟩ := by
  unfold readIds
  rcases take s cur d with _ | ⟨b, c1⟩
  · rfl
  dsimp only [Except.bind]
  cases take s c1 c <;> rfl

theorem readCids_eq_bind (s : State) (cur : Nat) :
    readCids s cur = (take s cur 1).bind fun p => readIds s p.2 (slice (be p.1) 7 4) (slice (be p.1) 3 0) := by
  unfold readCids
  cases take s cur 1 <;> rfl

theorem readVarInt_eq_bind (s : State) (cur : Nat) :
    readVarInt s cur = (peek s cur 0).bind fun o =>
      (take s cur (varIntWidth o)).map fun p => ⟨varIntValue p.1, varIntWidth o, p.2⟩ := by
  unfold readVarInt
  rcases peek s cur 0 with _ | o
  · rfl
  dsimp only [Except.bind]
  cases take s cur (varIntWidth o) <;> rfl

theorem readPn_eq_bind (s : State) (cur : Nat) :
    readPn s cur = (peek s cur 0).bind fun o =>
      (take s cur (pnLen o)).map fun p => ⟨pnValue p.1, pnLen o, p.2⟩ := by
  unfold readPn
  rcases peek s cur 0 with _ | o
  · rfl
  dsimp only [Except.bind]
  cases take s cur (pnLen o) <;> rfl

/-- The fields before the `length`-delimited region, in the order in which `LongCommon()` reads them (R183, R186). -/
structure LongHead where
  type : Nat
  version : Nat
  ids : Ids
  len : VarIntItem
  pn : PnItem

/-- Steps 1 to 5 of `LongCommon()`: every check of them is against the buffer (R183). -/
def longHead (s : State) : Except Stop LongHead :=
  (take s 0 1).bind fun o => (take s o.2 4).bind fun v => (readCids s v.2).bind fun ids =>
    (readVarInt s ids.cur).bind fun len => (readPn s len.cur).map fun pn =>
      ⟨slice (be o.1) 6 0, be v.1, ids, len, pn⟩

/-- What `LongCommon()` answers from its head and the region's bounds. -/
def LongHead.fields (h : LongHead) (region : Nat × Nat) : LongFields where
  type := h.type
  version := h.version
  ids := h.ids
  len := h.len.value
  pn := h.pn
  regionStart := region.1
  regionEnd := region.2

/-- `LongCommon()` is its head, then the two checks on `length` (R183, R186). -/
theorem longCommon_eq_bind (s : State) :
    longCommon s = (longHead s).bind fun h => (longRegion s h.len.value h.pn).map h.fields := by
  unfold longCommon longHead
  rcases take s 0 1 with _ | ⟨o, c1⟩
  · rfl
  dsimp only [Except.bind]
  rcases take s c1 4 with _ | ⟨v, c2⟩
  · rfl
  dsimp only [Except.bind]
  rcases readCids s c2 with _ | ids
  · rfl
  dsimp only [Except.bind]
  rcases readVarInt s ids.cur with _ | len
  · rfl
  dsimp only [Except.bind]
  rcases readPn s len.cur with _ | pn
  · rfl
  dsimp only [Except.bind]
  dsimp only [Except.map]
  cases longRegion s len.value pn <;> rfl

theorem takeR_eq_bind (s : State) (cur n e : Nat) :
    takeR s cur n e = (skipR s cur n e).bind fun c => (readInput s cur n).map fun b => (b, c) := by
  unfold takeR
  rcases skipR s cur n e with _ | c
  · rfl
  dsimp only [Except.bind]
  cases readInput s cur n <;> rfl

theorem readVarIntR_eq_bind (s : State) (cur e : Nat) :
    readVarIntR s cur e = (takeR s cur 1 e).bind fun p =>
      (takeR s cur (varIntWidth (BitVec.ofNat 8 (be p.1))) e).map fun q =>
        ⟨varIntValue q.1, varIntWidth (BitVec.ofNat 8 (be p.1)), q.2⟩ := by
  unfold readVarIntR
  rcases takeR s cur 1 e with _ | ⟨o, c⟩
  · rfl
  dsimp only [Except.bind]
  cases takeR s cur (varIntWidth (BitVec.ofNat 8 (be o))) e <;> rfl

theorem peekVersion_eq_bind (s : State) :
    peekVersion s = (peek s 0 1).bind fun b1 => (peek s 0 2).bind fun b2 => (peek s 0 3).bind fun b3 =>
      (peek s 0 4).map fun b4 => be [b1, b2, b3, b4] := by
  unfold peekVersion
  rcases peek s 0 1 with _ | b1
  · rfl
  dsimp only [Except.bind]
  rcases peek s 0 2 with _ | b2
  · rfl
  dsimp only [Except.bind]
  rcases peek s 0 3 with _ | b3
  · rfl
  dsimp only [Except.bind]
  cases peek s 0 4 <;> rfl

theorem pkParse_eq_bind (s : State) : pkParse s = (peek s 0 0).bind (routePacket s) := by
  unfold pkParse
  cases peek s 0 0 <;> rfl

theorem readVersions_succ (s : State) (fuel cur : Nat) (vs : List Version) :
    readVersions s (fuel + 1) cur vs =
      if cur < s.op.ilen then
        (take s cur 4).bind fun p => readVersions s fuel p.2 (insertVersion (BitVec.ofNat 32 (be p.1)) vs)
      else .ok (vs, cur) := by
  rw [readVersions]
  split
  · cases take s cur 4 <;> rfl
  · rfl

/-! ### The parsers -/

/-- The registers LH_DEC writes (R182). -/
def writeLongForm (f : LongFields) (r : ResultRegs) : ResultRegs :=
  { writeLong f r with
    hForm := 0
    hPayOff := f.regionStart
    hPayLen := f.regionEnd - f.regionStart
    rCur := f.regionEnd }

/-- The registers IP_DEC writes, its payload at `pay` (R187). -/
def writeInitial (f : LongFields) (tl : VarIntItem) (pay : Nat) (r : ResultRegs) : ResultRegs :=
  { writeLong f r with
    hForm := 3
    hTokLen := BitVec.ofNat 62 tl.value
    hTokOff := tl.cur
    hPayOff := pay
    hPayLen := f.regionEnd - pay
    rCur := f.regionEnd }

/-- The registers VN_DEC writes (R190). -/
def writeVersionNegotiation (ids : Ids) (vs : List Version) (cur : Nat) (r : ResultRegs) : ResultRegs :=
  { writeIds ids r with
    hForm := 2
    hVer := 0
    nver := vs.length
    vers := writeVersions vs r.vers
    rCur := cur }

@[simp] theorem writeLongForm_hForm (f : LongFields) (r : ResultRegs) : (writeLongForm f r).hForm = 0 := rfl
@[simp] theorem writeInitial_hForm (f : LongFields) (tl : VarIntItem) (pay : Nat) (r : ResultRegs) :
    (writeInitial f tl pay r).hForm = 3 := rfl
@[simp] theorem writeVersionNegotiation_hForm (ids : Ids) (vs : List Version) (cur : Nat) (r : ResultRegs) :
    (writeVersionNegotiation ids vs cur r).hForm = 2 := rfl

/-- LH_DEC fails only where `LongCommon()` does: the region it skips lies in the buffer (R182, R186). -/
theorem lhDecode_eq_map (s : State) :
    lhDecode s = (longCommon s).map fun f => complete f.regionEnd (writeLongForm f) s := by
  unfold lhDecode
  cases h : longCommon s with
  | error => rfl
  | ok f =>
    obtain ⟨hle, hbuf, _⟩ := longCommon_ok h
    have hskip : skip s f.regionStart (f.regionEnd - f.regionStart) = .ok f.regionEnd := by
      rw [skip_of_le (by omega), Nat.add_sub_cancel' hle]
    simp only [hskip]
    rfl

theorem ipDecode_eq_bind (s : State) :
    ipDecode s = (longCommon s).bind fun f => (readVarIntR s f.regionStart f.regionEnd).bind fun tl =>
      (skipR s tl.cur tl.value f.regionEnd).map fun pay => complete f.regionEnd (writeInitial f tl pay) s := by
  unfold ipDecode
  rcases longCommon s with _ | f
  · rfl
  dsimp only [Except.bind]
  rcases readVarIntR s f.regionStart f.regionEnd with _ | tl
  · rfl
  dsimp only [Except.bind]
  cases skipR s tl.cur tl.value f.regionEnd <;> rfl

theorem vnDecode_eq_bind (s : State) :
    vnDecode s = (take s 0 1).bind fun o => (take s o.2 4).bind fun v =>
      if be v.1 = 0 then
        (readCids s v.2).bind fun ids => (readVersions s s.op.ilen ids.cur []).map fun q =>
          complete q.2 (writeVersionNegotiation ids q.1 q.2) s
      else .error (.raised .unsupportedVersionField v.2) := by
  unfold vnDecode
  rcases take s 0 1 with _ | ⟨o, c1⟩
  · rfl
  dsimp only [Except.bind]
  rcases take s c1 4 with _ | ⟨v, c2⟩
  · rfl
  dsimp only [Except.bind]
  split
  · rcases readCids s c2 with _ | ids
    · rfl
    dsimp only [Except.bind]
    cases readVersions s s.op.ilen ids.cur [] <;> rfl
  · rfl

theorem routePacket_eq_ite (s : State) (o : Octet) :
    routePacket s o =
      if slice o.toNat 7 7 = 0 then shDecode s
      else (peekVersion s).bind fun v =>
        if v = 0 then vnDecode s
        else if slice o.toNat 6 0 = s.params.initialType.toNat then ipDecode s else lhDecode s := by
  unfold routePacket
  cases peekVersion s <;> rfl

/-! ### The leaf decoders and the encoders -/

theorem viDecode_eq_ite (s : State) :
    viDecode s = if s.op.ilen = 1 ∨ s.op.ilen = 2 ∨ s.op.ilen = 4 ∨ s.op.ilen = 8 then
        (take s 0 s.op.ilen).map fun p => complete p.2 (fun r => { r with
          rVal := BitVec.ofNat 64 (varIntValue p.1)
          rWid := BitVec.ofNat 4 s.op.ilen
          rCur := p.2 }) s
      else .error (.raised .invalidLength 0) := by
  unfold viDecode
  cases take s 0 s.op.ilen <;> rfl

theorem pnDecode_eq_ite (s : State) :
    pnDecode s = if s.op.ilen = 1 ∨ s.op.ilen = 2 ∨ s.op.ilen = 4 then
        (take s 0 s.op.ilen).map fun p => complete p.2 (fun r => { r with
          rVal := BitVec.ofNat 64 (pnValue p.1)
          rWid := BitVec.ofNat 4 s.op.ilen
          rCur := p.2 }) s
      else .error (.raised .invalidLength 0) := by
  unfold pnDecode
  cases take s 0 s.op.ilen <;> rfl

theorem viEncode_eq_map (s : State) :
    viEncode s = (raising 0 (encVarInt s.op.rVal.toNat)).map fun b =>
      completeEncode (emit Out.empty b) (fun r => { r with rWid := BitVec.ofNat 4 b.length }) s := by
  unfold viEncode
  cases raising 0 (encVarInt s.op.rVal.toNat) <;> rfl

theorem pnEncode_eq_map (s : State) :
    pnEncode s = (raising 0 (encPn s.op.rVal.toNat s.op.rWid.toNat)).map fun b =>
      completeEncode (emit Out.empty b) (fun r => { r with rWid := BitVec.ofNat 4 b.length }) s := by
  unfold pnEncode
  cases raising 0 (encPn s.op.rVal.toNat s.op.rWid.toNat) <;> rfl

theorem lhEncode_eq_bind (s : State) :
    lhEncode s = (raising 0 (encPn s.op.hPn.toNat s.op.hPnw.toNat)).bind fun pnb =>
      (raising 0 (encVarInt (pnb.length + s.op.ilen))).bind fun lb =>
        (readInput s 0 s.op.ilen).map fun payload =>
          completeEncode (emitAll Out.empty (longPrefix s ++ [lb, pnb, payload])) id s := by
  unfold lhEncode
  rcases raising 0 (encPn s.op.hPn.toNat s.op.hPnw.toNat) with _ | pnb
  · rfl
  dsimp only [Except.bind]
  rcases raising 0 (encVarInt (pnb.length + s.op.ilen)) with _ | lb
  · rfl
  dsimp only [Except.bind]
  cases readInput s 0 s.op.ilen <;> rfl

theorem ipEncode_eq_bind (s : State) :
    ipEncode s = (raising 0 (encPn s.op.hPn.toNat s.op.hPnw.toNat)).bind fun pnb =>
      (raising 0 (encVarInt s.op.tlen)).bind fun tlb =>
        (raising 0 (encVarInt (pnb.length + tlb.length + s.op.tlen + s.op.ilen))).bind fun lb =>
          (readToken s).bind fun token => (readInput s 0 s.op.ilen).map fun payload =>
            completeEncode (emitAll Out.empty (longPrefix s ++ [lb, pnb, tlb, token, payload])) id s := by
  unfold ipEncode
  rcases raising 0 (encPn s.op.hPn.toNat s.op.hPnw.toNat) with _ | pnb
  · rfl
  dsimp only [Except.bind]
  rcases raising 0 (encVarInt s.op.tlen) with _ | tlb
  · rfl
  dsimp only [Except.bind]
  rcases raising 0 (encVarInt (pnb.length + tlb.length + s.op.tlen + s.op.ilen)) with _ | lb
  · rfl
  dsimp only [Except.bind]
  rcases readToken s with _ | token
  · rfl
  dsimp only [Except.bind]
  cases readInput s 0 s.op.ilen <;> rfl

end Sys2Proof.Machine

/-! PROOFS. How a command ends, said once: every next state is one error of the kinds R260 names, or the success of the
command's own kind (00_scope.md R12, 60_exceptions.md R260, R270). -/

namespace Sys2Proof.Machine

/-! ### The commands as their steps -/

/-- The four values `H_FORM` can have (R240, R244). -/
theorem form_cases (f : BitVec 2) : f = 0 ∨ f = 1 ∨ f = 2 ∨ f = 3 := by
  revert f
  decide

section commands
variable (s : State)

theorem exec_lhDec : exec .lhDec s = guardInput s (conclude s (lhDecode s)) := rfl
theorem exec_ipDec : exec .ipDec s = guardInput s (conclude s (ipDecode s)) := rfl
theorem exec_vnDec : exec .vnDec s = guardInput s (conclude s (vnDecode s)) := rfl
theorem exec_shDec : exec .shDec s = .next (raiseError .unknownPacketType 0 s) := rfl
theorem exec_lhEnc : exec .lhEnc s = guardInput s (conclude s (lhEncode s)) := rfl
theorem exec_ipEnc : exec .ipEnc s = guardInput s (guardToken s (conclude s (ipEncode s))) := rfl
theorem exec_vnEnc : exec .vnEnc s = guardVersions s (conclude s (vnEncode s)) := rfl
theorem exec_shEnc : exec .shEnc s = .next (raiseError .unknownPacketType 0 s) := rfl
theorem exec_pkParse : exec .pkParse s = guardInput s (conclude s (pkParse s)) := rfl

/-- PK_BUILD is the builder that `H_FORM` names (R244). -/
theorem exec_pkBuild :
    exec .pkBuild s =
      if s.op.hForm = 0 then exec .lhEnc s else if s.op.hForm = 1 then exec .shEnc s
      else if s.op.hForm = 2 then exec .vnEnc s else exec .ipEnc s := by
  show execPkBuild s = _
  unfold execPkBuild
  rcases form_cases s.op.hForm with h | h | h | h <;> rw [h] <;> rfl

end commands

/-! ### What the steps of an operation can raise -/

/-- An error raised inside the buffer is of one of the kinds its step can raise. -/
theorem StopsWith.raised {s : State} {K : ErrorKind → Prop} {e : ErrorKind} {cur : Nat}
    (h : StopsWith s K (.raised e cur)) : K e ∧ cur ≤ s.op.ilen := by
  rcases h with ⟨e', cur', heq, hk, hc⟩ | h
  · cases heq
    exact ⟨hk, hc⟩
  · cases h

/-- The head of a long form, when it is whole, takes at least 8 octets (R182). -/
theorem longHead_ok {s : State} {h : LongHead} (hh : longHead s = .ok h) : 8 ≤ h.pn.cur ∧ h.pn.cur ≤ s.op.ilen := by
  simp only [longHead, bind_eq_ok, map_eq_ok] at hh
  obtain ⟨o, ho, v, hv, ids, hids, len, hlen, pn, hpn, rfl⟩ := hh
  obtain ⟨e1, _⟩ := take_ok ho
  obtain ⟨e2, _⟩ := take_ok hv
  obtain ⟨_, _, _, _, e3, _⟩ := readCids_ok hids
  obtain ⟨e4, _, w4, _⟩ := readVarInt_ok hlen
  obtain ⟨e5, b5, w5⟩ := readPn_ok hpn
  simp only [List.mem_cons, List.not_mem_nil, or_false] at w4 w5
  exact ⟨by dsimp only; omega, b5⟩

/-- Every check of the head is against the buffer (R183). -/
theorem longHead_stops {s : State} {x : Stop} (h : longHead s = .error x) : StopsWith s (· = .bufferTooShort) x := by
  simp only [longHead, bind_eq_error, map_eq_error] at h
  rcases h with h | ⟨o, ho, h | ⟨v, hv, h | ⟨ids, hids, h | ⟨len, hlen, h⟩⟩⟩⟩
  · exact take_stops (Nat.zero_le _) h
  · exact take_stops (take_ok ho).2.1 h
  · exact readCids_stops (take_ok hv).2.1 h
  · exact readVarInt_stops (readCids_ok hids).2.2.2.2.2 h
  · exact readPn_stops (readVarInt_ok hlen).2.1 h

/-- The kinds the header parsers share. -/
def ShortOrUnderflow (e : ErrorKind) : Prop := e = .bufferTooShort ∨ e = .underflowLength

theorem lhDecode_stops {s : State} {x : Stop} (h : lhDecode s = .error x) : StopsWith s ShortOrUnderflow x := by
  rw [lhDecode_eq_map, map_eq_error] at h
  exact longCommon_stops h

theorem ipDecode_stops {s : State} {x : Stop} (h : ipDecode s = .error x) : StopsWith s ShortOrUnderflow x := by
  simp only [ipDecode_eq_bind, bind_eq_error, map_eq_error] at h
  rcases h with h | ⟨f, hf, h⟩
  · exact longCommon_stops h
  obtain ⟨hle, hbuf, _⟩ := longCommon_ok hf
  rcases h with h | ⟨tl, htl, h⟩
  · exact readVarIntR_stops (hle.trans hbuf) h
  · exact skipR_stops (readVarIntR_ok htl).2.2.1 h

/-- VN_DEC raises `UnsupportedVersionField` only for a nonzero version (R190). -/
theorem vnDecode_stops {s : State} {x : Stop} (h : vnDecode s = .error x) :
    StopsWith s (fun e => e = .bufferTooShort ∨
      e = .unsupportedVersionField ∧ ∀ v, Memory.readRange s.ibuf 1 4 = some v → be v ≠ 0) x := by
  simp only [vnDecode_eq_bind, bind_eq_error] at h
  rcases h with h | ⟨o, ho, h | ⟨v, hv, h⟩⟩
  · exact (take_stops (Nat.zero_le _) h).mono fun _ => .inl
  · exact (take_stops (take_ok ho).2.1 h).mono fun _ => .inl
  obtain ⟨_, hbuf, _, hread⟩ := take_ok hv
  split at h
  · simp only [bind_eq_error, map_eq_error] at h
    rcases h with h | ⟨ids, hids, h⟩
    · exact (readCids_stops hbuf h).mono fun _ => .inl
    · exact (readVersions_stops (readCids_ok hids).2.2.2.2.2 h).mono fun _ => .inl
  · rename_i hne
    cases h
    refine .inl ⟨_, _, rfl, .inr ⟨rfl, fun w hw => ?_⟩, hbuf⟩
    rw [(take_ok ho).1, Nat.zero_add, hw, Option.some.injEq] at hread
    exact hread ▸ hne

/-- The version field ahead is octets 1 to 4 (R240). -/
theorem peekVersion_ok {s : State} {v : Nat} (h : peekVersion s = .ok v) :
    ∃ b, Memory.readRange s.ibuf 1 4 = some b ∧ v = be b := by
  simp only [peekVersion_eq_bind, bind_eq_ok, map_eq_ok] at h
  obtain ⟨b1, h1, b2, h2, b3, h3, b4, h4, rfl⟩ := h
  have r1 := (peek_ok h1).2
  have r2 := (peek_ok h2).2
  have r3 := (peek_ok h3).2
  have r4 := (peek_ok h4).2
  simp only [Nat.zero_add] at r1 r2 r3 r4
  exact ⟨[b1, b2, b3, b4], by simp [Memory.readRange, r1, r2, r3, r4], rfl⟩

theorem peekVersion_stops {s : State} {x : Stop} (h : peekVersion s = .error x) :
    StopsWith s (· = .bufferTooShort) x := by
  simp only [peekVersion_eq_bind, bind_eq_error, map_eq_error] at h
  rcases h with h | ⟨_, _, h | ⟨_, _, h | ⟨_, _, h⟩⟩⟩ <;> exact peek_stops (Nat.zero_le _) h

/-- A routed parse never raises `UnsupportedVersionField`: VN_DEC is selected only for version zero (R241). -/
theorem routePacket_stops {s : State} {o : Octet} {x : Stop} (h : routePacket s o = .error x) :
    StopsWith s (fun e => ShortOrUnderflow e ∨ e = .unknownPacketType) x := by
  rw [routePacket_eq_ite] at h
  split at h
  · cases h
    exact .inl ⟨_, _, rfl, .inr rfl, Nat.zero_le _⟩
  simp only [bind_eq_error] at h
  rcases h with h | ⟨v, hv, h⟩
  · exact (peekVersion_stops h).mono fun _ he => .inl (.inl he)
  obtain ⟨b, hb, rfl⟩ := peekVersion_ok hv
  split at h
  · rename_i hzero
    refine (vnDecode_stops h).mono fun e he => ?_
    rcases he with he | ⟨_, hne⟩
    · exact .inl (.inl he)
    · exact absurd hzero (hne b hb)
  · split at h
    · exact (ipDecode_stops h).mono fun _ => .inl
    · exact (lhDecode_stops h).mono fun _ => .inl

theorem pkParse_stops {s : State} {x : Stop} (h : pkParse s = .error x) :
    StopsWith s (fun e => ShortOrUnderflow e ∨ e = .unknownPacketType) x := by
  simp only [pkParse_eq_bind, bind_eq_error] at h
  rcases h with h | ⟨o, _, h⟩
  · exact (peek_stops (Nat.zero_le _) h).mono fun _ he => .inl (.inl he)
  · exact routePacket_stops h

/-- A leaf decoder that takes its whole buffer cannot find it too short (R132, R152). -/
theorem take_whole_error {s : State} {x : Stop} (h : take s 0 s.op.ilen = .error x) :
    x = .unwritten .unwrittenInput := by
  rcases take_error h with ⟨_, hlt⟩ | ⟨rfl, _⟩
  · omega
  · rfl

/-- The kinds the encoders raise, each before anything is emitted (R210, R236). -/
def LengthOrValue (e : ErrorKind) : Prop := e = .invalidLength ∨ e = .valueTooLarge

theorem raising_encPn_error {v w : Nat} {x : Stop} (h : raising 0 (encPn v w) = .error x) :
    ∃ e, LengthOrValue e ∧ x = .raised e 0 := by
  obtain ⟨e, he, rfl⟩ := raising_eq_error.mp h
  exact ⟨e, encPn_error he, rfl⟩

theorem raising_encVarInt_error {v : Nat} {x : Stop} (h : raising 0 (encVarInt v) = .error x) :
    x = .raised .valueTooLarge 0 := by
  obtain ⟨e, he, rfl⟩ := raising_eq_error.mp h
  rw [(encVarInt_error he).1]

theorem readToken_error {s : State} {x : Stop} (h : readToken s = .error x) :
    x = .unwritten .unwrittenToken ∧ Memory.readRange s.tokbuf 0 s.op.tlen = none := by
  simp only [readToken] at h
  split at h
  · cases h
  · cases h
    exact ⟨rfl, by assumption⟩

theorem lhEncode_raised {s : State} {e : ErrorKind} {cur : Nat} (h : lhEncode s = .error (.raised e cur)) :
    LengthOrValue e ∧ cur = 0 := by
  simp only [lhEncode_eq_bind, bind_eq_error, map_eq_error] at h
  rcases h with h | ⟨_, _, h | ⟨_, _, h⟩⟩
  · obtain ⟨_, hk, heq⟩ := raising_encPn_error h
    cases heq
    exact ⟨hk, rfl⟩
  · cases raising_encVarInt_error h
    exact ⟨.inr rfl, rfl⟩
  · cases (readInput_error h).1

theorem ipEncode_raised {s : State} {e : ErrorKind} {cur : Nat} (h : ipEncode s = .error (.raised e cur)) :
    LengthOrValue e ∧ cur = 0 := by
  simp only [ipEncode_eq_bind, bind_eq_error, map_eq_error] at h
  rcases h with h | ⟨_, _, h | ⟨_, _, h | ⟨_, _, h | ⟨_, _, h⟩⟩⟩⟩
  · obtain ⟨_, hk, heq⟩ := raising_encPn_error h
    cases heq
    exact ⟨hk, rfl⟩
  · cases raising_encVarInt_error h
    exact ⟨.inr rfl, rfl⟩
  · cases raising_encVarInt_error h
    exact ⟨.inr rfl, rfl⟩
  · cases (readToken_error h).1
  · cases (readInput_error h).1

/-! ### The octets a builder emits -/

/-- An identifier operand has the length its register announces (R25). -/
theorem dcidOperand_length (s : State) : s.dcidOperand.length = s.op.hDcil.toNat := by
  have : s.op.hDcil.toNat < 16 := s.op.hDcil.isLt
  simp only [State.dcidOperand, List.length_take, Vector.length_toList]
  omega

theorem scidOperand_length (s : State) : s.scidOperand.length = s.op.hScil.toNat := by
  have : s.op.hScil.toNat < 16 := s.op.hScil.isLt
  simp only [State.scidOperand, List.length_take, Vector.length_toList]
  omega

theorem dcidOperand_length_le (s : State) : s.dcidOperand.length ≤ 15 := by
  have : s.op.hDcil.toNat < 16 := s.op.hDcil.isLt
  rw [dcidOperand_length]
  omega

theorem scidOperand_length_le (s : State) : s.scidOperand.length ≤ 15 := by
  have : s.op.hScil.toNat < 16 := s.op.hScil.isLt
  rw [scidOperand_length]
  omega

theorem cidsToEmit_length_le (s : State) : (cidsToEmit s).flatten.length ≤ 31 := by
  have hd := dcidOperand_length_le s
  have hs := scidOperand_length_le s
  simp only [cidsToEmit, List.flatten_cons, List.flatten_nil, List.append_nil, List.length_append, beN_length]
  omega

theorem longPrefix_length_le (s : State) : (longPrefix s).flatten.length ≤ 36 := by
  have := cidsToEmit_length_le s
  simp only [longPrefix, List.flatten_append, List.flatten_cons, List.flatten_nil, List.append_nil,
    List.length_append, beN_length]
  omega

theorem lhEncode_ok {s t : State} (h : lhEncode s = .ok t) :
    ∃ b : List Octet, b.length ≤ 48 + s.op.ilen ∧ t = completeEncode (emit Out.empty b) id s := by
  simp only [lhEncode_eq_bind, bind_eq_ok, map_eq_ok, raising_eq_ok] at h
  obtain ⟨pnb, hpn, lb, hlb, payload, hpay, rfl⟩ := h
  have hpnb := (encPn_ok hpn).1
  have hlbl := (encVarInt_ok hlb).2.2
  have hlen := Memory.readRange_length _ _ _ _ (readInput_ok hpay)
  have hpre := longPrefix_length_le s
  simp only [List.mem_cons, List.not_mem_nil, or_false] at hpnb hlbl
  refine ⟨(longPrefix s ++ [lb, pnb, payload]).flatten, ?_, by rw [emitAll_empty, emit_empty]⟩
  simp only [List.flatten_append, List.length_append, List.flatten_cons, List.flatten_nil, List.length_nil]
  omega

theorem ipEncode_ok {s t : State} (h : ipEncode s = .ok t) :
    ∃ b : List Octet, b.length ≤ 56 + s.op.tlen + s.op.ilen ∧ t = completeEncode (emit Out.empty b) id s := by
  simp only [ipEncode_eq_bind, bind_eq_ok, map_eq_ok, raising_eq_ok] at h
  obtain ⟨pnb, hpn, tlb, htlb, lb, hlb, token, htok, payload, hpay, rfl⟩ := h
  have hpnb := (encPn_ok hpn).1
  have htlbl := (encVarInt_ok htlb).2.2
  have hlbl := (encVarInt_ok hlb).2.2
  have hlen := Memory.readRange_length _ _ _ _ (readInput_ok hpay)
  have htoken : token.length = s.op.tlen := by
    simp only [readToken] at htok
    split at htok
    · cases htok
      exact Memory.readRange_length _ _ _ _ (by assumption)
    · cases htok
  have hpre := longPrefix_length_le s
  simp only [List.mem_cons, List.not_mem_nil, or_false] at hpnb hlbl htlbl
  refine ⟨(longPrefix s ++ [lb, pnb, tlb, token, payload]).flatten, ?_, by rw [emitAll_empty, emit_empty]⟩
  simp only [List.flatten_append, List.length_append, List.flatten_cons, List.flatten_nil, List.length_nil]
  omega

theorem flatten_map_beN_length (vs : List Version) :
    ((vs.map fun v => beN 4 v.toNat).flatten).length = 4 * vs.length := by
  simp [List.length_flatten, Function.comp_def, Nat.mul_comm]

theorem vnEncode_ok {s t : State} (h : vnEncode s = .ok t) :
    ∃ b : List Octet, b.length ≤ 36 + 4 * s.op.nver ∧ t = completeEncode (emit Out.empty b) id s := by
  cases h
  have hpre := cidsToEmit_length_le s
  have hvs := versionsOperand_length s
  refine ⟨_, ?_, by rw [emitAll_empty, emit_empty]⟩
  simp only [List.flatten_append, List.flatten_cons, List.flatten_nil, List.append_nil, List.length_append,
    flatten_map_beN_length, List.length_cons, List.length_nil]
  omega

/-! ### Every end of a command -/

/-- The longest output of an encoder (R236). -/
def outputBound (p : Config.Params) : Instr → Nat
  | .viEnc => 8
  | .pnEnc => 4
  | .lhEnc => 48 + p.bufMax
  | .ipEnc => 56 + p.tokMax + p.bufMax
  | .vnEnc => 36 + 4 * p.nverMax
  | _ => max (56 + p.tokMax + p.bufMax) (36 + 4 * p.nverMax)

theorem outputBound_le {p : Config.Params} (h : p.Legal) (i : Instr) : outputBound p i ≤ p.obufMax := by
  obtain ⟨_, _, _, hout, _⟩ := h
  unfold outputBound
  split <;> omega

/-- The next states a command can answer. -/
inductive CommandEnd (s : State) : Instr → State → Prop
  | raised {i : Instr} {e : ErrorKind} {cur : Nat} (hi : i ∈ raisedBy e) (hcur : cur ≤ s.op.ilen) :
      CommandEnd s i (raiseError e cur s)
  | width {i : Instr} (w : Nat) (hi : i ∈ [.viWid, .pnLen]) : CommandEnd s i (completeWidth w s)
  | value {i : Instr} (v : Nat) (hi : i ∈ [.viDec, .pnDec]) :
      CommandEnd s i (complete s.op.ilen (fun r => { r with
        rVal := BitVec.ofNat 64 v
        rWid := BitVec.ofNat 4 s.op.ilen
        rCur := s.op.ilen }) s)
  | leaf {i : Instr} {b : List Octet} (hi : i ∈ [.viEnc, .pnEnc]) (hlen : b.length ≤ outputBound s.params i) :
      CommandEnd s i (completeEncode (emit Out.empty b) (fun r => { r with rWid := BitVec.ofNat 4 b.length }) s)
  | built {i : Instr} {b : List Octet} (hi : i ∈ [.lhEnc, .ipEnc, .vnEnc, .pkBuild])
      (hlen : b.length ≤ outputBound s.params i) : CommandEnd s i (completeEncode (emit Out.empty b) id s)
  | long {i : Instr} {f : LongFields} (hi : i ∈ [.lhDec, .pkParse]) (hf : longCommon s = .ok f) :
      CommandEnd s i (complete f.regionEnd (writeLongForm f) s)
  | initial {i : Instr} {f : LongFields} {tl : VarIntItem} (hi : i ∈ [.ipDec, .pkParse]) (hf : longCommon s = .ok f)
      (htl : readVarIntR s f.regionStart f.regionEnd = .ok tl) (hfit : tl.cur + tl.value ≤ f.regionEnd) :
      CommandEnd s i (complete f.regionEnd (writeInitial f tl (tl.cur + tl.value)) s)
  | versions {i : Instr} {ids : Ids} {vs : List Version} {cur : Nat} (hi : i ∈ [.vnDec, .pkParse])
      (hcur : cur ≤ s.op.ilen) (hlen : 4 * vs.length ≤ s.op.ilen) :
      CommandEnd s i (complete cur (writeVersionNegotiation ids vs cur) s)

theorem lhDecode_ends {s t : State} {i : Instr} (hi : i ∈ [.lhDec, .pkParse]) (h : lhDecode s = .ok t) :
    CommandEnd s i t := by
  rw [lhDecode_eq_map, map_eq_ok] at h
  obtain ⟨f, hf, rfl⟩ := h
  exact .long hi hf

theorem ipDecode_ends {s t : State} {i : Instr} (hi : i ∈ [.ipDec, .pkParse]) (h : ipDecode s = .ok t) :
    CommandEnd s i t := by
  simp only [ipDecode_eq_bind, bind_eq_ok, map_eq_ok] at h
  obtain ⟨f, hf, tl, htl, pay, hpay, rfl⟩ := h
  obtain ⟨rfl, hfit, _⟩ := skipR_ok hpay
  exact .initial hi hf htl hfit

theorem vnDecode_ends {s t : State} {i : Instr} (hi : i ∈ [.vnDec, .pkParse]) (h : vnDecode s = .ok t) :
    CommandEnd s i t := by
  simp only [vnDecode_eq_bind, bind_eq_ok] at h
  obtain ⟨o, _, v, _, h⟩ := h
  split at h
  · simp only [bind_eq_ok, map_eq_ok] at h
    obtain ⟨ids, hids, ⟨vs, cur⟩, hvs, rfl⟩ := h
    obtain ⟨hge, hle, hlen⟩ := readVersions_ok hvs (readCids_ok hids).2.2.2.2.2
    rw [List.length_nil] at hlen
    dsimp only at *
    exact .versions hi hle (by omega)
  · cases h

theorem routePacket_ends {s t : State} {o : Octet} (h : routePacket s o = .ok t) : CommandEnd s .pkParse t := by
  rw [routePacket_eq_ite] at h
  split at h
  · cases h
  simp only [bind_eq_ok] at h
  obtain ⟨v, _, h⟩ := h
  split at h
  · exact vnDecode_ends (by decide) h
  split at h
  · exact ipDecode_ends (by decide) h
  · exact lhDecode_ends (by decide) h

/-- A routed packet, once it ends, ends as PK_PARSE does (R241). -/
theorem conclude_routePacket_ends {s t : State} {o : Octet} (h : conclude s (routePacket s o) = .next t) :
    CommandEnd s .pkParse t := by
  rcases conclude_next h with hr | ⟨e, cur, hr, rfl⟩
  · exact routePacket_ends hr
  · obtain ⟨(rfl | rfl) | rfl, hcur⟩ := (routePacket_stops hr).raised <;> exact .raised (by decide) hcur

/-- A parser's end, from the two lemmas about its steps. -/
theorem conclude_ends {s t : State} {i : Instr} {r : Except Stop State} {K : ErrorKind → Prop}
    (h : conclude s r = .next t) (hok : ∀ t, r = .ok t → CommandEnd s i t)
    (hstop : ∀ x, r = .error x → StopsWith s K x) (hk : ∀ e, K e → i ∈ raisedBy e) : CommandEnd s i t := by
  rcases conclude_next h with hr | ⟨e, cur, hr, rfl⟩
  · exact hok t hr
  · obtain ⟨he, hcur⟩ := (hstop _ hr).raised
    exact .raised (hk e he) hcur

theorem exec_viDec_ends {s t : State} (h : exec .viDec s = .next t) : CommandEnd s .viDec t := by
  rcases conclude_next (guardInput_next h).2 with hr | ⟨e, cur, hr, rfl⟩ <;> rw [viDecode_eq_ite] at hr <;>
    split at hr
  · obtain ⟨⟨b, c⟩, htake, rfl⟩ := map_eq_ok.mp hr
    obtain ⟨rfl, _⟩ := take_ok htake
    simpa only [Nat.zero_add] using CommandEnd.value (varIntValue b) (by decide)
  · cases hr
  · cases take_whole_error (map_eq_error.mp hr)
  · cases hr
    exact .raised (by decide) (Nat.zero_le _)

theorem exec_pnDec_ends {s t : State} (h : exec .pnDec s = .next t) : CommandEnd s .pnDec t := by
  rcases conclude_next (guardInput_next h).2 with hr | ⟨e, cur, hr, rfl⟩ <;> rw [pnDecode_eq_ite] at hr <;>
    split at hr
  · obtain ⟨⟨b, c⟩, htake, rfl⟩ := map_eq_ok.mp hr
    obtain ⟨rfl, _⟩ := take_ok htake
    simpa only [Nat.zero_add] using CommandEnd.value (pnValue b) (by decide)
  · cases hr
  · cases take_whole_error (map_eq_error.mp hr)
  · cases hr
    exact .raised (by decide) (Nat.zero_le _)

theorem exec_viEnc_ends {s t : State} (h : exec .viEnc s = .next t) : CommandEnd s .viEnc t := by
  rw [exec_viEnc, viEncode_eq_map] at h
  rcases conclude_next h with hr | ⟨e, cur, hr, rfl⟩
  · obtain ⟨b, hb, rfl⟩ := map_eq_ok.mp hr
    have hlen := (encVarInt_ok (raising_eq_ok.mp hb)).2.2
    simp only [List.mem_cons, List.not_mem_nil, or_false] at hlen
    exact .leaf (by decide) (by simp only [outputBound]; omega)
  · cases raising_encVarInt_error (map_eq_error.mp hr)
    exact .raised (by decide) (Nat.zero_le _)

theorem exec_pnEnc_ends {s t : State} (h : exec .pnEnc s = .next t) : CommandEnd s .pnEnc t := by
  rw [exec_pnEnc, pnEncode_eq_map] at h
  rcases conclude_next h with hr | ⟨e, cur, hr, rfl⟩
  · obtain ⟨b, hb, rfl⟩ := map_eq_ok.mp hr
    have hlen := (encPn_ok (raising_eq_ok.mp hb)).1
    simp only [List.mem_cons, List.not_mem_nil, or_false] at hlen
    exact .leaf (by decide) (by simp only [outputBound]; omega)
  · obtain ⟨_, rfl | rfl, heq⟩ := raising_encPn_error (map_eq_error.mp hr) <;> cases heq <;>
      exact .raised (by decide) (Nat.zero_le _)

/-- A builder's end, for the builder itself and for PK_BUILD, which has the wider bound (R244). -/
theorem builder_ends {s t : State} {i : Instr} {r : Except Stop State} (h : conclude s r = .next t)
    (hi : i ∈ [.lhEnc, .ipEnc, .vnEnc, .pkBuild]) (hk : ∀ e, LengthOrValue e → i ∈ raisedBy e)
    (hraise : ∀ e cur, r = .error (.raised e cur) → LengthOrValue e ∧ cur = 0)
    (hok : ∀ t, r = .ok t → ∃ b : List Octet, b.length ≤ outputBound s.params i ∧
      t = completeEncode (emit Out.empty b) id s) : CommandEnd s i t := by
  rcases conclude_next h with hr | ⟨e, cur, hr, rfl⟩
  · obtain ⟨b, hlen, rfl⟩ := hok t hr
    exact .built hi hlen
  · obtain ⟨he, rfl⟩ := hraise e cur hr
    exact .raised (hk e he) (Nat.zero_le _)

theorem lengthOrValue_raisedBy {i : Instr} (hi : i ∈ [.lhEnc, .ipEnc, .pkBuild]) {e : ErrorKind}
    (h : LengthOrValue e) : i ∈ raisedBy e := by
  simp only [List.mem_cons, List.not_mem_nil, or_false] at hi
  rcases hi with rfl | rfl | rfl <;> rcases h with rfl | rfl <;> decide

theorem exec_lhEnc_ends {s t : State} {i : Instr} (hi : i ∈ [.lhEnc, .pkBuild]) (h : exec .lhEnc s = .next t) :
    CommandEnd s i t := by
  obtain ⟨hcap, h⟩ := guardInput_next h
  simp only [List.mem_cons, List.not_mem_nil, or_false] at hi
  refine builder_ends h (by rcases hi with rfl | rfl <;> decide)
    (fun e => lengthOrValue_raisedBy (by rcases hi with rfl | rfl <;> decide)) (fun _ _ => lhEncode_raised)
    fun t ht => ?_
  obtain ⟨b, hlen, rfl⟩ := lhEncode_ok ht
  exact ⟨b, by rcases hi with rfl | rfl <;> simp only [outputBound] <;> omega, rfl⟩

theorem exec_ipEnc_ends {s t : State} {i : Instr} (hi : i ∈ [.ipEnc, .pkBuild]) (h : exec .ipEnc s = .next t) :
    CommandEnd s i t := by
  obtain ⟨hcap, h⟩ := guardInput_next h
  obtain ⟨htok, h⟩ := guardToken_next h
  simp only [List.mem_cons, List.not_mem_nil, or_false] at hi
  refine builder_ends h (by rcases hi with rfl | rfl <;> decide)
    (fun e => lengthOrValue_raisedBy (by rcases hi with rfl | rfl <;> decide)) (fun _ _ => ipEncode_raised)
    fun t ht => ?_
  obtain ⟨b, hlen, rfl⟩ := ipEncode_ok ht
  exact ⟨b, by rcases hi with rfl | rfl <;> simp only [outputBound] <;> omega, rfl⟩

theorem exec_vnEnc_ends {s t : State} {i : Instr} (hi : i ∈ [.vnEnc, .pkBuild]) (h : exec .vnEnc s = .next t) :
    CommandEnd s i t := by
  obtain ⟨hcap, h⟩ := guardVersions_next h
  simp only [List.mem_cons, List.not_mem_nil, or_false] at hi
  rcases conclude_next h with hr | ⟨e, cur, hr, _⟩
  · obtain ⟨b, hlen, rfl⟩ := vnEncode_ok hr
    exact .built (by rcases hi with rfl | rfl <;> decide)
      (by rcases hi with rfl | rfl <;> simp only [outputBound] <;> omega)
  · cases hr

theorem exec_shEnc_ends {s t : State} {i : Instr} (hi : i ∈ [.shEnc, .pkBuild]) (h : exec .shEnc s = .next t) :
    CommandEnd s i t := by
  cases h
  simp only [List.mem_cons, List.not_mem_nil, or_false] at hi
  rcases hi with rfl | rfl <;> exact .raised (by decide) (Nat.zero_le _)

theorem exec_pkBuild_ends {s t : State} (h : exec .pkBuild s = .next t) : CommandEnd s .pkBuild t := by
  rw [exec_pkBuild] at h
  split at h
  · exact exec_lhEnc_ends (by decide) h
  split at h
  · exact exec_shEnc_ends (by decide) h
  split at h
  · exact exec_vnEnc_ends (by decide) h
  · exact exec_ipEnc_ends (by decide) h

/-- The inversion of every command (R12, R260, R270). -/
theorem exec_ends {i : Instr} {s t : State} (hi : isCommand i = true) (h : exec i s = .next t) : CommandEnd s i t := by
  cases i with
  | viWid =>
    cases h
    exact .width _ (by decide)
  | pnLen =>
    cases h
    exact .width _ (by decide)
  | viDec => exact exec_viDec_ends h
  | viEnc => exact exec_viEnc_ends h
  | pnDec => exact exec_pnDec_ends h
  | pnEnc => exact exec_pnEnc_ends h
  | lhDec =>
    exact conclude_ends (guardInput_next h).2 (fun _ => lhDecode_ends (by decide)) (fun _ => lhDecode_stops)
      (by rintro _ (rfl | rfl) <;> decide)
  | ipDec =>
    exact conclude_ends (guardInput_next h).2 (fun _ => ipDecode_ends (by decide)) (fun _ => ipDecode_stops)
      (by rintro _ (rfl | rfl) <;> decide)
  | vnDec =>
    exact conclude_ends (guardInput_next h).2 (fun _ => vnDecode_ends (by decide)) (fun _ => vnDecode_stops)
      (by rintro _ (rfl | ⟨rfl, _⟩) <;> decide)
  | shDec =>
    cases h
    exact .raised (by decide) (Nat.zero_le _)
  | lhEnc => exact exec_lhEnc_ends (by decide) h
  | ipEnc => exact exec_ipEnc_ends (by decide) h
  | vnEnc => exact exec_vnEnc_ends (by decide) h
  | shEnc => exact exec_shEnc_ends (by decide) h
  | pkParse =>
    refine conclude_ends (guardInput_next h).2 (fun t ht => ?_) (fun _ => pkParse_stops)
      (by rintro _ ((rfl | rfl) | rfl) <;> decide)
    rw [pkParse_eq_bind, bind_eq_ok] at ht
    obtain ⟨o, _, ht⟩ := ht
    exact routePacket_ends ht
  | pkBuild => exact exec_pkBuild_ends h
  | _ => cases hi

end Sys2Proof.Machine

/-! PROOFS. What every end of a command and of a wire item has in common: operands kept, STATUS, OBUF, the unspecified
results, the longest outputs (10_state.md R20, R22, R29; 20_memory.md R60, R70; 60_exceptions.md R271). -/

namespace Sys2Proof.Machine

/-! ### The codes of STATUS -/

theorem errorStatus_ne_zero (e : ErrorKind) : errorStatus e ≠ 0b0000 := by
  cases e <;> decide

theorem errorStatus_inj {e e' : ErrorKind} (h : errorStatus e = errorStatus e') : e = e' := by
  revert h
  cases e <;> cases e' <;> decide

/-! ### Octets of an output -/

theorem Memory.read_ofOctets_of_le {b : List Octet} {a : Nat} (h : b.length ≤ a) :
    Memory.read (Memory.ofOctets b) a = none :=
  Memory.read_writeRange_outside b [] 0 a (.inr (by omega))

theorem Memory.read_ofOctets_of_lt {b : List Octet} {a : Nat} (h : a < b.length) :
    Memory.read (Memory.ofOctets b) a = some b[a] := by
  simpa [Memory.ofOctets] using Memory.read_writeRange_inside b [] 0 a h

/-! ### What the ends of a command have in common -/

theorem CommandEnd.kept {s t : State} {i : Instr} (h : CommandEnd s i t) : OperandsKept s t := by
  cases h with
  | raised => exact raiseError_kept _ _ _
  | width => exact completeWidth_kept _ _
  | value => exact complete_kept _ _ _
  | leaf => exact completeEncode_kept _ _ _
  | built => exact completeEncode_kept _ _ _
  | long => exact complete_kept _ _ _
  | initial => exact complete_kept _ _ _
  | versions => exact complete_kept _ _ _

/-- A command ends in success, or as one error leaves the block; the table names the command for that error. -/
theorem CommandEnd.status {s t : State} {i : Instr} (h : CommandEnd s i t) :
    t.res.status = 0b0000 ∨ ∃ e cur, i ∈ raisedBy e ∧ t = raiseError e cur s := by
  cases h with
  | raised hi => exact .inr ⟨_, _, hi, rfl⟩
  | width => exact .inl rfl
  | value => exact .inl rfl
  | leaf => exact .inl rfl
  | built => exact .inl rfl
  | long => exact .inl rfl
  | initial => exact .inl rfl
  | versions => exact .inl rfl

theorem exec_kept_of_isCommand {i : Instr} {s t : State} (hi : isCommand i = true) (h : exec i s = .next t) :
    OperandsKept s t := (exec_ends hi h).kept

/-! ### Every end of a wire item (log 9, log 17) -/

/-- The next states a wire item can answer. -/
inductive ItemEnd (s : State) : State → Prop
  | raised {e : ErrorKind} {cur : Nat} (hcur : cur ≤ max s.cur s.op.ilen) : ItemEnd s (raiseError e cur s)
  | value {cur : Nat} (v w : Nat) (hcur : cur ≤ s.op.ilen) :
      ItemEnd s (innerStep cur (fun r => { r with rVal := BitVec.ofNat 64 v, rWid := BitVec.ofNat 4 w }) s)
  | ids {ids : Ids} (hcur : ids.cur ≤ s.op.ilen) : ItemEnd s (innerStep ids.cur (writeIds ids) s)
  | packet {t : State} (h : CommandEnd s .pkParse t) : ItemEnd s t

theorem varIntItem_eq_map (s : State) (w : Nat) (first : Octet) :
    varIntItem s w first = (takeAfterFirst s s.cur first w).map fun p =>
      innerStep p.2 (fun r => { r with rVal := BitVec.ofNat 64 (varIntValue p.1), rWid := BitVec.ofNat 4 w }) s := by
  unfold varIntItem
  cases takeAfterFirst s s.cur first w <;> rfl

theorem pnItem_eq_map (s : State) (w : Nat) (first : Octet) :
    pnItem s w first = (takeAfterFirst s s.cur first w).map fun p =>
      innerStep p.2 (fun r => { r with rVal := BitVec.ofNat 64 (pnValue p.1), rWid := BitVec.ofNat 4 w }) s := by
  unfold pnItem
  cases takeAfterFirst s s.cur first w <;> rfl

theorem cilItem_eq_bind (s : State) (d c : Nat) :
    cilItem s d c = (skip s s.cur 1).bind fun cur => (readIds s cur d c).map fun ids =>
      innerStep ids.cur (writeIds ids) s := by
  unfold cilItem
  rcases skip s s.cur 1 with _ | cur
  · rfl
  dsimp only [Except.bind]
  cases readIds s cur d c <;> rfl

theorem takeAfterFirst_raised {s : State} {w cur : Nat} {first : Octet} {e : ErrorKind}
    (h : takeAfterFirst s s.cur first w = .error (.raised e cur)) : cur = s.cur := by
  simp only [takeAfterFirst_eq_bind, bind_eq_error, map_eq_error] at h
  rcases h with h | ⟨_, _, h⟩
  · cases (skip_error h).1
    rfl
  · cases (readInput_error h).1

theorem varIntItem_ends {s t : State} {w : Nat} {first : Octet} (h : conclude s (varIntItem s w first) = .next t) :
    ItemEnd s t := by
  rw [varIntItem_eq_map] at h
  rcases conclude_next h with hr | ⟨e, cur, hr, rfl⟩
  · obtain ⟨p, hp, rfl⟩ := map_eq_ok.mp hr
    exact .value _ _ (takeAfterFirst_ok hp).2.1
  · rw [takeAfterFirst_raised (map_eq_error.mp hr)]
    exact .raised (le_max_left _ _)

theorem pnItem_ends {s t : State} {w : Nat} {first : Octet} (h : conclude s (pnItem s w first) = .next t) :
    ItemEnd s t := by
  rw [pnItem_eq_map] at h
  rcases conclude_next h with hr | ⟨e, cur, hr, rfl⟩
  · obtain ⟨p, hp, rfl⟩ := map_eq_ok.mp hr
    exact .value _ _ (takeAfterFirst_ok hp).2.1
  · rw [takeAfterFirst_raised (map_eq_error.mp hr)]
    exact .raised (le_max_left _ _)

theorem cilItem_ends {s t : State} {d c : Nat} (h : conclude s (cilItem s d c) = .next t) : ItemEnd s t := by
  rw [cilItem_eq_bind] at h
  rcases conclude_next h with hr | ⟨e, cur, hr, rfl⟩
  · simp only [bind_eq_ok, map_eq_ok] at hr
    obtain ⟨_, _, ids, hids, rfl⟩ := hr
    exact .ids (readIds_ok hids).2.2.2.2.2
  · simp only [bind_eq_error, map_eq_error] at hr
    rcases hr with hr | ⟨cur1, hcur1, hr⟩
    · cases (skip_error hr).1
      exact .raised (le_max_left _ _)
    · exact .raised (((readIds_stops (skip_ok hcur1).2 hr).raised).2.trans (le_max_right _ _))

/-- The inversion of every wire item. -/
theorem exec_item_ends {i : Instr} {s t : State} (hi : isCommand i = false) (h : exec i s = .next t) : ItemEnd s t := by
  cases i with
  | varintW1 v => exact varIntItem_ends h
  | varintW2 v => exact varIntItem_ends h
  | varintW4 v => exact varIntItem_ends h
  | varintW8 v => exact varIntItem_ends h
  | pnW1 v => exact pnItem_ends h
  | pnW2 v => exact pnItem_ends h
  | pnW4 v => exact pnItem_ends h
  | cilOctet d c => exact cilItem_ends h
  | pktShort x => exact .packet (conclude_routePacket_ends h)
  | pktLong v => exact .packet (conclude_routePacket_ends (guardInput_next h).2)
  | _ => cases hi

theorem ItemEnd.kept {s t : State} (h : ItemEnd s t) : OperandsKept s t := by
  cases h with
  | raised => exact raiseError_kept _ _ _
  | value => exact innerStep_kept _ _ _
  | ids => exact innerStep_kept _ _ _
  | packet h => exact h.kept

/-! ### The obligations -/

/-- Settles O9: each end of a command and of a wire item keeps them. -/
theorem operandsAndInputSpacesAreKept : Obligations.OperandsAndInputSpacesAreKept := by
  intro i s t h
  cases hi : isCommand i with
  | true => exact (exec_ends hi h).kept
  | false => exact (exec_item_ends hi h).kept

/-- Settles O11: success is legal, and so is the code of each error. -/
theorem statusIsAlwaysLegal : Obligations.StatusIsAlwaysLegal := by
  intro i s t hi h
  rcases (exec_ends hi h).status with h0 | ⟨e, cur, _, rfl⟩
  · rw [h0]
    decide
  · exact errorStatus_legal e

/-- Settles O13: the error of a command is one the table names it for, and error codes are not shared. -/
theorem errorsOnlyWhereTheTableSays : Obligations.ErrorsOnlyWhereTheTableSays := by
  refine ⟨fun i s t e hi h hst => ?_, fun i s t hi h hnone => ?_⟩
  · rcases (exec_ends hi h).status with h0 | ⟨e', cur, he', rfl⟩
    · exact absurd (hst.symm.trans h0) (errorStatus_ne_zero e)
    · exact errorStatus_inj hst ▸ he'
  · rcases (exec_ends hi h).status with h0 | ⟨e, _, he, _⟩
    · exact h0
    · exact absurd he (hnone e)

/-- Settles O15: a command that does not end in success ends as `raise` leaves it. -/
theorem failureLeavesOnlyStatus : Obligations.FailureLeavesOnlyStatus := by
  intro i s t hi h hst
  rcases (exec_ends hi h).status with h0 | ⟨e, cur, _, rfl⟩
  · exact absurd h0 hst
  · exact ⟨e, cur, rfl, rfl, raiseError_kept _ _ _, fun _ => rfl⟩

/-- An output holds values below its length and none from there on (R60; log 4). -/
theorem read_emit_empty (b : List Octet) :
    (∀ a, b.length ≤ a → Memory.read (emit Out.empty b).mem a = none) ∧
    (∀ a, a < b.length → (Memory.read (emit Out.empty b).mem a).isSome) := by
  rw [emit_empty]
  exact ⟨fun a ha => Memory.read_ofOctets_of_le ha, fun a ha => by rw [Memory.read_ofOctets_of_lt ha]; rfl⟩

/-- The commands that leave OBUF as it was (R71). -/
def widthCommands : List Instr := [.viWid, .pnLen]

/-- The commands that write OBUF (R68). -/
def encodeCommands : List Instr := [.viEnc, .pnEnc, .lhEnc, .ipEnc, .vnEnc, .pkBuild]

/-- The commands that read IBUF (R66). -/
def decodeCommands : List Instr := [.viDec, .pnDec, .lhDec, .ipDec, .vnDec, .shDec, .pkParse]

theorem raisedBy_not_widthCommands {e : ErrorKind} : ∀ i ∈ raisedBy e, i ∉ widthCommands := by
  cases e <;> decide

/-- OBUF after each end of a command (R60, R71; log 4). -/
theorem CommandEnd.obuf {s t : State} {i : Instr} (h : CommandEnd s i t) :
    (i ∈ widthCommands ∧ t.res.status = 0b0000 ∧ t.obuf = s.obuf) ∨
    (i ∈ encodeCommands ∧ t.res.status = 0b0000 ∧
      ∃ b, t.obuf = (emit Out.empty b).mem ∧ t.res.olen = b.length) ∨
    ((i ∈ encodeCommands → t.res.status ≠ 0b0000) ∧ i ∉ widthCommands ∧ t.obuf = []) := by
  cases h with
  | @raised e cur hi => exact .inr (.inr ⟨fun _ => errorStatus_ne_zero e, raisedBy_not_widthCommands i hi, rfl⟩)
  | width w hi => exact .inl ⟨hi, rfl, rfl⟩
  | @leaf b hi =>
    exact .inr (.inl ⟨(by decide : ∀ j ∈ [Instr.viEnc, .pnEnc], j ∈ encodeCommands) i hi, rfl, b, rfl,
      by simp [emit_empty]⟩)
  | @built b hi =>
    exact .inr (.inl ⟨(by decide : ∀ j ∈ [Instr.lhEnc, .ipEnc, .vnEnc, .pkBuild], j ∈ encodeCommands) i hi, rfl, b,
      rfl, by simp [emit_empty]⟩)
  | value v hi =>
    obtain ⟨h1, h2⟩ := (by decide : ∀ j ∈ [Instr.viDec, .pnDec], j ∉ encodeCommands ∧ j ∉ widthCommands) i hi
    exact .inr (.inr ⟨fun h => absurd h h1, h2, rfl⟩)
  | long hi =>
    obtain ⟨h1, h2⟩ := (by decide : ∀ j ∈ [Instr.lhDec, .pkParse], j ∉ encodeCommands ∧ j ∉ widthCommands) i hi
    exact .inr (.inr ⟨fun h => absurd h h1, h2, rfl⟩)
  | initial hi =>
    obtain ⟨h1, h2⟩ := (by decide : ∀ j ∈ [Instr.ipDec, .pkParse], j ∉ encodeCommands ∧ j ∉ widthCommands) i hi
    exact .inr (.inr ⟨fun h => absurd h h1, h2, rfl⟩)
  | versions hi =>
    obtain ⟨h1, h2⟩ := (by decide : ∀ j ∈ [Instr.vnDec, .pkParse], j ∉ encodeCommands ∧ j ∉ widthCommands) i hi
    exact .inr (.inr ⟨fun h => absurd h h1, h2, rfl⟩)

/-- Settles O16: each end leaves OBUF as it was, with the octets of its output, or empty. -/
theorem outputOutsideLengthHasNoValue : Obligations.OutputOutsideLengthHasNoValue := by
  intro i s t hi h
  rcases (exec_ends hi h).obuf with ⟨hw, hst, hobuf⟩ | ⟨he, hst, b, hobuf, holen⟩ | ⟨hfail, hw, hobuf⟩
  · obtain ⟨h1, h2⟩ := (by decide : ∀ j ∈ widthCommands, j ∉ encodeCommands ∧ j ∉ decodeCommands) i hw
    exact ⟨fun _ a => by rw [hobuf], fun h => absurd h h1, fun h => h.elim (absurd · h2) (absurd hst ·)⟩
  · obtain ⟨h1, h2⟩ := (by decide : ∀ j ∈ encodeCommands, j ∉ widthCommands ∧ j ∉ decodeCommands) i he
    rw [hobuf, holen]
    exact ⟨fun h => absurd h h1, fun _ _ => read_emit_empty b, fun h => h.elim (absurd · h2) (absurd hst ·)⟩
  · rw [hobuf]
    exact ⟨fun h => absurd h hw, fun h hst => absurd hst (hfail h), fun _ _ => rfl⟩

/-- A successful encoder's output is within its bound (R236). -/
theorem olen_le_outputBound {s t : State} {i : Instr} (h : CommandEnd s i t) (hi : i ∈ encodeCommands)
    (hst : t.res.status = 0b0000) : t.res.olen ≤ outputBound s.params i := by
  cases h with
  | raised => exact absurd hst (errorStatus_ne_zero _)
  | @leaf b _ hlen => simpa [emit_empty] using hlen
  | @built b _ hlen => simpa [emit_empty] using hlen
  | width _ hw => exact absurd hi ((by decide : ∀ j ∈ [Instr.viWid, .pnLen], j ∉ encodeCommands) i hw)
  | value _ hw => exact absurd hi ((by decide : ∀ j ∈ [Instr.viDec, .pnDec], j ∉ encodeCommands) i hw)
  | long hw => exact absurd hi ((by decide : ∀ j ∈ [Instr.lhDec, .pkParse], j ∉ encodeCommands) i hw)
  | initial hw => exact absurd hi ((by decide : ∀ j ∈ [Instr.ipDec, .pkParse], j ∉ encodeCommands) i hw)
  | versions hw => exact absurd hi ((by decide : ∀ j ∈ [Instr.vnDec, .pkParse], j ∉ encodeCommands) i hw)

/-- Settles O17: each encoder's bound is within OBUF_MAX, and a `length` is far below the largest VarInt. -/
theorem outputSizeBounds : Obligations.OutputSizeBounds := by
  intro s t hp hst
  have bound : ∀ i ∈ encodeCommands, isCommand i = true → exec i s = .next t →
      t.res.olen ≤ outputBound s.params i ∧ t.res.olen ≤ s.params.obufMax := fun i hi hc h =>
    have hle := olen_le_outputBound (exec_ends hc h) hi hst
    ⟨hle, hle.trans (outputBound_le hp i)⟩
  refine ⟨bound .viEnc (by decide) rfl, bound .pnEnc (by decide) rfl, bound .lhEnc (by decide) rfl,
    bound .ipEnc (by decide) rfl, bound .vnEnc (by decide) rfl, fun pnb tlb hpnb htlb hilen htlen => ?_⟩
  obtain ⟨_, hsum, _⟩ := hp
  exact encVarInt_of_le (by omega)

/-- Settles O36: the region lies in the buffer, the token between its length and the payload. -/
theorem slicesLieInTheBuffer : Obligations.SlicesLieInTheBuffer := by
  intro i s t hi h hst
  have hc : isCommand i = true := (by decide : ∀ j ∈ [Instr.lhDec, .ipDec, .pkParse], isCommand j = true) i hi
  cases exec_ends hc h with
  | raised => exact absurd hst (errorStatus_ne_zero _)
  | width _ hw => exact absurd hi ((by decide : ∀ j ∈ [Instr.viWid, .pnLen], j ∉ [Instr.lhDec, .ipDec, .pkParse]) i hw)
  | value _ hw => exact absurd hi ((by decide : ∀ j ∈ [Instr.viDec, .pnDec], j ∉ [Instr.lhDec, .ipDec, .pkParse]) i hw)
  | leaf hw => exact absurd hi ((by decide : ∀ j ∈ [Instr.viEnc, .pnEnc], j ∉ [Instr.lhDec, .ipDec, .pkParse]) i hw)
  | built hw =>
    exact absurd hi ((by decide : ∀ j ∈ [Instr.lhEnc, .ipEnc, .vnEnc, .pkBuild],
      j ∉ [Instr.lhDec, .ipDec, .pkParse]) i hw)
  | versions => simp
  | @long f _ hf =>
    obtain ⟨hle, hbuf, _⟩ := longCommon_ok hf
    refine ⟨fun _ => ?_, by simp⟩
    show f.regionStart + (f.regionEnd - f.regionStart) ≤ s.op.ilen ∧
      f.regionEnd = f.regionStart + (f.regionEnd - f.regionStart)
    omega
  | @initial f tl _ hf htl hfit =>
    obtain ⟨_, hbuf, _⟩ := longCommon_ok hf
    obtain ⟨_, _, _, _, hval⟩ := readVarIntR_ok htl
    refine ⟨fun _ => ?_, fun _ => ?_⟩
    · show tl.cur + tl.value + (f.regionEnd - (tl.cur + tl.value)) ≤ s.op.ilen ∧
        f.regionEnd = tl.cur + tl.value + (f.regionEnd - (tl.cur + tl.value))
      omega
    · show tl.cur + (BitVec.ofNat 62 tl.value).toNat = tl.cur + tl.value
      rw [BitVec.toNat_ofNat, Nat.mod_eq_of_lt hval]

/-- Settles O59: the registers an end writes are the ones R29 lists, and the others keep their free values. -/
theorem unlistedResultsAreUnspecified : Obligations.UnlistedResultsAreUnspecified := by
  intro i s t hi h hst
  cases exec_ends hi h with
  | raised => exact absurd hst (errorStatus_ne_zero _)
  | width _ hw =>
    simp only [List.mem_cons, List.not_mem_nil, or_false] at hw
    rcases hw with rfl | rfl <;> refine ⟨rfl, fun _ => rfl, ?_, ?_, ?_, ?_, ?_, ?_⟩ <;> simp
  | value _ hw =>
    simp only [List.mem_cons, List.not_mem_nil, or_false] at hw
    rcases hw with rfl | rfl <;> refine ⟨rfl, ?_, fun _ => rfl, ?_, ?_, ?_, ?_, ?_⟩ <;> simp
  | leaf hw =>
    simp only [List.mem_cons, List.not_mem_nil, or_false] at hw
    rcases hw with rfl | rfl <;> refine ⟨rfl, ?_, ?_, fun _ => rfl, ?_, ?_, ?_, ?_⟩ <;> simp
  | built hw =>
    simp only [List.mem_cons, List.not_mem_nil, or_false] at hw
    rcases hw with rfl | rfl | rfl | rfl <;> refine ⟨rfl, ?_, ?_, ?_, fun _ => rfl, ?_, ?_, ?_⟩ <;> simp
  | long hw =>
    simp only [List.mem_cons, List.not_mem_nil, or_false] at hw
    rcases hw with rfl | rfl <;> refine ⟨rfl, ?_, ?_, ?_, ?_, fun _ => rfl, ?_, ?_⟩ <;> simp
  | initial hw =>
    simp only [List.mem_cons, List.not_mem_nil, or_false] at hw
    rcases hw with rfl | rfl <;> refine ⟨rfl, ?_, ?_, ?_, ?_, ?_, fun _ => rfl, ?_⟩ <;> simp
  | versions hw =>
    simp only [List.mem_cons, List.not_mem_nil, or_false] at hw
    rcases hw with rfl | rfl <;> refine ⟨rfl, ?_, ?_, ?_, ?_, ?_, ?_, fun _ => rfl⟩ <;> simp

/-- Settles O18: each guard stands before the steps of the command. -/
theorem overCapacityIsRefused : Obligations.OverCapacityIsRefused := by
  refine ⟨fun i s hi h => ?_, fun s hin h => ?_, fun s h => ?_⟩
  · have hguard : ∀ k, guardInput s k = .refused .inputOverCapacity := fun k =>
      if_neg (by rw [withinCapacity_iff]; omega)
    simp only [List.mem_cons, List.not_mem_nil, or_false] at hi
    rcases hi with rfl | rfl | rfl | rfl | rfl | rfl | rfl | rfl <;> exact hguard _
  · rw [exec_ipEnc, guardInput_of_le hin]
    exact if_neg (by rw [withinCapacity_iff]; omega)
  · exact if_neg (by rw [withinCapacity_iff]; omega)

/-- Settles O39: the short-header parser raises at once. -/
theorem shDecAlwaysFails : Obligations.ShDecAlwaysFails :=
  fun s => ⟨_, exec_shDec s, rfl, raiseError_kept _ _ _⟩

/-- Settles O40: the short-header builder raises at once. -/
theorem shEncAlwaysFails : Obligations.ShEncAlwaysFails :=
  fun s => ⟨_, exec_shEnc s, rfl, raiseError_kept _ _ _⟩

/-- Settles O50: the four values of `H_FORM`. -/
theorem pkBuildSelectsByForm : Obligations.PkBuildSelectsByForm := by
  intro s
  rw [exec_pkBuild]
  refine ⟨fun h => ?_, fun h => ?_, fun h => ?_, fun h => ?_⟩ <;> rw [h] <;> rfl

end Sys2Proof.Machine

/-! PROOFS. One step of the block: what it runs (20_memory.md R73; log 7, log 9), the invariant it keeps (R9, R22, R30,
R68, R191), the reset state (70_reset_and_hazards.md R291), and what no command reads (10_state.md R20, R31). -/

namespace Sys2Proof.Machine

/-! ### The step -/

theorem step_of_fetch {s : State} {i : Instr} (h : fetchInstr s = .ok i) : step s = exec i s := by
  rw [step, h]

theorem step_of_stop {s : State} {x : Stop} (h : fetchInstr s = .error x) : step s = conclude s (.error x) := by
  rw [step, h]

theorem fetchInstr_command {s : State} (h : s.fetch = .command) : fetchInstr s = .ok (decodeCommand s.cmd) := by
  rw [fetchInstr, h]

/-- Where an item of a wire format is fetched: a packet at offset 0, another at the cursor (log 9, log 18). -/
def fetchOffset (s : State) (f : WireFormat) : Nat := if f = .packet then 0 else s.cur

theorem fetchInstr_wire {s : State} {f : WireFormat} (h : s.fetch = .wire f) :
    fetchInstr s = (peek s (fetchOffset s f) 0).map (decodeFirstOctet f) := by
  rw [fetchInstr, h]
  cases f with
  | packet =>
    show _ = (peek s 0 0).map _
    cases peek s 0 0 <;> rfl
  | varint =>
    show _ = (peek s s.cur 0).map _
    cases peek s s.cur 0 <;> rfl
  | packetNumber =>
    show _ = (peek s s.cur 0).map _
    cases peek s s.cur 0 <;> rfl
  | cil =>
    show _ = (peek s s.cur 0).map _
    cases peek s s.cur 0 <;> rfl

theorem step_of_octet {s : State} {f : WireFormat} {o : Octet} (h : s.fetch = .wire f)
    (hlt : fetchOffset s f < s.op.ilen) (hread : Memory.read s.ibuf (fetchOffset s f) = some o) :
    step s = exec (decodeFirstOctet f o) s :=
  step_of_fetch (by rw [fetchInstr_wire h, peek_of_read hlt hread]; rfl)

theorem step_of_end {s : State} {f : WireFormat} (h : s.fetch = .wire f) (hle : s.op.ilen ≤ fetchOffset s f) :
    step s = .next (raiseError .bufferTooShort (fetchOffset s f) s) := by
  rw [step_of_stop (x := .raised .bufferTooShort (fetchOffset s f)) (by rw [fetchInstr_wire h, peek_of_le hle]; rfl)]
  rfl

/-- Settles O5: the fetch peeks the octet at its offset, or finds it past the end of the buffer. -/
theorem stepRunsDecodedInstruction : Obligations.StepRunsDecodedInstruction := by
  have offset : ∀ (s : State) (f : WireFormat), f ≠ .packet → fetchOffset s f = s.cur := fun s f hf => if_neg hf
  refine ⟨fun s h => step_of_fetch (fetchInstr_command h), fun s f o h hf hlt hread => ?_,
    fun s o h hlt hread => step_of_octet h hlt hread, fun s f h hf hle => ?_, fun s h h0 => ?_⟩
  · exact step_of_octet h (by rwa [offset s f hf]) (by rwa [offset s f hf])
  · exact ⟨_, step_of_end h (by rwa [offset s f hf]), rfl, raiseError_kept _ _ _⟩
  · exact ⟨_, step_of_end h h0.le, rfl, raiseError_kept _ _ _⟩

/-! ### The invariant -/

/-- The result registers of width `CW` are in range and VERS is within its capacity (R9, R28). -/
structure ResultsInRange (p : Config.Params) (r : ResultRegs) : Prop where
  rCur : r.rCur < 2 ^ p.cw
  hTokOff : r.hTokOff < 2 ^ p.cw
  hPayOff : r.hPayOff < 2 ^ p.cw
  hPayLen : r.hPayLen < 2 ^ p.cw
  nver : r.nver < 2 ^ p.cw
  olen : r.olen < 2 ^ p.cw
  vers : r.vers.length ≤ p.nverMax

theorem freeResults_inRange (s : State) : ResultsInRange s.params (freeResults s) := by
  obtain ⟨h1, h2, h3, h4, h5, h6, h7⟩ := freeResults_bounds s
  exact ⟨h1, h2, h3, h4, h5, h6, h7⟩

theorem Inv.results {s : State} (h : Inv s) : ResultsInRange s.params s.res :=
  ⟨h.rCur, h.hTokOff, h.hPayOff, h.hPayLen, h.nver, h.olen, h.vers⟩

/-- What a step may change, put back together. -/
theorem Inv.of_changed {s t : State} (h : Inv s) (hparams : t.params = s.params) (hop : t.op = s.op)
    (hibuf : t.ibuf = s.ibuf) (htok : t.tokbuf = s.tokbuf) (hobuf : Memory.wf t.obuf)
    (hcap : ∀ c ∈ t.obuf, c.1 < s.params.obufMax) (hcur : t.cur < 2 ^ s.params.cw)
    (hst : statusLegal t.res.status) (hres : ResultsInRange s.params t.res) : Inv t where
  params := hparams ▸ h.params
  ibuf := hibuf ▸ h.ibuf
  tokbuf := htok ▸ h.tokbuf
  obuf := hobuf
  obufCapacity := hparams ▸ hcap
  ilen := by rw [hop, hparams]; exact h.ilen
  tlen := by rw [hop, hparams]; exact h.tlen
  nverOperand := by rw [hop, hparams]; exact h.nverOperand
  cur := hparams ▸ hcur
  status := hst
  rCur := hparams ▸ hres.rCur
  hTokOff := hparams ▸ hres.hTokOff
  hPayOff := hparams ▸ hres.hPayOff
  hPayLen := hparams ▸ hres.hPayLen
  nver := hparams ▸ hres.nver
  olen := hparams ▸ hres.olen
  vers := hparams ▸ hres.vers

theorem Inv.raiseError {s : State} (h : Inv s) {e : ErrorKind} {cur : Nat} (hcur : cur < 2 ^ s.params.cw) :
    Inv (raiseError e cur s) :=
  have r := freeResults_inRange s
  h.of_changed rfl rfl rfl rfl rfl (by simp) hcur (errorStatus_legal e)
    ⟨r.rCur, r.hTokOff, r.hPayOff, r.hPayLen, r.nver, r.olen, r.vers⟩

theorem Inv.complete {s : State} (h : Inv s) {cur : Nat} {write : ResultRegs → ResultRegs}
    (hcur : cur < 2 ^ s.params.cw) (r : ResultsInRange s.params (write (freeResults s))) :
    Inv (complete cur write s) :=
  h.of_changed rfl rfl rfl rfl rfl (by simp) hcur successStatus_legal
    ⟨r.rCur, r.hTokOff, r.hPayOff, r.hPayLen, r.nver, r.olen, r.vers⟩

theorem Inv.completeEncode {s : State} (h : Inv s) {b : List Octet} {write : ResultRegs → ResultRegs}
    (hlen : b.length ≤ s.params.obufMax) (r : ResultsInRange s.params (write (freeResults s))) :
    Inv (completeEncode (emit Out.empty b) write s) := by
  have hlt : b.length < 2 ^ s.params.cw := hlen.trans_lt h.params.2.2.2.2
  rw [emit_empty]
  refine h.of_changed rfl rfl rfl rfl (Memory.wf_ofOctets b) (fun c hc => ?_) hlt successStatus_legal
    ⟨hlt, r.hTokOff, r.hPayOff, r.hPayLen, r.nver, hlt, r.vers⟩
  rcases Memory.mem_writeRange b [] 0 c hc with hc | ⟨_, hc⟩
  · cases hc
  · omega

theorem Inv.innerStep {s : State} (h : Inv s) {cur : Nat} {write : ResultRegs → ResultRegs}
    (hcur : cur < 2 ^ s.params.cw) (hst : (write s.res).status = s.res.status)
    (r : ResultsInRange s.params (write s.res)) : Inv (innerStep cur write s) :=
  h.of_changed rfl rfl rfl rfl h.obuf h.obufCapacity hcur (hst ▸ h.status) r

theorem Inv.lt_of_le_ilen {s : State} (h : Inv s) {n : Nat} (hn : n ≤ s.op.ilen) : n < 2 ^ s.params.cw := by
  obtain ⟨_, _, _, hout, hcw⟩ := h.params
  have := h.ilen
  omega

theorem Inv.commandEnd {s t : State} {i : Instr} (h : Inv s) (ht : CommandEnd s i t) : Inv t := by
  have r := freeResults_inRange s
  cases ht with
  | raised _ hcur => exact h.raiseError (h.lt_of_le_ilen hcur)
  | width w =>
    exact h.of_changed rfl rfl rfl rfl h.obuf h.obufCapacity (h.lt_of_le_ilen (Nat.zero_le _)) successStatus_legal
      ⟨r.rCur, r.hTokOff, r.hPayOff, r.hPayLen, r.nver, r.olen, r.vers⟩
  | value v =>
    exact h.complete (h.lt_of_le_ilen le_rfl)
      ⟨h.lt_of_le_ilen le_rfl, r.hTokOff, r.hPayOff, r.hPayLen, r.nver, r.olen, r.vers⟩
  | leaf _ hlen =>
    exact h.completeEncode (hlen.trans (outputBound_le h.params i))
      ⟨r.rCur, r.hTokOff, r.hPayOff, r.hPayLen, r.nver, r.olen, r.vers⟩
  | built _ hlen => exact h.completeEncode (hlen.trans (outputBound_le h.params i)) r
  | @long f _ hf =>
    obtain ⟨hle, hbuf, _⟩ := longCommon_ok hf
    exact h.complete (h.lt_of_le_ilen hbuf) ⟨h.lt_of_le_ilen hbuf, r.hTokOff, h.lt_of_le_ilen (hle.trans hbuf),
      h.lt_of_le_ilen ((Nat.sub_le _ _).trans hbuf), r.nver, r.olen, r.vers⟩
  | @initial f tl _ hf htl hfit =>
    obtain ⟨_, hbuf, _⟩ := longCommon_ok hf
    obtain ⟨_, _, htlbuf, _⟩ := readVarIntR_ok htl
    exact h.complete (h.lt_of_le_ilen hbuf) ⟨h.lt_of_le_ilen hbuf, h.lt_of_le_ilen htlbuf,
      h.lt_of_le_ilen (hfit.trans hbuf), h.lt_of_le_ilen ((Nat.sub_le _ _).trans hbuf), r.nver, r.olen, r.vers⟩
  | @versions ids vs cur _ hcur hlen =>
    have hvers : (writeVersions vs (freeResults s).vers).length ≤ s.params.nverMax := by
      have hcap : s.params.bufMax / 4 ≤ s.params.nverMax := h.params.2.2.1
      have hilen := h.ilen
      have hfree := r.vers
      simp only [writeVersions, List.length_append, List.length_drop]
      omega
    exact h.complete (h.lt_of_le_ilen hcur) ⟨h.lt_of_le_ilen hcur, r.hTokOff, r.hPayOff, r.hPayLen,
      h.lt_of_le_ilen (n := vs.length) (by omega), r.olen, hvers⟩

theorem Inv.itemEnd {s t : State} (h : Inv s) (ht : ItemEnd s t) : Inv t := by
  have r := h.results
  cases ht with
  | raised hcur =>
    exact h.raiseError (hcur.trans_lt (max_lt h.cur (h.lt_of_le_ilen le_rfl)))
  | value v w hcur =>
    exact h.innerStep (h.lt_of_le_ilen hcur) rfl
      ⟨r.rCur, r.hTokOff, r.hPayOff, r.hPayLen, r.nver, r.olen, r.vers⟩
  | ids hcur =>
    exact h.innerStep (h.lt_of_le_ilen hcur) rfl
      ⟨r.rCur, r.hTokOff, r.hPayOff, r.hPayLen, r.nver, r.olen, r.vers⟩
  | packet ht => exact h.commandEnd ht

theorem Inv.exec {s t : State} {i : Instr} (h : Inv s) (ht : exec i s = .next t) : Inv t := by
  cases hi : isCommand i with
  | true => exact h.commandEnd (exec_ends hi ht)
  | false => exact h.itemEnd (exec_item_ends hi ht)

theorem Inv.fetchOffset_lt {s : State} (h : Inv s) (f : WireFormat) : fetchOffset s f < 2 ^ s.params.cw := by
  unfold fetchOffset
  split
  · exact Nat.two_pow_pos _
  · exact h.cur

/-- Settles O8: the instruction fetched keeps the invariant; a fetch past the buffer raises where it peeks. -/
theorem stepKeepsInvariant : Obligations.StepKeepsInvariant := by
  intro s t h ht
  cases hfetch : fetchInstr s with
  | ok i => exact h.exec (step_of_fetch hfetch ▸ ht)
  | error x =>
    rw [step_of_stop hfetch] at ht
    rcases conclude_next ht with hx | ⟨e, cur, hx, rfl⟩
    · cases hx
    cases hx
    cases hsrc : s.fetch with
    | command => simp [fetchInstr_command hsrc] at hfetch
    | wire f =>
      rw [fetchInstr_wire hsrc, map_eq_error] at hfetch
      rcases peek_error hfetch with ⟨heq, _⟩ | ⟨heq, _⟩
      · cases heq
        exact h.raiseError (h.fetchOffset_lt f)
      · cases heq

/-! ### Reset -/

/-- Settles O6: the reset state's buffers are empty, its parameters brought inside R6. -/
theorem resetLeavesNoErrorAndEmptyBuffers : Obligations.ResetLeavesNoErrorAndEmptyBuffers :=
  ⟨rfl, fun _ => ⟨rfl, rfl, rfl⟩, Config.instanceParams_legal⟩

/-- Settles O7: every register of the reset state is 0, and 0 is within every bound. -/
theorem resetSatisfiesInvariant : Obligations.ResetSatisfiesInvariant :=
  have hpos : 0 < 2 ^ Config.instanceParams.cw := Nat.two_pow_pos _
  { params := Config.instanceParams_legal
    ibuf := rfl
    tokbuf := rfl
    obuf := rfl
    obufCapacity := fun _ hc => by cases hc
    ilen := Nat.zero_le _
    tlen := Nat.zero_le _
    nverOperand := Nat.zero_le _
    cur := hpos
    status := by decide
    rCur := hpos
    hTokOff := hpos
    hPayOff := hpos
    hPayLen := hpos
    nver := hpos
    olen := hpos
    vers := Nat.zero_le _ }

/-! ### What no command reads -/

/-- `s` with other contents of what an earlier operation left: its results, its output, its cursor. -/
def State.withLeft (s : State) (r : ResultRegs) (o : Memory) (c : Nat) : State := { s with res := r, obuf := o, cur := c }

section withLeft
variable (s : State) (r : ResultRegs) (o : Memory) (c : Nat)

theorem readVersions_withLeft (fuel cur : Nat) (vs : List Version) :
    readVersions (s.withLeft r o c) fuel cur vs = readVersions s fuel cur vs := by
  induction fuel generalizing cur vs with
  | zero => rfl
  | succ fuel ih =>
    simp only [readVersions_succ, ih]
    rfl

theorem vnDecode_withLeft : vnDecode (s.withLeft r o c) = vnDecode s := by
  simp only [vnDecode_eq_bind, readVersions_withLeft]
  rfl

theorem pkParse_withLeft : pkParse (s.withLeft r o c) = pkParse s := by
  have hroute : routePacket (s.withLeft r o c) = routePacket s := by
    funext o0
    simp only [routePacket_eq_ite, vnDecode_withLeft]
    rfl
  rw [pkParse_eq_bind, pkParse_eq_bind, hroute]
  rfl

theorem conclude_withLeft (x : Except Stop State) : conclude (s.withLeft r o c) x = conclude s x := by
  rcases x with (_ | _) | _ <;> rfl

theorem guardInput_withLeft (k : StepOutcome) : guardInput (s.withLeft r o c) k = guardInput s k := rfl

/-- A command other than the two width commands reads nothing an earlier operation left. For all but the two that
loop over versions both sides unfold to one term: no step projects one of the three fields. -/
theorem exec_withLeft {i : Instr} (hi : isCommand i = true) (hw : i ∉ [.viWid, .pnLen]) :
    exec i (s.withLeft r o c) = exec i s := by
  cases i with
  | viWid => exact absurd hw (by decide)
  | pnLen => exact absurd hw (by decide)
  | vnDec => rw [exec_vnDec, exec_vnDec, vnDecode_withLeft, conclude_withLeft, guardInput_withLeft]
  | pkParse => rw [exec_pkParse, exec_pkParse, pkParse_withLeft, conclude_withLeft, guardInput_withLeft]
  | varintW1 | varintW2 | varintW4 | varintW8 | pnW1 | pnW2 | pnW4 | cilOctet | pktShort | pktLong => cases hi
  | _ => rfl

end withLeft

/-- Settles O10: no command reads what an earlier one left, and a width command hands OBUF on. -/
theorem noStateBetweenOperations : Obligations.NoStateBetweenOperations := by
  refine ⟨fun i s r o c hi hw => exec_withLeft s r o c hi hw, fun i s t r o c hi h => ?_, fun i s t hi h => ?_⟩
  · simp only [List.mem_cons, List.not_mem_nil, or_false] at hi
    rcases hi with rfl | rfl <;> cases h <;> rfl
  · have hk := exec_kept_of_isCommand hi h
    exact ⟨hk.op, hk.cmd, hk.ibuf, hk.tokbuf⟩

end Sys2Proof.Machine

/-! PROOFS. Where a read can fault, and why a command always ends when the host has done its duties
(70_reset_and_hazards.md R291, R292; log 3). -/

namespace Sys2Proof.Machine

/-- A range read fails exactly where an octet of it holds no value (R64). -/
theorem Memory.readRange_eq_none (m : Memory) (a n : Nat) :
    Memory.readRange m a n = none ↔ ∃ i < n, Memory.read m (a + i) = none := by
  induction n generalizing a with
  | zero => simp [Memory.readRange]
  | succ n ih =>
    have hsplit : (∃ i < n + 1, Memory.read m (a + i) = none) ↔
        Memory.read m a = none ∨ ∃ i < n, Memory.read m (a + 1 + i) = none := by
      constructor
      · rintro ⟨_ | i, hi, h⟩
        · exact .inl h
        · exact .inr ⟨i, by omega, by rwa [Nat.add_assoc, Nat.add_comm 1 i]⟩
      · rintro (h | ⟨i, hi, h⟩)
        · exact ⟨0, by omega, h⟩
        · exact ⟨i + 1, by omega, by rwa [Nat.add_comm i 1, ← Nat.add_assoc]⟩
    rw [hsplit, ← ih, Memory.readRange]
    cases Memory.read m a <;> cases Memory.readRange m (a + 1) n <;> simp

/-- Every octet of the buffer the host declared has been written (R292). -/
def Written (s : State) : Prop := ∀ a < s.op.ilen, Memory.read s.ibuf a ≠ none

/-- A step that does not read an octet without a value. -/
def Faultless {α : Type} (r : Except Stop α) : Prop := ∀ f, r ≠ .error (.unwritten f)

theorem written_of_isSome {s : State} (h : (Memory.readRange s.ibuf 0 s.op.ilen).isSome) : Written s := by
  intro a ha hnone
  have hfail : Memory.readRange s.ibuf 0 s.op.ilen = none :=
    (Memory.readRange_eq_none _ _ _).mpr ⟨a, ha, by rwa [Nat.zero_add]⟩
  simp [hfail] at h

theorem HoldsInput.written {s : State} {b : List Octet} (h : HoldsInput s b) : Written s :=
  written_of_isSome (by rw [h.ilen, h.octets]; rfl)

section chain
variable {α β : Type} {r : Except Stop α} {k : α → Except Stop β} {g : α → β}

theorem Faultless.bind (hr : Faultless r) (hk : ∀ a, r = .ok a → Faultless (k a)) : Faultless (r.bind k) := by
  intro f h
  rcases bind_eq_error.mp h with h | ⟨a, ha, h⟩
  · exact hr f h
  · exact hk a ha f h

theorem Faultless.map (hr : Faultless r) : Faultless (r.map g) := fun f h => hr f (map_eq_error.mp h)

theorem faultless_ok (a : α) : Faultless (.ok a : Except Stop α) := fun _ h => by cases h

theorem faultless_raised (e : ErrorKind) (cur : Nat) : Faultless (.error (.raised e cur) : Except Stop α) :=
  fun _ h => by cases h

end chain

theorem faultless_raising {α : Type} (cur : Nat) (r : Except ErrorKind α) : Faultless (raising cur r) := by
  cases r
  · exact faultless_raised _ _
  · exact faultless_ok _

theorem skip_faultless (s : State) (cur n : Nat) : Faultless (skip s cur n) := fun f h => by
  cases (skip_error h).1

theorem skipR_faultless (s : State) (cur n e : Nat) : Faultless (skipR s cur n e) := by
  unfold skipR
  split_ifs
  · exact faultless_raised _ _
  · exact faultless_raised _ _
  · exact faultless_ok _

section written
variable {s : State} (hw : Written s)
include hw

theorem Written.readInput {a n : Nat} (h : a + n ≤ s.op.ilen) : Faultless (readInput s a n) := by
  intro f hf
  obtain ⟨i, hi, hnone⟩ := (Memory.readRange_eq_none _ _ _).mp (readInput_error hf).2
  exact hw (a + i) (by omega) hnone

theorem Written.take (cur n : Nat) : Faultless (take s cur n) := by
  rw [take_eq_bind]
  refine (skip_faultless s cur n).bind fun c hc => (hw.readInput ?_).map
  obtain ⟨rfl, hle⟩ := skip_ok hc
  exact hle

theorem Written.takeR (cur n e : Nat) : Faultless (takeR s cur n e) := by
  rw [takeR_eq_bind]
  refine (skipR_faultless s cur n e).bind fun c hc => (hw.readInput ?_).map
  obtain ⟨rfl, _, hle⟩ := skipR_ok hc
  exact hle

theorem Written.peek (cur k : Nat) : Faultless (peek s cur k) := by
  intro f h
  rcases peek_error h with ⟨heq, _⟩ | ⟨_, hnone⟩
  · cases heq
  · by_cases hlt : cur + k < s.op.ilen
    · exact hw _ hlt hnone
    · rw [peek_of_le (by omega)] at h
      cases h

theorem Written.readIds (cur d c : Nat) : Faultless (readIds s cur d c) := by
  rw [readIds_eq_bind]
  exact (hw.take _ _).bind fun _ _ => (hw.take _ _).map

theorem Written.readCids (cur : Nat) : Faultless (readCids s cur) := by
  rw [readCids_eq_bind]
  exact (hw.take _ _).bind fun _ _ => hw.readIds _ _ _

theorem Written.readVarInt (cur : Nat) : Faultless (readVarInt s cur) := by
  rw [readVarInt_eq_bind]
  exact (hw.peek _ _).bind fun _ _ => (hw.take _ _).map

theorem Written.readPn (cur : Nat) : Faultless (readPn s cur) := by
  rw [readPn_eq_bind]
  exact (hw.peek _ _).bind fun _ _ => (hw.take _ _).map

theorem Written.longHead : Faultless (longHead s) :=
  (hw.take _ _).bind fun _ _ => (hw.take _ _).bind fun _ _ => (hw.readCids _).bind fun _ _ =>
    (hw.readVarInt _).bind fun _ _ => (hw.readPn _).map

theorem Written.longCommon : Faultless (longCommon s) := by
  rw [longCommon_eq_bind]
  refine hw.longHead.bind fun h _ => Faultless.map ?_
  unfold longRegion
  split_ifs
  · exact faultless_raised _ _
  · exact faultless_raised _ _
  · exact faultless_ok _

theorem Written.readVarIntR (cur e : Nat) : Faultless (readVarIntR s cur e) := by
  rw [readVarIntR_eq_bind]
  exact (hw.takeR _ _ _).bind fun _ _ => (hw.takeR _ _ _).map

theorem Written.readVersions (fuel cur : Nat) (vs : List Version) : Faultless (readVersions s fuel cur vs) := by
  induction fuel generalizing cur vs with
  | zero => exact faultless_ok _
  | succ fuel ih =>
    rw [readVersions_succ]
    split
    · exact (hw.take _ _).bind fun _ _ => ih _ _
    · exact faultless_ok _

theorem Written.viDecode : Faultless (viDecode s) := by
  rw [viDecode_eq_ite]
  split
  · exact (hw.take _ _).map
  · exact faultless_raised _ _

theorem Written.pnDecode : Faultless (pnDecode s) := by
  rw [pnDecode_eq_ite]
  split
  · exact (hw.take _ _).map
  · exact faultless_raised _ _

theorem Written.lhDecode : Faultless (lhDecode s) := by
  rw [lhDecode_eq_map]
  exact hw.longCommon.map

theorem Written.ipDecode : Faultless (ipDecode s) := by
  rw [ipDecode_eq_bind]
  exact hw.longCommon.bind fun _ _ => (hw.readVarIntR _ _).bind fun _ _ => (skipR_faultless _ _ _ _).map

theorem Written.vnDecode : Faultless (vnDecode s) := by
  rw [vnDecode_eq_bind]
  refine (hw.take _ _).bind fun _ _ => (hw.take _ _).bind fun _ _ => ?_
  split
  · exact (hw.readCids _).bind fun _ _ => (hw.readVersions _ _ _).map
  · exact faultless_raised _ _

theorem Written.peekVersion : Faultless (peekVersion s) := by
  rw [peekVersion_eq_bind]
  exact (hw.peek _ _).bind fun _ _ => (hw.peek _ _).bind fun _ _ => (hw.peek _ _).bind fun _ _ => (hw.peek _ _).map

theorem Written.routePacket (o : Octet) : Faultless (routePacket s o) := by
  rw [routePacket_eq_ite]
  split
  · exact faultless_raised _ _
  refine hw.peekVersion.bind fun _ _ => ?_
  split
  · exact hw.vnDecode
  split
  · exact hw.ipDecode
  · exact hw.lhDecode

theorem Written.pkParse : Faultless (pkParse s) := by
  rw [pkParse_eq_bind]
  exact (hw.peek _ _).bind fun _ _ => hw.routePacket _

theorem Written.lhEncode : Faultless (lhEncode s) := by
  rw [lhEncode_eq_bind]
  exact (faultless_raising _ _).bind fun _ _ => (faultless_raising _ _).bind fun _ _ => (hw.readInput (by omega)).map

theorem Written.ipEncode (ht : (Memory.readRange s.tokbuf 0 s.op.tlen).isSome) : Faultless (ipEncode s) := by
  have htoken : Faultless (readToken s) := fun f h => by simp [(readToken_error h).2] at ht
  rw [ipEncode_eq_bind]
  exact (faultless_raising _ _).bind fun _ _ => (faultless_raising _ _).bind fun _ _ =>
    (faultless_raising _ _).bind fun _ _ => htoken.bind fun _ _ => (hw.readInput (by omega)).map

end written

/-- An operation without a fault answers a next state. -/
theorem Faultless.conclude {s : State} {r : Except Stop State} (h : Faultless r) : ∃ t, conclude s r = .next t := by
  rcases r with (⟨e, cur⟩ | f) | t
  · exact ⟨_, rfl⟩
  · exact absurd rfl (h f)
  · exact ⟨_, rfl⟩

/-- A ready host's command is neither refused nor stopped. -/
theorem HostReady.exec_next {s : State} (h : HostReady s) {i : Instr} (hi : isCommand i = true) :
    ∃ t, exec i s = .next t := by
  have hw := written_of_isSome h.input
  have lh : ∃ t, exec .lhEnc s = .next t := by
    rw [exec_lhEnc, guardInput_of_le h.ilen]
    exact hw.lhEncode.conclude
  have ip : ∃ t, exec .ipEnc s = .next t := by
    rw [exec_ipEnc, guardInput_of_le h.ilen, guardToken_of_le h.tlen]
    exact (hw.ipEncode h.token).conclude
  have vn : ∃ t, exec .vnEnc s = .next t := by
    rw [exec_vnEnc, guardVersions_of_le h.nver]
    exact ⟨_, rfl⟩
  cases i with
  | viWid => exact ⟨_, exec_viWid s⟩
  | pnLen => exact ⟨_, exec_pnLen s⟩
  | viDec => rw [exec_viDec, guardInput_of_le h.ilen]; exact hw.viDecode.conclude
  | pnDec => rw [exec_pnDec, guardInput_of_le h.ilen]; exact hw.pnDecode.conclude
  | viEnc => rw [exec_viEnc, viEncode_eq_map]; exact (faultless_raising _ _).map.conclude
  | pnEnc => rw [exec_pnEnc, pnEncode_eq_map]; exact (faultless_raising _ _).map.conclude
  | lhDec => rw [exec_lhDec, guardInput_of_le h.ilen]; exact hw.lhDecode.conclude
  | ipDec => rw [exec_ipDec, guardInput_of_le h.ilen]; exact hw.ipDecode.conclude
  | vnDec => rw [exec_vnDec, guardInput_of_le h.ilen]; exact hw.vnDecode.conclude
  | shDec => exact ⟨_, exec_shDec s⟩
  | lhEnc => exact lh
  | ipEnc => exact ip
  | vnEnc => exact vn
  | shEnc => exact ⟨_, exec_shEnc s⟩
  | pkParse => rw [exec_pkParse, guardInput_of_le h.ilen]; exact hw.pkParse.conclude
  | pkBuild =>
    rw [exec_pkBuild]
    split
    · exact lh
    split
    · exact ⟨_, exec_shEnc s⟩
    split
    · exact vn
    · exact ip
  | varintW1 | varintW2 | varintW4 | varintW8 | pnW1 | pnW2 | pnW4 | cilOctet | pktShort | pktLong => cases hi

/-- Settles O12: a ready host's command ends, and every end is a success or one error. -/
theorem operationsAreTotalForReadyHost : Obligations.OperationsAreTotalForReadyHost := by
  intro i s hi h
  obtain ⟨t, ht⟩ := h.exec_next hi
  refine ⟨t, ht, ?_⟩
  rcases (exec_ends hi ht).status with h0 | ⟨e, cur, _, rfl⟩
  · exact .inl h0
  · exact .inr ⟨e, rfl⟩

end Sys2Proof.Machine

/-! PROOFS. The header parsers read a long-form packet field by field (43_header_decode.md): with the first octets of the
packet in the buffer every field before the cut is read, and the field of the cut stops the parser. One lemma serves a
whole packet, a buffer that ends inside it (R183) and an octet that holds no value (log 3). -/

namespace Sys2Proof.Machine

/-! ### A buffer that holds the first octets of a sequence -/

/-- The first `k` octets of `w` are at the front of `IBUF`, and a read that needs octet `k` of it stops with `P`. -/
structure Window (s : State) (w : List Octet) (k : Nat) (P : Stop → Prop) : Prop where
  le : k ≤ w.length
  inside : k ≤ s.op.ilen
  octets : Memory.readRange s.ibuf 0 k = some (w.take k)
  take_stops : ∀ cur n, cur ≤ k → k < cur + n → cur + n ≤ w.length → ∃ x, take s cur n = .error x ∧ P x
  peek_stops : ∀ cur i, cur + i = k → k < w.length → ∃ x, peek s cur i = .error x ∧ P x

/-- The buffer begins with all of `w`. -/
theorem HoldsInput.window {s : State} {w y : List Octet} (hb : HoldsInput s (w ++ y)) :
    Window s w w.length (fun _ => False) where
  le := le_rfl
  inside := by simp [hb.ilen]
  octets := by simpa using Memory.readRange_sub _ _ _ hb.octets 0 w.length (by simp)
  take_stops := fun _ _ _ _ _ => by omega
  peek_stops := fun _ _ _ _ => by omega

/-- A read past the end of the buffer raises (R66, R67). -/
def TooShort (x : Stop) : Prop := ∃ cur, x = .raised .bufferTooShort cur

/-- The buffer ends inside `w`. -/
theorem HoldsInput.window_cut {s : State} {w : List Octet} {k : Nat} (hk : k ≤ w.length)
    (hb : HoldsInput s (w.take k)) : Window s w k TooShort := by
  have hlen : (w.take k).length = k := by simpa using hk
  have hilen : s.op.ilen = k := hb.ilen.trans hlen
  refine ⟨hk, hilen.ge, ?_, fun cur n _ hlt _ => ?_, fun cur i hi _ => ?_⟩
  · simpa only [hlen] using hb.octets
  · exact ⟨_, by rw [take, skip_of_lt (by omega)], cur, rfl⟩
  · exact ⟨_, peek_of_le (by omega), cur, rfl⟩

theorem take_unwritten {s : State} {cur n a : Nat} (hlo : cur ≤ a) (hhi : a < cur + n) (hbuf : cur + n ≤ s.op.ilen)
    (hnone : Memory.read s.ibuf a = none) : take s cur n = .error (.unwritten .unwrittenInput) := by
  have hread : Memory.readRange s.ibuf cur n = none :=
    (Memory.readRange_eq_none _ _ _).mpr ⟨a - cur, by omega, by rwa [Nat.add_sub_cancel' hlo]⟩
  rw [take, skip_of_le hbuf, readInput, hread]

theorem peek_unwritten {s : State} {cur i : Nat} (hlt : cur + i < s.op.ilen)
    (hnone : Memory.read s.ibuf (cur + i) = none) : peek s cur i = .error (.unwritten .unwrittenInput) := by
  rw [peek, if_neg (by omega), hnone]

/-- Octet `k` of `w` has not been written (log 3). -/
theorem window_unwritten {s : State} {w : List Octet} {k : Nat} (hk : k ≤ w.length) (hbuf : w.length ≤ s.op.ilen)
    (hoct : Memory.readRange s.ibuf 0 k = some (w.take k)) (hnone : Memory.read s.ibuf k = none) :
    Window s w k (· = .unwritten .unwrittenInput) :=
  ⟨hk, hk.trans hbuf, hoct, fun _ _ hlo hhi hle => ⟨_, take_unwritten hlo hhi (hle.trans hbuf) hnone, rfl⟩,
    fun _ _ hi hlt => ⟨_, peek_unwritten (by omega) (by rwa [hi]), rfl⟩⟩

/-- A step that needs the octets up to `c`: it answers `a` when they are before the cut, and stops with `P` when not. -/
def Yields {α : Type} (k : Nat) (P : Stop → Prop) (r : Except Stop α) (a : α) (c : Nat) : Prop :=
  (c ≤ k ∧ r = .ok a) ∨ (k < c ∧ ∃ x, r = .error x ∧ P x)

section yields
variable {α β : Type} {k c d : Nat} {P : Stop → Prop} {r : Except Stop α} {a : α} {b : β}

theorem Yields.bind {g : α → Except Stop β} (hr : Yields k P r a c) (hcd : c ≤ d)
    (hg : c ≤ k → Yields k P (g a) b d) : Yields k P (r.bind g) b d := by
  rcases hr with ⟨hc, rfl⟩ | ⟨hc, x, rfl, hx⟩
  · exact hg hc
  · exact .inr ⟨by omega, x, rfl, hx⟩

theorem Yields.map {g : α → β} (hr : Yields k P r a c) (hg : g a = b) : Yields k P (r.map g) b c := by
  subst hg
  rcases hr with ⟨hc, rfl⟩ | ⟨hc, x, rfl, hx⟩
  · exact .inl ⟨hc, rfl⟩
  · exact .inr ⟨hc, x, rfl, hx⟩

theorem Yields.ok (h : Yields k P r a c) (hc : c ≤ k) : r = .ok a := by
  rcases h with ⟨_, h⟩ | ⟨hlt, _⟩
  · exact h
  · omega

theorem Yields.stops (h : Yields k P r a c) (hc : k < c) : ∃ x, r = .error x ∧ P x := by
  rcases h with ⟨hle, _⟩ | ⟨_, h⟩
  · omega
  · exact h

end yields

/-! ### The fields of a window -/

/-- The octet before the identifiers holds both lengths (R96, R171). -/
theorem idOctets_eq_cons {dcid scid : List Octet} (hd : dcid.length ≤ 15) (hs : scid.length ≤ 15) :
    ∃ cil : Octet, idOctets dcid scid = cil :: (dcid ++ scid) ∧ cil.toNat = dcid.length * 2 ^ 4 + scid.length := by
  refine ⟨_, rfl, ?_⟩
  rw [toNat_ofNat_octet (by omega)]
  omega


section fields
variable {s : State} {w : List Octet} {k : Nat} {P : Stop → Prop} (hw : Window s w k P)
include hw

theorem Window.take_field {x f y : List Octet} (h : w = x ++ f ++ y) (hx : x.length ≤ k) :
    Yields k P (take s x.length f.length) (f, x.length + f.length) (x.length + f.length) := by
  have hlen : w.length = x.length + f.length + y.length := by rw [h, List.length_append, List.length_append]
  by_cases hc : x.length + f.length ≤ k
  · have hread := Memory.readRange_sub s.ibuf (w.take k) k hw.octets x.length f.length (by simp; omega)
    have hpart : ((w.take k).drop x.length).take f.length = f := by
      rw [List.drop_take, List.take_take, min_eq_left (by omega)]
      simp [h]
    rw [hpart] at hread
    exact .inl ⟨hc, by rw [take, skip_of_le (hc.trans hw.inside), readInput, hread]⟩
  · exact .inr ⟨by omega, hw.take_stops _ _ hx (by omega) (by omega)⟩

theorem Window.peek_octet {cur i : Nat} {o : Octet} (ho : w[cur + i]? = some o) (hi : cur + i ≤ k) :
    Yields k P (peek s cur i) o (cur + i + 1) := by
  obtain ⟨hlt, hval⟩ := List.getElem?_eq_some_iff.mp ho
  by_cases hc : cur + i + 1 ≤ k
  · have hread := ((Memory.readRange_eq_some _ _ _ _).mp hw.octets).2 (cur + i) (by simp; omega)
    rw [Nat.zero_add, List.getElem_take, hval] at hread
    exact .inl ⟨hc, peek_of_read (hc.trans hw.inside) hread⟩
  · exact .inr ⟨by omega, hw.peek_stops _ _ (by omega) (by omega)⟩

theorem Window.readVarInt_field {x f y : List Octet} (h : w = x ++ f ++ y) (hf : isVarIntField f = true)
    (hx : x.length ≤ k) :
    Yields k P (readVarInt s x.length) ⟨varIntValue f, f.length, x.length + f.length⟩ (x.length + f.length) := by
  cases f with
  | nil => simp [isVarIntField] at hf
  | cons o f =>
    have hwid : varIntWidth o = (o :: f).length := by simpa [isVarIntField] using (beq_iff_eq.mp hf).symm
    rw [readVarInt_eq_bind]
    refine (hw.peek_octet (i := 0) (o := o) (by simp [h]) hx).bind (by simp) fun hk => ?_
    rw [hwid]
    exact (hw.take_field h hx).map rfl

theorem Window.readPn_field {x f y : List Octet} (h : w = x ++ f ++ y) (hf : isPnField f = true)
    (hx : x.length ≤ k) :
    Yields k P (readPn s x.length) ⟨pnValue f, f.length, x.length + f.length⟩ (x.length + f.length) := by
  cases f with
  | nil => simp [isPnField] at hf
  | cons o f =>
    have hwid : pnLen o = (o :: f).length := by simpa [isPnField] using (beq_iff_eq.mp hf).symm
    rw [readPn_eq_bind]
    refine (hw.peek_octet (i := 0) (o := o) (by simp [h]) hx).bind (by simp) fun hk => ?_
    rw [hwid]
    exact (hw.take_field h hx).map rfl

theorem Window.readCids_field {x dcid scid y : List Octet} (h : w = x ++ idOctets dcid scid ++ y)
    (hd : dcid.length ≤ 15) (hs : scid.length ≤ 15) (hx : x.length ≤ k) :
    Yields k P (readCids s x.length)
      ⟨dcid.length, scid.length, dcid, scid, x.length + (idOctets dcid scid).length⟩
      (x.length + (idOctets dcid scid).length) := by
  obtain ⟨cil, hcil, hval⟩ := idOctets_eq_cons hd hs
  have hw1 := hw.take_field (x := x) (f := [cil]) (y := dcid ++ scid ++ y) (by simp [h, hcil]) hx
  have hw2 := hw.take_field (x := x ++ [cil]) (f := dcid) (y := scid ++ y) (by simp [h, hcil])
  have hw3 := hw.take_field (x := x ++ [cil] ++ dcid) (f := scid) (y := y) (by simp [h, hcil])
  simp only [List.length_append, List.length_cons, List.length_nil, Nat.zero_add] at hw1 hw2 hw3
  have hlen : x.length + (idOctets dcid scid).length = x.length + 1 + dcid.length + scid.length := by
    simp [hcil]
    omega
  rw [readCids_eq_bind, hlen]
  refine hw1.bind (by omega) fun h1 => ?_
  have hbe : be [cil] = dcid.length * 2 ^ 4 + scid.length := by rw [← hval]; simp [be]
  dsimp only
  rw [slice_high hbe (by omega) (by omega), slice_field hbe (by omega), readIds_eq_bind]
  exact (hw2 h1).bind (by omega) fun h2 => (hw3 h2).map rfl

end fields

/-! ### The head of a long-form packet -/

/-- What the head of a packet is read as. -/
def LongPacket.head (p : LongPacket) : LongHead where
  type := p.first.toNat % 128
  version := p.version.toNat
  ids := ⟨p.dcid.length, p.scid.length, p.dcid, p.scid, 5 + (idOctets p.dcid p.scid).length⟩
  len := ⟨varIntValue p.lengthField, p.lengthField.length,
    5 + (idOctets p.dcid p.scid).length + p.lengthField.length⟩
  pn := ⟨pnValue p.pnField, p.pnField.length, p.headOctets.length⟩

theorem LongPacket.headOctets_length (p : LongPacket) :
    p.headOctets.length = 5 + (idOctets p.dcid p.scid).length + p.lengthField.length + p.pnField.length := by
  simp only [LongPacket.headOctets, List.length_cons, List.length_append, beN_length]
  omega

theorem LongPacket.octets_length (p : LongPacket) : p.octets.length = p.headOctets.length + p.region.length :=
  List.length_append

/-- Every field of the packet announces its own length (R104). -/
theorem LongPacket.framed_iff (p : LongPacket) :
    p.framed = true ↔ p.dcid.length ≤ 15 ∧ p.scid.length ≤ 15 ∧ isVarIntField p.lengthField = true ∧
      isPnField p.pnField = true := by
  simp [LongPacket.framed, and_assoc]

theorem LongPacket.measured_iff (p : LongPacket) :
    p.measured = true ↔ varIntValue p.lengthField = p.pnField.length + p.region.length := by
  simp [LongPacket.measured]

/-- `LongCommon()` reads the head field by field, whole or up to the cut (R183, R186). -/
theorem Window.longHead {s : State} {p : LongPacket} {k : Nat} {P : Stop → Prop} (hw : Window s p.headOctets k P)
    (hf : p.framed = true) : Yields k P (longHead s) p.head p.headOctets.length := by
  obtain ⟨hd, hs, hl, hp⟩ := p.framed_iff.mp hf
  have hwhole : p.headOctets = [p.first] ++ beN 4 p.version.toNat ++ idOctets p.dcid p.scid ++ p.lengthField ++
      p.pnField := by simp [LongPacket.headOctets]
  have h1 := hw.take_field (x := []) (f := [p.first])
    (y := beN 4 p.version.toNat ++ idOctets p.dcid p.scid ++ p.lengthField ++ p.pnField) (by simp [hwhole])
    (Nat.zero_le _)
  have h2 := hw.take_field (x := [p.first]) (f := beN 4 p.version.toNat)
    (y := idOctets p.dcid p.scid ++ p.lengthField ++ p.pnField) (by simp [hwhole])
  have h3 := hw.readCids_field (x := [p.first] ++ beN 4 p.version.toNat) (y := p.lengthField ++ p.pnField)
    (by simp [hwhole]) hd hs
  have h4 := hw.readVarInt_field (x := [p.first] ++ beN 4 p.version.toNat ++ idOctets p.dcid p.scid)
    (y := p.pnField) hwhole hl
  have h5 := hw.readPn_field
    (x := [p.first] ++ beN 4 p.version.toNat ++ idOctets p.dcid p.scid ++ p.lengthField) (y := [])
    (by simp [hwhole]) hp
  simp only [List.length_append, List.length_cons, List.length_nil, Nat.zero_add, beN_length, Nat.reduceAdd]
    at h1 h2 h3 h4 h5
  have htype : slice (be [p.first]) 6 0 = p.first.toNat % 128 := by rw [slice_low]; simp [be]
  have hver : be (beN 4 p.version.toNat) = p.version.toNat := be_beN_of_lt 4 _ p.version.isLt
  rw [← p.headOctets_length] at h5
  have hlen := p.headOctets_length
  refine h1.bind (by omega) fun hk1 => (h2 hk1).bind (by omega) fun hk2 => (h3 hk2).bind (by omega) fun hk3 =>
    (h4 hk3).bind (by omega) fun hk4 => (h5 hk4).map ?_
  rw [htype, hver]
  rfl

/-- What `LongCommon()` answers of a packet whose `length` is right (R186). -/
def LongPacket.fields (p : LongPacket) : LongFields := p.head.fields (p.headOctets.length, p.octets.length)

section packet
variable {s : State} {p : LongPacket} {rest : List Octet} (hf : p.framed = true)
include hf

theorem HoldsInput.longHead_packet (hb : HoldsInput s (p.octets ++ rest)) : longHead s = .ok p.head := by
  have hsplit : p.octets ++ rest = p.headOctets ++ (p.region ++ rest) := by simp [LongPacket.octets]
  rw [hsplit] at hb
  exact (hb.window.longHead hf).ok le_rfl

theorem HoldsInput.longCommon_packet (hb : HoldsInput s (p.octets ++ rest)) (hm : p.measured = true) :
    longCommon s = .ok p.fields := by
  have hlen := p.octets_length
  have hval := p.measured_iff.mp hm
  have hregion : longRegion s p.head.len.value p.head.pn = .ok (p.headOctets.length, p.octets.length) := by
    simp only [longRegion, LongPacket.head, hb.ilen, List.length_append, hval]
    rw [if_neg (by omega), if_neg (by omega), hlen, Nat.add_sub_cancel_left]
  rw [longCommon_eq_bind, hb.longHead_packet hf]
  simp only [Except.bind, hregion]
  rfl

/-- The registers `LongCommon()` writes report the packet's fields (R182). -/
theorem longResults_writeLong (r : ResultRegs) : LongResults p (writeLong p.fields r) := by
  obtain ⟨hd, hs, hl, hp⟩ := p.framed_iff.mp hf
  have hvar : varIntValue p.lengthField < 2 ^ 62 := (varIntValue_lt _).trans_le (Nat.pow_le_pow_right (by decide) (by
    have := isVarIntField_length_mem hl
    simp only [List.mem_cons, List.not_mem_nil, or_false] at this
    omega))
  have hpn : pnValue p.pnField < 2 ^ 30 := (pnValue_lt hp).trans_le (Nat.pow_le_pow_right (by decide) (by
    unfold pnBits
    split_ifs <;> decide))
  have hpnw := isPnField_length_mem hp
  refine ⟨?_, ?_, ?_, ?_, writeCid_take _ _ hd, writeCid_take _ _ hs, ?_, ?_, toNat_ofNat_pnWidth hpnw⟩
  · exact (BitVec.toNat_ofNat _ _).trans (Nat.mod_eq_of_lt (Nat.mod_lt _ (by decide)))
  · exact BitVec.ofNat_toNat ..
  · exact (BitVec.toNat_ofNat _ _).trans (Nat.mod_eq_of_lt (Nat.lt_of_le_of_lt hd (by decide)))
  · exact (BitVec.toNat_ofNat _ _).trans (Nat.mod_eq_of_lt (Nat.lt_of_le_of_lt hs (by decide)))
  · exact (BitVec.toNat_ofNat _ _).trans (Nat.mod_eq_of_lt hvar)
  · exact (BitVec.toNat_ofNat _ _).trans (Nat.mod_eq_of_lt (hpn.trans (by decide)))

end packet

/-- A parser that reports the common fields reports them whatever else it writes. -/
theorem LongResults.congr {p : LongPacket} {r q : ResultRegs} (h : LongResults p r) (htype : q.hType = r.hType)
    (hver : q.hVer = r.hVer) (hdcil : q.hDcil = r.hDcil) (hscil : q.hScil = r.hScil) (hdcid : q.hDcid = r.hDcid)
    (hscid : q.hScid = r.hScid) (hlen : q.hLen = r.hLen) (hpn : q.hPn = r.hPn) (hpnw : q.hPnw = r.hPnw) :
    LongResults p q :=
  ⟨htype ▸ h.type, hver ▸ h.version, hdcil ▸ h.dcil, hscil ▸ h.scil, hdcid ▸ h.dcid, hscid ▸ h.scid, hlen ▸ h.len,
    hpn ▸ h.pn, hpnw ▸ h.pnw⟩

/-! ### LH_DEC and IP_DEC -/

/-- The two long-form parsers. -/
def longParsers : List Instr := [.lhDec, .ipDec]

/-- Both long-form parsers end with the error `LongCommon()` raises (R182, R187). -/
theorem exec_longParser_of_error {s : State} {i : Instr} {e : ErrorKind} {cur : Nat} (hi : i ∈ longParsers)
    (hcap : s.op.ilen ≤ s.params.bufMax) (h : longCommon s = .error (.raised e cur)) :
    exec i s = .next (raiseError e cur s) := by
  simp only [longParsers, List.mem_cons, List.not_mem_nil, or_false] at hi
  rcases hi with rfl | rfl
  · rw [exec_lhDec, guardInput_of_le hcap, lhDecode_eq_map, h]
    rfl
  · rw [exec_ipDec, guardInput_of_le hcap, ipDecode_eq_bind, h]
    rfl

theorem exec_lhDec_of_fields {s : State} {f : LongFields} (hcap : s.op.ilen ≤ s.params.bufMax)
    (h : longCommon s = .ok f) : exec .lhDec s = .next (complete f.regionEnd (writeLongForm f) s) := by
  rw [exec_lhDec, guardInput_of_le hcap, lhDecode_eq_map, h]
  rfl

/-- Settles O30: LH_DEC reads the head, and the region its `length` counts is the payload. -/
theorem lhDecParsesLongHeader : Obligations.LhDecParsesLongHeader := by
  intro s p rest hf hm hb
  refine ⟨_, exec_lhDec_of_fields hb.capacity (hb.longCommon_packet hf hm), rfl, complete_kept _ _ _,
    (longResults_writeLong hf (freeResults s)).congr rfl rfl rfl rfl rfl rfl rfl rfl rfl, rfl, rfl, ?_, rfl⟩
  show p.octets.length - p.headOctets.length = p.region.length
  rw [p.octets_length, Nat.add_sub_cancel_left]

theorem longCommon_of_head_error {s : State} {x : Stop} (h : longHead s = .error x) : longCommon s = .error x := by
  rw [longCommon_eq_bind, h]
  rfl

/-- Settles O31: a whole head takes 8 octets, and a head that is not whole is too short. -/
theorem longHeaderNeedsEightOctets : Obligations.LongHeaderNeedsEightOctets := by
  intro i s b hi hb hlt
  cases hh : longHead s with
  | ok h =>
    obtain ⟨h8, hbuf⟩ := longHead_ok hh
    rw [hb.ilen] at hbuf
    omega
  | error x =>
    rcases longHead_stops hh with ⟨e, cur, rfl, rfl, _⟩ | rfl
    · exact ⟨_, exec_longParser_of_error hi hb.capacity (longCommon_of_head_error hh), rfl, raiseError_kept _ _ _⟩
    · exact absurd hh (hb.written.longHead _)

/-- Settles O32: the head first, then `length` against the packet number, then the region against the buffer. -/
theorem longHeaderCheckOrder : Obligations.LongHeaderCheckOrder := by
  intro i p hi hf
  have region : ∀ s : State, HoldsInput s p.octets →
      longCommon s = (longRegion s p.head.len.value p.head.pn).map p.head.fields := fun s hb => by
    have hb' : HoldsInput s (p.octets ++ []) := by rwa [List.append_nil]
    rw [longCommon_eq_bind, hb'.longHead_packet hf]
    rfl
  refine ⟨fun s k hk hb => ?_, fun s hb hlt => ?_, fun s hb hlt => ?_⟩
  · obtain ⟨x, hx, cur, rfl⟩ := ((hb.window_cut hk.le).longHead hf).stops hk
    exact ⟨_, exec_longParser_of_error hi hb.capacity (longCommon_of_head_error hx), rfl, raiseError_kept _ _ _⟩
  · have hcommon : longCommon s = .error (.raised .underflowLength p.headOctets.length) := by
      rw [region s hb, longRegion, if_pos (by simpa only [LongPacket.head] using hlt)]
      rfl
    exact ⟨_, exec_longParser_of_error hi hb.capacity hcommon, rfl, raiseError_kept _ _ _⟩
  · have hcommon : longCommon s = .error (.raised .bufferTooShort p.headOctets.length) := by
      have hlen := p.octets_length
      have hgt : s.op.ilen < p.head.pn.cur + (p.head.len.value - p.head.pn.width) := by
        rw [hb.ilen]
        simp only [LongPacket.head]
        omega
      rw [region s hb, longRegion, if_neg (by simp only [LongPacket.head]; omega), if_pos hgt]
      rfl
    exact ⟨_, exec_longParser_of_error hi hb.capacity hcommon, rfl, raiseError_kept _ _ _⟩

end Sys2Proof.Machine

/-! PROOFS. The Initial parser inside the `length`-delimited region (43_header_decode.md R187, R188), and the Initial
parser against the long one (R189). -/

namespace Sys2Proof.Machine

/-! ### Reads limited to a region -/

theorem takeR_of_skipR_error {s : State} {cur n e : Nat} {x : Stop} (h : skipR s cur n e = .error x) :
    takeR s cur n e = .error x := by
  rw [takeR_eq_bind, h]
  rfl

section region
variable {s : State} {b : List Octet} (hb : HoldsInput s b)
include hb

theorem HoldsInput.skipR_eq (cur n e : Nat) :
    skipR s cur n e =
      if b.length < cur + n then .error (.raised .bufferTooShort cur)
      else if e < cur + n then .error (.raised .underflowLength cur) else .ok (cur + n) := by
  rw [skipR, hb.ilen]

/-- `TakeR` of the next field of a buffer split at the cursor, inside the region. -/
theorem HoldsInput.takeR_field {e : Nat} (x f y : List Octet) (h : b = x ++ f ++ y) (he : x.length + f.length ≤ e) :
    takeR s x.length f.length e = .ok (f, x.length + f.length) := by
  have hlen : b.length = x.length + f.length + y.length := by rw [h, List.length_append, List.length_append]
  have hread := hb.readInput_eq x.length f.length (by omega)
  rw [takeR_eq_bind, hb.skipR_eq, if_neg (by omega), if_neg (by omega)]
  simp [Except.bind, Except.map, hread, h]

/-- `ReadVarIntR` of a well-framed VarInt field inside the region (R188). -/
theorem HoldsInput.readVarIntR_field {e : Nat} (x f y : List Octet) (h : b = x ++ f ++ y)
    (hf : isVarIntField f = true) (he : x.length + f.length ≤ e) :
    readVarIntR s x.length e = .ok ⟨varIntValue f, f.length, x.length + f.length⟩ := by
  cases f with
  | nil => simp [isVarIntField] at hf
  | cons o f =>
    have hwid : varIntWidth o = (o :: f).length := by simpa [isVarIntField] using (beq_iff_eq.mp hf).symm
    have hfirst := hb.takeR_field (e := e) x [o] (f ++ y) (by simp [h]) (by simp at he ⊢; omega)
    have ho : BitVec.ofNat 8 (be [o]) = o := by simp [be]
    rw [List.length_singleton] at hfirst
    rw [readVarIntR_eq_bind, hfirst]
    simp only [Except.bind, ho, hwid, hb.takeR_field x (o :: f) y h he]
    rfl

/-- `ReadVarIntR` of a field of which only the first octet is sure to lie in the region: the width it announces is
tested next (R188). -/
theorem HoldsInput.readVarIntR_cut {e : Nat} {stop : Stop} (x : List Octet) (o : Octet) (y : List Octet)
    (h : b = x ++ o :: y) (he : x.length + 1 ≤ e) (hskip : skipR s x.length (varIntWidth o) e = .error stop) :
    readVarIntR s x.length e = .error stop := by
  have hfirst := hb.takeR_field (e := e) x [o] y (by simp [h]) he
  have ho : BitVec.ofNat 8 (be [o]) = o := by simp [be]
  rw [List.length_singleton] at hfirst
  rw [readVarIntR_eq_bind, hfirst]
  simp only [Except.bind, ho, takeR_of_skipR_error hskip]
  rfl

end region

/-! ### IP_DEC -/

section packet
variable {s : State} {p : LongPacket} {rest : List Octet} (hf : p.framed = true) (hm : p.measured = true)
  (hb : HoldsInput s (p.octets ++ rest))
include hf hm hb

/-- IP_DEC once the common fields are read: what is left is the token field. -/
theorem HoldsInput.ipDecode_packet :
    ipDecode s = (readVarIntR s p.headOctets.length p.octets.length).bind fun tl =>
      (skipR s tl.cur tl.value p.octets.length).map fun pay =>
        complete p.octets.length (writeInitial p.fields tl pay) s := by
  rw [ipDecode_eq_bind, hb.longCommon_packet hf hm]
  rfl

/-- IP_DEC of an Initial packet (R187). -/
theorem HoldsInput.ipDecode_initial {tl token payload : List Octet} (hreg : p.region = tl ++ token ++ payload)
    (htl : isVarIntField tl = true) (hval : varIntValue tl = token.length) :
    ipDecode s = .ok (complete p.octets.length (writeInitial p.fields
      ⟨token.length, tl.length, p.headOctets.length + tl.length⟩ (p.headOctets.length + tl.length + token.length)) s) := by
  have hlen : p.octets.length = p.headOctets.length + (tl.length + token.length + payload.length) := by
    rw [p.octets_length, hreg, List.length_append, List.length_append]
  have hsplit : p.octets ++ rest = p.headOctets ++ tl ++ (token ++ payload ++ rest) := by
    simp [LongPacket.octets, hreg]
  have hvar := hb.readVarIntR_field (e := p.octets.length) p.headOctets tl _ hsplit htl (by omega)
  have hskip : skipR s (p.headOctets.length + tl.length) token.length p.octets.length =
      .ok (p.headOctets.length + tl.length + token.length) := by
    rw [hb.skipR_eq, if_neg (by rw [List.length_append]; omega), if_neg (by omega)]
  rw [hval] at hvar
  rw [hb.ipDecode_packet hf hm, hvar]
  simp only [Except.bind, hskip]
  rfl

end packet

theorem exec_ipDec_of_ok {s t : State} (hcap : s.op.ilen ≤ s.params.bufMax) (h : ipDecode s = .ok t) :
    exec .ipDec s = .next t := by
  rw [exec_ipDec, guardInput_of_le hcap, h]
  rfl

/-- A token field that does not fit ends IP_DEC with the error of the bound it leaves: the buffer's first (R188). -/
theorem HoldsInput.exec_ipDec_of_tokenError {s : State} {b : List Octet} {x : Stop} {cur n e : Nat}
    (hb : HoldsInput s b) (hskip : skipR s cur n e = .error x) (hip : ipDecode s = .error x) :
    ∃ t, exec .ipDec s = .next t ∧ OperandsKept s t ∧
      t.res.status = if b.length < cur + n then 0b0010 else 0b1001 := by
  rw [hb.skipR_eq] at hskip
  rw [exec_ipDec, guardInput_of_le hb.capacity, hip]
  split_ifs at hskip with h1 h2 <;> cases hskip
  · exact ⟨_, rfl, raiseError_kept _ _ _, by rw [if_pos h1]; rfl⟩
  · exact ⟨_, rfl, raiseError_kept _ _ _, by rw [if_neg h1]; rfl⟩

/-- A skip past the region stops, at the buffer's bound or at the region's (R188). -/
theorem skipR_error_of_lt {s : State} {cur n e : Nat} (h : e < cur + n) : ∃ x, skipR s cur n e = .error x := by
  unfold skipR
  split_ifs
  · exact ⟨_, rfl⟩
  · exact ⟨_, rfl⟩

/-- Settles O33: the region is read as a token length, a token that is skipped, and the payload that is left. -/
theorem ipDecParsesInitialPacket : Obligations.IpDecParsesInitialPacket := by
  intro s p tl token payload rest hf hm hreg htl hval hb
  have hlt : token.length < 2 ^ 62 := hval ▸ (varIntValue_lt tl).trans_le (Nat.pow_le_pow_right (by decide) (by
    have := isVarIntField_length_mem htl
    simp only [List.mem_cons, List.not_mem_nil, or_false] at this
    omega))
  refine ⟨_, exec_ipDec_of_ok hb.capacity (hb.ipDecode_initial hf hm hreg htl hval), rfl,
    complete_kept _ _ _, (longResults_writeLong hf (freeResults s)).congr rfl rfl rfl rfl rfl rfl rfl rfl rfl, rfl,
    (BitVec.toNat_ofNat _ _).trans (Nat.mod_eq_of_lt hlt), rfl, rfl, ?_, rfl⟩
  show p.octets.length - (p.headOctets.length + tl.length + token.length) = payload.length
  rw [p.octets_length, hreg, List.length_append, List.length_append]
  omega

/-- Settles O34: in each place the token field is tested against the buffer, then against the region. -/
theorem ipDecTokenBounds : Obligations.IpDecTokenBounds := by
  refine ⟨fun s p rest hf hm hreg hb => ?_, fun s p o cut rest hf hm hreg hcut hb => ?_,
    fun s p tl tail rest hf hm hreg htl htail hb => ?_⟩
  · have hlen : p.octets.length = p.headOctets.length := by rw [p.octets_length, hreg]; rfl
    obtain ⟨x, hx⟩ := skipR_error_of_lt (s := s) (cur := p.headOctets.length) (n := 1) (e := p.octets.length) (by omega)
    have hvar : readVarIntR s p.headOctets.length p.octets.length = .error x := by
      rw [readVarIntR_eq_bind, takeR_of_skipR_error hx]
      rfl
    obtain ⟨t, ht, hk, hst⟩ := hb.exec_ipDec_of_tokenError hx (by rw [hb.ipDecode_packet hf hm, hvar]; rfl)
    refine ⟨t, ht, hk, hst.trans (if_congr ?_ rfl rfl)⟩
    rw [List.length_append, hlen, ← List.length_eq_zero_iff]
    omega
  · have hlen : p.octets.length = p.headOctets.length + (cut.length + 1) := by rw [p.octets_length, hreg]; rfl
    obtain ⟨x, hx⟩ := skipR_error_of_lt (s := s) (cur := p.headOctets.length) (n := varIntWidth o)
      (e := p.octets.length) (by omega)
    have hvar : readVarIntR s p.headOctets.length p.octets.length = .error x :=
      hb.readVarIntR_cut p.headOctets o (cut ++ rest) (by simp [LongPacket.octets, hreg]) (by omega) hx
    obtain ⟨t, ht, hk, hst⟩ := hb.exec_ipDec_of_tokenError hx (by rw [hb.ipDecode_packet hf hm, hvar]; rfl)
    refine ⟨t, ht, hk, hst.trans (if_congr ?_ rfl rfl)⟩
    rw [List.length_append]
    omega
  · have hlen : p.octets.length = p.headOctets.length + (tl.length + tail.length) := by
      rw [p.octets_length, hreg, List.length_append]
    have hvar := hb.readVarIntR_field (e := p.octets.length) p.headOctets tl (tail ++ rest)
      (by simp [LongPacket.octets, hreg]) htl (by omega)
    obtain ⟨x, hx⟩ := skipR_error_of_lt (s := s) (cur := p.headOctets.length + tl.length) (n := varIntValue tl)
      (e := p.octets.length) (by omega)
    obtain ⟨t, ht, hk, hst⟩ := hb.exec_ipDec_of_tokenError hx (by
      rw [hb.ipDecode_packet hf hm, hvar]
      simp only [Except.bind, hx]
      rfl)
    refine ⟨t, ht, hk, hst.trans (if_congr ?_ rfl rfl)⟩
    rw [List.length_append]
    omega

/-! ### IP_DEC against LH_DEC -/

/-- A buffer with one long-form packet of an empty region: LH_DEC accepts it, IP_DEC finds no token length. -/
def emptyRegionState : State :=
  ({ State.reset with params := ⟨16, 0, 4, 72, 7, 0⟩ } : State).loadInput [0x80, 0, 0, 0, 1, 0, 1, 0]

/-- Settles O35: both parsers share `LongCommon()`; IP_DEC splits the payload LH_DEC reports. -/
theorem initialParseRefinesLongParse : Obligations.InitialParseRefinesLongParse := by
  refine ⟨fun s t u ht hu => ?_, emptyRegionState, _, _, rfl, rfl, rfl, by decide⟩
  obtain ⟨hcap, ht'⟩ := guardInput_next ht
  cases hc : longCommon s with
  | error x =>
    rw [lhDecode_eq_map, hc] at ht'
    rcases conclude_next ht' with h | ⟨e, cur, h, rfl⟩
    · cases h
    cases h
    rw [exec_longParser_of_error (by decide) hcap hc] at hu
    cases hu
    exact ⟨fun _ => rfl, fun h0 => absurd h0 (errorStatus_ne_zero e)⟩
  | ok f =>
    rw [exec_lhDec_of_fields hcap hc] at ht
    cases ht
    refine ⟨fun h0 => absurd rfl h0, fun h0 => ?_⟩
    rcases conclude_next (guardInput_next hu).2 with h | ⟨e, cur, _, rfl⟩
    · simp only [ipDecode_eq_bind, hc, bind_eq_ok, map_eq_ok, Except.ok.injEq, exists_eq_left'] at h
      obtain ⟨tl, htl, pay, hpay, rfl⟩ := h
      obtain ⟨hcur, _, _, hwid, hval⟩ := readVarIntR_ok htl
      obtain ⟨rfl, hfit, _⟩ := skipR_ok hpay
      refine ⟨rfl, rfl, rfl, rfl, rfl, rfl, rfl, rfl, rfl, rfl, rfl, tl.width, hwid, hcur, ?_⟩
      show f.regionEnd - f.regionStart =
        tl.width + (BitVec.ofNat 62 tl.value).toNat + (f.regionEnd - (tl.cur + tl.value))
      rw [BitVec.toNat_ofNat, Nat.mod_eq_of_lt hval]
      omega
    · exact absurd h0 (errorStatus_ne_zero e)

end Sys2Proof.Machine

/-! PROOFS. The VersionNegotiation parser (43_header_decode.md R190 to R193): the head field by field, then the loop that
collects the versions. -/

namespace Sys2Proof.Machine

/-! ### The head of a VersionNegotiation packet -/

/-- The steps of VN_DEC before its loop: the version is tested as soon as it is read (R190). -/
def vnHead (s : State) : Except Stop Ids :=
  (take s 0 1).bind fun o => (take s o.2 4).bind fun v =>
    if be v.1 = 0 then readCids s v.2 else .error (.raised .unsupportedVersionField v.2)

theorem vnDecode_eq_head_bind (s : State) :
    vnDecode s = (vnHead s).bind fun ids => (readVersions s s.op.ilen ids.cur []).map fun q =>
      complete q.2 (writeVersionNegotiation ids q.1 q.2) s := by
  rw [vnDecode_eq_bind, vnHead]
  rcases take s 0 1 with _ | o
  · rfl
  dsimp only [Except.bind]
  rcases take s o.2 4 with _ | v
  · rfl
  dsimp only
  split <;> rfl

/-- First octet, version and identifiers, in wire order (R100). -/
def VnPacket.headOctets (p : VnPacket) : List Octet := p.first :: ([0, 0, 0, 0] ++ idOctets p.dcid p.scid)

/-- The versions to the packet's end (R100). -/
def versionOctets (vs : List Version) : List Octet := vs.flatMap fun v => beN 4 v.toNat

theorem VnPacket.octets_eq (p : VnPacket) : p.octets = p.headOctets ++ versionOctets p.versions := by
  simp [VnPacket.octets, VnPacket.headOctets, versionOctets]

theorem versionOctets_length (vs : List Version) : (versionOctets vs).length = 4 * vs.length := by
  induction vs with
  | nil => rfl
  | cons v vs ih =>
    have : (versionOctets (v :: vs)).length = 4 + (versionOctets vs).length := by simp [versionOctets]
    rw [this, ih, List.length_cons]
    omega

theorem VnPacket.headOctets_length (p : VnPacket) :
    p.headOctets.length = 6 + p.dcid.length + p.scid.length := by
  simp [VnPacket.headOctets, idOctets]
  omega

theorem VnPacket.octets_length (p : VnPacket) : p.octets.length = p.headOctets.length + 4 * p.versions.length := by
  rw [p.octets_eq, List.length_append, versionOctets_length]

theorem VnPacket.framed_iff (p : VnPacket) : p.framed = true ↔ p.dcid.length ≤ 15 ∧ p.scid.length ≤ 15 := by
  simp [VnPacket.framed]

/-- What the identifiers of a packet are read as. -/
def VnPacket.ids (p : VnPacket) : Ids := ⟨p.dcid.length, p.scid.length, p.dcid, p.scid, p.headOctets.length⟩

theorem Window.vnHead {s : State} {p : VnPacket} {w y : List Octet} {k : Nat} {P : Stop → Prop}
    (hw : Window s w k P) (hwhole : w = p.headOctets ++ y) (hf : p.framed = true) :
    Yields k P (vnHead s) p.ids p.headOctets.length := by
  obtain ⟨hd, hs⟩ := p.framed_iff.mp hf
  have h1 := hw.take_field (x := []) (f := [p.first]) (y := [0, 0, 0, 0] ++ idOctets p.dcid p.scid ++ y)
    (by simp [hwhole, VnPacket.headOctets]) (Nat.zero_le _)
  have h2 := hw.take_field (x := [p.first]) (f := [0, 0, 0, 0]) (y := idOctets p.dcid p.scid ++ y)
    (by simp [hwhole, VnPacket.headOctets])
  have h3 := hw.readCids_field (x := [p.first] ++ [0, 0, 0, 0]) (y := y) (by simp [hwhole, VnPacket.headOctets]) hd hs
  have hlen : p.headOctets.length = 5 + (idOctets p.dcid p.scid).length := by
    simp [VnPacket.headOctets]
    omega
  simp only [List.length_append, List.length_cons, List.length_nil, Nat.zero_add, Nat.reduceAdd] at h1 h2 h3
  rw [← hlen] at h3
  exact h1.bind (by omega) fun hk1 => (h2 hk1).bind (by omega) fun hk2 => by
    dsimp only
    rw [if_pos (by decide)]
    exact h3 hk2

/-! ### The loop over the versions -/

/-- The versions of a packet inserted one after the other (R190). -/
def insertVersions (acc : List Version) (vs : List Version) : List Version :=
  vs.foldl (fun l v => insertVersion v l) acc

theorem mem_insertVersions (x : Version) (acc vs : List Version) : x ∈ insertVersions acc vs ↔ x ∈ acc ∨ x ∈ vs := by
  induction vs generalizing acc with
  | nil => simp [insertVersions]
  | cons v vs ih =>
    show x ∈ insertVersions (insertVersion v acc) vs ↔ _
    rw [ih, mem_insertVersion, List.mem_cons]
    tauto

theorem insertVersions_ascending {acc : List Version} (h : acc.Pairwise (· < ·)) (vs : List Version) :
    (insertVersions acc vs).Pairwise (· < ·) := by
  induction vs generalizing acc with
  | nil => exact h
  | cons v vs ih => exact ih (insertVersion_ascending v acc h)

/-- The loop reads whole versions one after the other, up to the cut; nothing of what follows them matters. -/
theorem Window.readVersions {s : State} {w y : List Octet} {k : Nat} {P : Stop → Prop} (hw : Window s w k P)
    (hbuf : w.length ≤ s.op.ilen) (fuel : Nat) (vs : List Version) {x : List Octet} (h : w = x ++ versionOctets vs ++ y)
    (hx : x.length ≤ k) (acc : List Version) :
    (x.length + 4 * vs.length ≤ k ∧ readVersions s (fuel + vs.length) x.length acc =
      readVersions s fuel (x.length + 4 * vs.length) (insertVersions acc vs)) ∨
    (k < x.length + 4 * vs.length ∧ ∃ e, readVersions s (fuel + vs.length) x.length acc = .error e ∧ P e) := by
  induction vs generalizing x acc with
  | nil => exact .inl ⟨hx, rfl⟩
  | cons v vs ih =>
    have hsplit : w = x ++ beN 4 v.toNat ++ (versionOctets vs ++ y) := by simp [h, versionOctets]
    have hlen : w.length = x.length + 4 + (4 * vs.length + y.length) := by
      simp only [hsplit, List.length_append, beN_length, versionOctets_length]
    have htake := hw.take_field hsplit hx
    have hval : BitVec.ofNat 32 (be (beN 4 v.toNat)) = v := by
      rw [be_beN_of_lt 4 _ v.isLt]
      exact BitVec.ofNat_toNat ..
    rw [beN_length] at htake
    rw [List.length_cons, ← Nat.add_assoc, readVersions_succ, if_pos (by omega)]
    rcases htake with ⟨hk, htake⟩ | ⟨hk, e, htake, he⟩
    · have hrest := ih (x := x ++ beN 4 v.toNat) (by simp [hsplit]) (by simpa using hk) (insertVersion v acc)
      rw [List.length_append, beN_length] at hrest
      simp only [htake, Except.bind, hval, Nat.mul_add, Nat.mul_one]
      rw [show x.length + (4 * vs.length + 4) = x.length + 4 + 4 * vs.length by omega]
      exact hrest
    · exact .inr ⟨by omega, e, by rw [htake]; rfl, he⟩

/-- The loop ends with the buffer (R191). -/
theorem readVersions_at_end {s : State} {cur : Nat} (h : s.op.ilen ≤ cur) (fuel : Nat) (vs : List Version) :
    readVersions s fuel cur vs = .ok (vs, cur) := by
  cases fuel with
  | zero => rfl
  | succ fuel => rw [readVersions_succ, if_neg (by omega)]

/-- Every round of the loop takes 4 octets, so the length of the buffer is fuel enough (R191). -/
theorem VnPacket.fuel {p : VnPacket} {n : Nat} (h : p.octets.length ≤ n) : ∃ fuel, n = fuel + 1 + p.versions.length := by
  have := p.octets_length
  have := p.headOctets_length
  exact ⟨n - 1 - p.versions.length, by omega⟩

theorem HoldsInput.vnDecode_packet {s : State} {p : VnPacket} (hf : p.framed = true) (hb : HoldsInput s p.octets) :
    vnDecode s = .ok (complete p.octets.length
      (writeVersionNegotiation p.ids (insertVersions [] p.versions) p.octets.length) s) := by
  have hw : Window s p.octets p.octets.length (fun _ => False) :=
    HoldsInput.window (y := []) (by rwa [List.append_nil])
  have hlen := p.octets_length
  obtain ⟨fuel, hfuel⟩ := p.fuel hb.ilen.ge
  have hhead : vnHead s = .ok p.ids := (hw.vnHead p.octets_eq hf).ok (by omega)
  have hloop : Machine.readVersions s s.op.ilen p.headOctets.length [] =
      .ok (insertVersions [] p.versions, p.octets.length) := by
    rcases hw.readVersions hb.ilen.ge (fuel + 1) p.versions (x := p.headOctets) (y := [])
      (by rw [List.append_nil, p.octets_eq]) (by omega) [] with ⟨_, h⟩ | ⟨hlt, _⟩
    · rw [hfuel, h, ← hlen, readVersions_at_end hb.ilen.le]
    · omega
  rw [vnDecode_eq_head_bind, hhead]
  simp only [Except.bind, VnPacket.ids, hloop]
  rfl

/-! ### VN_DEC -/

theorem exec_vnDec_of_ok {s t : State} (hcap : s.op.ilen ≤ s.params.bufMax) (h : vnDecode s = .ok t) :
    exec .vnDec s = .next t := by
  rw [exec_vnDec, guardInput_of_le hcap, h]
  rfl

theorem exec_vnDec_of_raised {s : State} {e : ErrorKind} {cur : Nat} (hcap : s.op.ilen ≤ s.params.bufMax)
    (h : vnDecode s = .error (.raised e cur)) : exec .vnDec s = .next (raiseError e cur s) := by
  rw [exec_vnDec, guardInput_of_le hcap, h]
  rfl

/-- The registers VN_DEC writes report the packet (R190, R193). -/
theorem vnResults_complete {p : VnPacket} (hf : p.framed = true) (s : State) :
    VnResults p (complete p.octets.length
      (writeVersionNegotiation p.ids (insertVersions [] p.versions) p.octets.length) s).res := by
  obtain ⟨hd, hs⟩ := p.framed_iff.mp hf
  have htake : (writeVersions (insertVersions [] p.versions) (freeResults s).vers).take
      (insertVersions [] p.versions).length = insertVersions [] p.versions := by
    simp [writeVersions]
  refine ⟨rfl, rfl, ?_, ?_, writeCid_take _ _ hd, writeCid_take _ _ hs, ?_, ?_, fun v => ?_, rfl⟩
  · exact (BitVec.toNat_ofNat _ _).trans (Nat.mod_eq_of_lt (Nat.lt_of_le_of_lt hd (by decide)))
  · exact (BitVec.toNat_ofNat _ _).trans (Nat.mod_eq_of_lt (Nat.lt_of_le_of_lt hs (by decide)))
  · exact congrArg List.length htake
  · exact htake.symm ▸ insertVersions_ascending List.Pairwise.nil _
  · have hmem := mem_insertVersions v [] p.versions
    rw [← htake] at hmem
    exact hmem.trans (by simp)

/-- Settles O37: the head, then every version of the packet inserted into the set. -/
theorem vnDecCollectsVersionSet : Obligations.VnDecCollectsVersionSet := fun s _ hf hb =>
  ⟨_, exec_vnDec_of_ok hb.capacity (hb.vnDecode_packet hf), rfl, complete_kept _ _ _, vnResults_complete hf s⟩

theorem vnDecode_of_head_error {s : State} {x : Stop} (h : vnHead s = .error x) : vnDecode s = .error x := by
  rw [vnDecode_eq_head_bind, h]
  rfl

/-- A version field other than four zero octets has a value other than zero. -/
theorem be_ne_zero {v : List Octet} (hlen : v.length = 4) (hv : v ≠ [0, 0, 0, 0]) : be v ≠ 0 :=
  fun h => hv (be_inj v [0, 0, 0, 0] hlen h)

/-- Settles O38: the head is cut, its version is refused, or the loop finds 1 to 3 octets where 4 are needed. -/
theorem vnDecRejects : Obligations.VnDecRejects := by
  refine ⟨fun s b hb hlt => ?_, fun s o v rest hb hlen hv => ?_, fun s p k hf hk hb => ?_,
    fun s p tail hf hb h1 h3 => ?_⟩
  · have hhead : ∃ cur, vnHead s = .error (.raised .bufferTooShort cur) := by
      rw [vnHead, hb.take_eq]
      by_cases h0 : b.length < 0 + 1
      · exact ⟨0, by rw [if_pos h0]; rfl⟩
      · refine ⟨1, ?_⟩
        simp only [if_neg h0, Except.bind, hb.take_eq, if_pos (show b.length < 0 + 1 + 4 by omega)]
    obtain ⟨cur, hhead⟩ := hhead
    exact ⟨_, exec_vnDec_of_raised hb.capacity (vnDecode_of_head_error hhead), rfl, raiseError_kept _ _ _⟩
  · have hfirst := hb.take_field [] [o] (v ++ rest) (by simp)
    have hver := hb.take_field [o] v rest (by simp)
    simp only [List.length_cons, List.length_nil, Nat.zero_add, hlen] at hfirst hver
    have hhead : vnHead s = .error (.raised .unsupportedVersionField 5) := by
      simp only [vnHead, hfirst, hver, Except.bind, if_neg (be_ne_zero hlen hv)]
    exact ⟨_, exec_vnDec_of_raised hb.capacity (vnDecode_of_head_error hhead), rfl, raiseError_kept _ _ _⟩
  · have hk' : k < p.headOctets.length := by rwa [p.headOctets_length]
    have hcut : p.octets.take k = (p.headOctets ++ []).take k := by
      rw [p.octets_eq, List.take_append_of_le_length hk'.le, List.append_nil]
    rw [hcut] at hb
    obtain ⟨x, hx, cur, rfl⟩ := ((hb.window_cut (by simpa using hk'.le)).vnHead rfl hf).stops hk'
    exact ⟨_, exec_vnDec_of_raised hb.capacity (vnDecode_of_head_error hx), rfl, raiseError_kept _ _ _⟩
  · have hw := hb.window
    have hlen := p.octets_length
    have hilen : s.op.ilen = p.octets.length + tail.length := by rw [hb.ilen, List.length_append]
    obtain ⟨fuel, hfuel⟩ := p.fuel (n := s.op.ilen) (by omega)
    have hhead : vnHead s = .ok p.ids := (hw.vnHead p.octets_eq hf).ok (by omega)
    have hloop : readVersions s s.op.ilen p.headOctets.length [] =
        .error (.raised .bufferTooShort p.octets.length) := by
      rcases hw.readVersions (by omega) (fuel + 1) p.versions (x := p.headOctets) (y := [])
        (by rw [List.append_nil, p.octets_eq]) (by omega) [] with ⟨_, h⟩ | ⟨hlt, _⟩
      · rw [hfuel, h, ← hlen, readVersions_succ, if_pos (by omega), take, skip_of_lt (by omega)]
        rfl
      · omega
    have hvn : vnDecode s = .error (.raised .bufferTooShort p.octets.length) := by
      rw [vnDecode_eq_head_bind, hhead]
      simp only [Except.bind, VnPacket.ids, hloop]
      rfl
    exact ⟨_, exec_vnDec_of_raised hb.capacity hvn, rfl, raiseError_kept _ _ _⟩

end Sys2Proof.Machine

/-! PROOFS. The header builders emit the packet of the value their operands hold (44_header_encode.md R211 to R215), and
VI_DEC does not look at the selector bits (40_varint.md R137). -/

namespace Sys2Proof.Machine

/-! ### The packet of a long-form value -/

/-- The operand value of a long-form builder, for a packet number field and a payload (R210). -/
def State.longValue (s : State) (pnb payload : List Octet) : LongHeader where
  type := s.op.hType
  version := s.op.hVer
  dcid := s.dcidOperand
  scid := s.scidOperand
  pn := ⟨s.op.hPn.toNat, pnb.length⟩
  payload := payload

theorem toNat_longFirst (t : BitVec 7) : (BitVec.ofNat 8 (128 + t.toNat)).toNat = 128 + t.toNat :=
  toNat_ofNat_octet (by have := t.isLt; omega)

theorem cidsToEmit_flatten (s : State) : (cidsToEmit s).flatten = idOctets s.dcidOperand s.scidOperand := by
  have hcil : s.op.hDcil.toNat <<< 4 ||| s.op.hScil.toNat = 16 * s.dcidOperand.length + s.scidOperand.length := by
    rw [shift_or _ s.op.hScil.isLt, dcidOperand_length, scidOperand_length, Nat.mul_comm]
    rfl
  simp [cidsToEmit, hcil, idOctets, beN]

/-- The first fields a long-form builder emits are those of its value's packet, whatever the region (R211). -/
theorem longPrefix_flatten (s : State) (pnb payload region : List Octet) :
    (longPrefix s).flatten ++ varIntField (pnb.length + region.length) ++ pnField ⟨s.op.hPn.toNat, pnb.length⟩ =
      ((s.longValue pnb payload).packet region).headOctets := by
  have hfirst : 0x80 ||| s.op.hType.toNat = 128 + s.op.hType.toNat := shift_or (k := 7) 1 s.op.hType.isLt
  simp [longPrefix, cidsToEmit_flatten, hfirst, beN, LongPacket.headOctets, LongHeader.packet, State.longValue]

/-- A value whose packet number fits and whose region a VarInt can count has a well-framed, measured packet. -/
theorem LongHeader.packet_framed {h : LongHeader} {region : List Octet} (hd : h.dcid.length ≤ 15)
    (hs : h.scid.length ≤ 15) (hpn : h.pn.fits = true) (hlen : h.pn.width + region.length ≤ 2 ^ 62 - 1) :
    (h.packet region).framed = true ∧ (h.packet region).measured = true := by
  refine ⟨(LongPacket.framed_iff _).mpr ⟨hd, hs, isVarIntField_varIntField hlen, isPnField_pnField hpn⟩,
    (LongPacket.measured_iff _).mpr ?_⟩
  show varIntValue (varIntField (h.pn.width + region.length)) = (pnField h.pn).length + region.length
  rw [varIntValue_varIntField hlen, pnField_length ((pnFits_iff _).mp hpn).1]

theorem LongHeader.packet_octets_length {h : LongHeader} (region : List Octet) (hpn : h.pn.fits = true) :
    (h.packet region).octets.length = 6 + h.dcid.length + h.scid.length + varIntLength (h.pn.width + region.length) +
      h.pn.width + region.length := by
  have hids : (idOctets h.dcid h.scid).length = 1 + h.dcid.length + h.scid.length := by
    simp [idOctets]
    omega
  rw [LongPacket.octets_length, LongPacket.headOctets_length]
  simp only [LongHeader.packet, varIntField_length, pnField_length ((pnFits_iff _).mp hpn).1, hids]
  omega

/-! ### LH_ENC -/

section builders
variable {s : State} {pnb payload token : List Octet} (hp : s.params.Legal) (hb : HoldsInput s payload)
  (hpn : encPn s.op.hPn.toNat s.op.hPnw.toNat = .ok pnb)

theorem longValue_pn_fits (hpn : encPn s.op.hPn.toNat s.op.hPnw.toNat = .ok pnb) (payload : List Octet) :
    (s.longValue pnb payload).pn.fits = true := (encPn_eq_ok hpn).2

theorem readInput_whole (hb : HoldsInput s payload) : readInput s 0 s.op.ilen = .ok payload := by
  rw [readInput, hb.ilen, hb.octets]

include hp hb hpn in
/-- LH_ENC emits the packet of its operand value (R211, R212). -/
theorem lhEncode_eq_packet : lhEncode s =
    .ok (completeEncode (emit Out.empty ((s.longValue pnb payload).packet payload).octets) id s) := by
  have hlen : pnb.length + s.op.ilen ≤ 2 ^ 62 - 1 := by
    have hsum := hp.2.1
    have hpnb := (encPn_ok hpn).1
    simp only [List.mem_cons, List.not_mem_nil, or_false] at hpnb
    have := hb.capacity
    omega
  have hoct : (longPrefix s ++ [varIntField (pnb.length + s.op.ilen), pnb, payload]).flatten =
      ((s.longValue pnb payload).packet payload).octets := by
    have hpre := longPrefix_flatten s pnb payload payload
    rw [← (encPn_eq_ok hpn).1, ← hb.ilen] at hpre
    rw [LongPacket.octets, ← hpre]
    simp [LongHeader.packet]
  rw [← hoct, emit_empty, ← emitAll_empty, lhEncode_eq_bind]
  simp only [hpn, raising, Except.bind, encVarInt_eq_varIntField hlen, readInput_whole hb, Except.map]

include hp hb hpn in
theorem exec_lhEnc_eq_packet : exec .lhEnc s =
    .next (completeEncode (emit Out.empty ((s.longValue pnb payload).packet payload).octets) id s) := by
  rw [exec_lhEnc, guardInput_of_le hb.capacity, lhEncode_eq_packet hp hb hpn]
  rfl

/-- The region of an Initial packet (R99, R213). -/
def initialRegion (token payload : List Octet) : List Octet := varIntField token.length ++ token ++ payload

theorem initialRegion_length (token payload : List Octet) :
    (initialRegion token payload).length = varIntLength token.length + token.length + payload.length := by
  simp [initialRegion, Nat.add_assoc]

/-- What an Initial builder asks of its `length` VarInt is far below the largest (R6, R236). -/
theorem initialRegion_length_le (hp : s.params.Legal) (hb : HoldsInput s payload) (ht : HoldsToken s token)
    (hpn : encPn s.op.hPn.toNat s.op.hPnw.toNat = .ok pnb) :
    pnb.length + (initialRegion token payload).length ≤ 2 ^ 62 - 1 := by
  have hsum := hp.2.1
  have hpnb := (encPn_ok hpn).1
  have hvar := varIntField_length_mem token.length
  simp only [List.mem_cons, List.not_mem_nil, or_false, varIntField_length] at hpnb hvar
  have := hb.capacity
  have := ht.capacity
  have := hb.ilen
  have := ht.tlen
  rw [initialRegion_length]
  omega

include hp hb hpn in
/-- IP_ENC emits the packet of its operand value (R213, R212). -/
theorem ipEncode_eq_packet (ht : HoldsToken s token) : ipEncode s =
    .ok (completeEncode
      (emit Out.empty ((s.longValue pnb payload).packet (initialRegion token payload)).octets) id s) := by
  have hlen := initialRegion_length_le hp hb ht hpn
  have hsum : pnb.length + (varIntField s.op.tlen).length + s.op.tlen + s.op.ilen =
      pnb.length + (initialRegion token payload).length := by
    rw [initialRegion_length, varIntField_length, ht.tlen, hb.ilen]
    omega
  have htl : s.op.tlen ≤ 2 ^ 62 - 1 := by
    rw [initialRegion_length] at hlen
    have := ht.tlen
    omega
  have htoken : readToken s = .ok token := by rw [readToken, ht.tlen, ht.octets]
  have hoct : (longPrefix s ++ [varIntField (pnb.length + (initialRegion token payload).length), pnb,
      varIntField s.op.tlen, token, payload]).flatten =
      ((s.longValue pnb payload).packet (initialRegion token payload)).octets := by
    have hpre := longPrefix_flatten s pnb payload (initialRegion token payload)
    rw [← (encPn_eq_ok hpn).1] at hpre
    rw [LongPacket.octets, ← hpre, ht.tlen]
    simp [LongHeader.packet, initialRegion]
  rw [← hoct, emit_empty, ← emitAll_empty, ipEncode_eq_bind]
  simp only [hpn, raising, Except.bind, encVarInt_eq_varIntField htl, hsum, encVarInt_eq_varIntField hlen, htoken,
    readInput_whole hb, Except.map]

include hp hb hpn in
theorem exec_ipEnc_eq_packet (ht : HoldsToken s token) : exec .ipEnc s =
    .next (completeEncode
      (emit Out.empty ((s.longValue pnb payload).packet (initialRegion token payload)).octets) id s) := by
  rw [exec_ipEnc, guardInput_of_le hb.capacity, guardToken_of_le ht.capacity, ipEncode_eq_packet hp hb hpn ht]
  rfl

end builders

/-! ### VN_ENC -/

/-- The packet of a VN_ENC's operand value (R214). -/
def State.vnPacket (s : State) : VnPacket := ⟨0x80, s.dcidOperand, s.scidOperand, s.versionsOperand⟩

/-- VN_ENC emits the packet of its operand value (R214, R215). -/
theorem exec_vnEnc_eq_packet {s : State} (h : s.op.nver ≤ s.params.nverMax) :
    exec .vnEnc s = .next (completeEncode (emit Out.empty s.vnPacket.octets) id s) := by
  have hoct : ([[0x80], [0x00, 0x00, 0x00, 0x00]] ++ cidsToEmit s ++
      s.versionsOperand.map (fun v : Version => beN 4 v.toNat)).flatten = s.vnPacket.octets := by
    simp [cidsToEmit_flatten, State.vnPacket, VnPacket.octets, List.flatMap_def]
  rw [exec_vnEnc, guardVersions_of_le h, vnEncode, emitAll_empty, hoct, ← emit_empty]
  rfl

theorem vnPacket_framed (s : State) : s.vnPacket.framed = true :=
  s.vnPacket.framed_iff.mpr ⟨dcidOperand_length_le s, scidOperand_length_le s⟩

/-! ### The obligations -/

/-- Settles O41: the output is the packet of the operand value. -/
theorem lhEncBuildsLongHeader : Obligations.LhEncBuildsLongHeader := by
  intro s payload pnb hp hb hpn
  have hlen : pnb.length + payload.length ≤ 2 ^ 62 - 1 := by
    have hsum := hp.2.1
    have hpnb := (encPn_ok hpn).1
    simp only [List.mem_cons, List.not_mem_nil, or_false] at hpnb
    have := hb.capacity
    have := hb.ilen
    omega
  obtain ⟨hf, hm⟩ := LongHeader.packet_framed (h := s.longValue pnb payload) (region := payload)
    (dcidOperand_length_le s) (scidOperand_length_le s) (longValue_pn_fits hpn payload) hlen
  exact ⟨_, (s.longValue pnb payload).packet payload, exec_lhEnc_eq_packet hp hb hpn, rfl, completeEncode_kept _ _ _,
    completeEncode_holdsOutput _ _ _, hf, hm, toNat_longFirst _, rfl, rfl, rfl, dcidOperand_length s,
    scidOperand_length s, encVarInt_eq_varIntField hlen, (encPn_eq_ok hpn).1.symm, rfl⟩

/-- Settles O42: the output is the packet of the operand value, its region the token field and the payload. -/
theorem ipEncBuildsInitialPacket : Obligations.IpEncBuildsInitialPacket := by
  intro s token payload pnb hp hb ht hpn
  have hlen := initialRegion_length_le hp hb ht hpn
  have htl : token.length ≤ 2 ^ 62 - 1 := by
    rw [initialRegion_length] at hlen
    omega
  have hsum : pnb.length + (varIntField token.length).length + token.length + payload.length =
      pnb.length + (initialRegion token payload).length := by
    rw [initialRegion_length, varIntField_length]
    omega
  obtain ⟨hf, hm⟩ := LongHeader.packet_framed (h := s.longValue pnb payload) (region := initialRegion token payload)
    (dcidOperand_length_le s) (scidOperand_length_le s) (longValue_pn_fits hpn payload) hlen
  exact ⟨_, (s.longValue pnb payload).packet (initialRegion token payload), varIntField token.length,
    exec_ipEnc_eq_packet hp hb hpn ht, rfl, completeEncode_kept _ _ _, completeEncode_holdsOutput _ _ _, hf, hm,
    toNat_longFirst _, rfl, rfl, rfl, encVarInt_eq_varIntField htl, hsum ▸ encVarInt_eq_varIntField hlen,
    (encPn_eq_ok hpn).1.symm, rfl⟩

/-- Both long-form builders end with the packet-number encoder's error, before they read anything (R211, R213). -/
theorem exec_longBuilder_of_encPn_error {s : State} {i : Instr} {e : ErrorKind} (hi : i ∈ [.lhEnc, .ipEnc])
    (hin : s.op.ilen ≤ s.params.bufMax) (htok : s.op.tlen ≤ s.params.tokMax)
    (h : encPn s.op.hPn.toNat s.op.hPnw.toNat = .error e) : exec i s = .next (raiseError e 0 s) := by
  simp only [List.mem_cons, List.not_mem_nil, or_false] at hi
  rcases hi with rfl | rfl
  · rw [exec_lhEnc, guardInput_of_le hin, lhEncode_eq_bind, h]
    rfl
  · rw [exec_ipEnc, guardInput_of_le hin, guardToken_of_le htok, ipEncode_eq_bind, h]
    rfl

/-- Settles O43: the packet-number encoder comes first. -/
theorem builderErrorsAreThePacketNumbers : Obligations.BuilderErrorsAreThePacketNumbers := by
  intro i s hi hin htok
  refine ⟨fun hreq => ?_, fun w hreq hw hv => ?_⟩
  · exact ⟨_, exec_longBuilder_of_encPn_error hi hin htok (encPn_badRequest hreq), rfl, raiseError_kept _ _ _⟩
  · exact ⟨_, exec_longBuilder_of_encPn_error hi hin htok (by rw [hreq]; exact encPn_tooLarge hw hv), rfl,
      raiseError_kept _ _ _⟩

/-- Settles O44: the output is the packet of the operand set. -/
theorem vnEncBuildsVersionNegotiation : Obligations.VnEncBuildsVersionNegotiation := by
  intro s h
  refine ⟨_, s.vnPacket, exec_vnEnc_eq_packet h, rfl, completeEncode_kept _ _ _, completeEncode_holdsOutput _ _ _,
    vnPacket_framed s, rfl, rfl, rfl, versionSet_ascending _, fun v => ?_⟩
  show v ∈ versionSet ((List.range s.op.nver).map s.versionEntry) ↔ _
  rw [mem_versionSet, List.mem_map]
  simp only [List.mem_range]

/-- The top two bits of the first octet are above the value bits (R137, R139). -/
theorem varIntValue_cons_congr {o p : Octet} (b : List Octet) (h : o.toNat % 64 = p.toNat % 64) :
    varIntValue (o :: b) = varIntValue (p :: b) := by
  have hpow : 2 ^ (8 * (b.length + 1) - 2) = 64 * 256 ^ b.length := by
    rw [show 8 * (b.length + 1) - 2 = 6 + 8 * b.length by omega, Nat.pow_add, Nat.pow_mul]
  have hhigh : o.toNat * 256 ^ b.length ≡ p.toNat * 256 ^ b.length [MOD 64 * 256 ^ b.length] :=
    Nat.ModEq.mul_right' _ h
  rw [varIntValue, varIntValue, and_ones, and_ones, be_cons, be_cons, List.length_cons, List.length_cons, hpow]
  exact hhigh.add_right _

/-- Settles O24: the value depends on the length and on the bits below the selector. -/
theorem viDecIgnoresSelectorBits : Obligations.ViDecIgnoresSelectorBits := by
  intro s u o p b hs hu hlen h
  refine ⟨_, _, exec_viDec_of_holdsInput hs hlen, exec_viDec_of_holdsInput hu hlen, rfl, rfl, ?_, rfl, rfl⟩
  exact congrArg (BitVec.ofNat 64) (varIntValue_cons_congr b h)

end Sys2Proof.Machine

/-! PROOFS. The Packet Dispatcher (45_dispatcher.md): where PK_PARSE routes a buffer (R240, R241, R243), the packet rows
(30_encoding.md R97; log 18), and PK_BUILD (R244). -/

namespace Sys2Proof.Machine

/-! ### Routing -/

theorem slice_form (o : Octet) : slice o.toNat 7 7 = o.toNat / 128 := by
  have := o.isLt
  simp only [slice]
  omega

theorem routePacket_short {s : State} {o : Octet} (h : o.toNat < 128) : routePacket s o = shDecode s := by
  rw [routePacket_eq_ite, if_pos (by rw [slice_form]; omega)]

theorem routePacket_long {s : State} {o : Octet} (h : 128 ≤ o.toNat) :
    routePacket s o = (peekVersion s).bind fun v =>
      if v = 0 then vnDecode s
      else if o.toNat - 128 = s.params.initialType.toNat then ipDecode s else lhDecode s := by
  have hform : ¬ slice o.toNat 7 7 = 0 := by rw [slice_form]; omega
  have htype : slice o.toNat 6 0 = o.toNat - 128 := by
    have := o.isLt
    rw [slice_low]
    omega
  rw [routePacket_eq_ite, if_neg hform, htype]

section known
variable {s : State} {o : Octet} {v b : List Octet}

theorem HoldsInput.pkParse_eq_route (hb : HoldsInput s (o :: b)) : pkParse s = routePacket s o := by
  have hpeek : peek s 0 0 = .ok o := hb.peek_field [] o b rfl
  rw [pkParse_eq_bind, hpeek]
  rfl

theorem HoldsInput.peekVersion_eq (hb : HoldsInput s (o :: (v ++ b))) (hv : v.length = 4) :
    peekVersion s = .ok (be v) := by
  obtain ⟨v1, v2, v3, v4, rfl⟩ := List.length_eq_four.mp hv
  simp [peekVersion_eq_bind, hb.peek_eq, Except.bind, Except.map]

theorem HoldsInput.peekVersion_short (hb : HoldsInput s (o :: b)) (h : b.length < 4) :
    ∃ cur, peekVersion s = .error (.raised .bufferTooShort cur) := by
  cases hv : peekVersion s with
  | ok v =>
    simp only [peekVersion_eq_bind, bind_eq_ok, map_eq_ok] at hv
    obtain ⟨_, _, _, _, _, _, _, h4, _⟩ := hv
    have := (peek_ok h4).1
    rw [hb.ilen, List.length_cons] at this
    omega
  | error x =>
    rcases peekVersion_stops hv with ⟨e, cur, rfl, rfl, _⟩ | rfl
    · exact ⟨cur, rfl⟩
    · exact absurd hv (hb.written.peekVersion _)

/-- PK_PARSE of a long form whose version field is whole (R241). -/
theorem HoldsInput.exec_pkParse_long (hb : HoldsInput s (o :: (v ++ b))) (ho : 128 ≤ o.toNat) (hv : v.length = 4) :
    exec .pkParse s =
      if be v = 0 then exec .vnDec s
      else if o.toNat - 128 = s.params.initialType.toNat then exec .ipDec s else exec .lhDec s := by
  rw [exec_pkParse, hb.pkParse_eq_route, routePacket_long ho, hb.peekVersion_eq hv]
  dsimp only [Except.bind]
  split_ifs <;> rfl

end known

/-- Settles O48: form bit, then version, then type. -/
theorem pkParseRoutes : Obligations.PkParseRoutes := by
  refine ⟨fun s hb => ?_, fun s o b hb ho => ?_, fun s o b hb ho hlt => ?_, fun s o b hb ho => ?_,
    fun s o v b hb ho hlen hv => ?_⟩
  · have hpeek : peek s 0 0 = .error (.raised .bufferTooShort 0) := peek_of_le hb.ilen.le
    refine ⟨raiseError .bufferTooShort 0 s, ?_, rfl, raiseError_kept _ _ _⟩
    rw [exec_pkParse, guardInput_of_le hb.capacity, pkParse_eq_bind, hpeek]
    rfl
  · rw [exec_pkParse, guardInput_of_le hb.capacity, hb.pkParse_eq_route, routePacket_short ho]
    rfl
  · obtain ⟨cur, hver⟩ := hb.peekVersion_short hlt
    refine ⟨raiseError .bufferTooShort cur s, ?_, rfl, raiseError_kept _ _ _⟩
    rw [exec_pkParse, guardInput_of_le hb.capacity, hb.pkParse_eq_route, routePacket_long ho, hver]
    rfl
  · rw [hb.exec_pkParse_long ho rfl, if_pos (by decide)]
  · rw [hb.exec_pkParse_long ho hlen, if_neg (be_ne_zero hlen hv)]

/-! ### The packet rows -/

theorem decodeFirstOctet_pktShort {o : Octet} (h : o.toNat < 128) : decodeFirstOctet .packet o = .pktShort o.toNat := by
  have hw := decodeWord_wire .packet o.isLt
  rw [decodeWord_pktShort h, BitVec.ofNat_toNat, BitVec.setWidth_eq] at hw
  exact (Except.ok.inj hw).symm

theorem decodeFirstOctet_pktLong {o : Octet} {t : Nat} (h : o.toNat = 128 + t) :
    decodeFirstOctet .packet o = .pktLong t := by
  have ht : t < 128 := by have := o.isLt; omega
  have hw := decodeWord_wire .packet o.isLt
  rw [decodeWord_pktLong h ht, BitVec.ofNat_toNat, BitVec.setWidth_eq] at hw
  exact (Except.ok.inj hw).symm

/-- Settles O57: the row's fields give its first octet back, and PK_PARSE peeks the same octet. -/
theorem packetFirstOctetRoutes : Obligations.PacketFirstOctetRoutes := by
  refine ⟨fun s o b hb => ?_, fun s x hx => ⟨raiseError .unknownPacketType 0 s, ?_, rfl, raiseError_kept _ _ _⟩⟩
  · rw [exec_pkParse, hb.pkParse_eq_route]
    by_cases ho : o.toNat < 128
    · rw [decodeFirstOctet_pktShort ho, guardInput_of_le hb.capacity]
      show conclude s (routePacket s (BitVec.ofNat 8 o.toNat)) = _
      rw [BitVec.ofNat_toNat, BitVec.setWidth_eq]
    · have hval : 0x80 ||| (o.toNat - 128) = o.toNat := by
        have hsum : 0x80 ||| (o.toNat - 128) = 1 * 2 ^ 7 + (o.toNat - 128) :=
          shift_or (k := 7) 1 (by have := o.isLt; omega)
        omega
      rw [decodeFirstOctet_pktLong (t := o.toNat - 128) (by omega)]
      show guardInput s (conclude s (routePacket s (BitVec.ofNat 8 (0x80 ||| (o.toNat - 128))))) = _
      rw [hval, BitVec.ofNat_toNat, BitVec.setWidth_eq]
  · show conclude s (routePacket s (BitVec.ofNat 8 x)) = _
    rw [routePacket_short (by rw [toNat_ofNat_octet (by omega)]; exact hx)]
    rfl

/-! ### Each variant through the dispatcher -/

/-- A long-form packet is routed by its version, then by its type (R241). -/
theorem exec_pkParse_of_longPacket {s : State} {p : LongPacket} {rest : List Octet}
    (hb : HoldsInput s (p.octets ++ rest)) (ho : 128 ≤ p.first.toNat) :
    exec .pkParse s =
      if p.version = 0 then exec .vnDec s
      else if p.first.toNat - 128 = s.params.initialType.toNat then exec .ipDec s else exec .lhDec s := by
  have hsplit : p.octets ++ rest = p.first :: (beN 4 p.version.toNat ++
      (idOctets p.dcid p.scid ++ p.lengthField ++ p.pnField ++ p.region ++ rest)) := by
    simp [LongPacket.octets, LongPacket.headOctets]
  have hver : be (beN 4 p.version.toNat) = 0 ↔ p.version = 0 := by
    rw [be_beN_of_lt 4 _ p.version.isLt]
    exact BitVec.toNat_inj (y := 0)
  rw [hsplit] at hb
  rw [hb.exec_pkParse_long ho (beN_length _ _)]
  exact if_congr hver rfl rfl

/-- A packet with version zero is routed to VN_DEC (R241). -/
theorem exec_pkParse_of_vnPacket {s : State} {p : VnPacket} (hb : HoldsInput s p.octets) (ho : 128 ≤ p.first.toNat) :
    exec .pkParse s = exec .vnDec s :=
  pkParseRoutes.2.2.2.1 s p.first (idOctets p.dcid p.scid ++ p.versions.flatMap fun v => beN 4 v.toNat)
    (by simpa [VnPacket.octets] using hb) ho

/-- Settles O49: the routing of each variant, then its own parser. -/
theorem pkParseParsesEachVariant : Obligations.PkParseParsesEachVariant := by
  refine ⟨fun s p rest hf hm ho hv hty hb => ?_, fun s p tl token payload rest hf hm ho hv hty hreg htl hval hb => ?_,
    fun s p hf ho hb => ?_⟩
  · obtain ⟨t, ht, hst, _, hres, hform, hoff, hlen, hcur⟩ := lhDecParsesLongHeader s p rest hf hm hb
    exact ⟨t, by rw [exec_pkParse_of_longPacket hb ho, if_neg hv, if_neg hty, ht], hst, hform, hres, hoff, hlen, hcur⟩
  · obtain ⟨t, ht, hst, _, hres, hform, htok, hoff, _, hlen, hcur⟩ :=
      ipDecParsesInitialPacket s p tl token payload rest hf hm hreg htl hval hb
    exact ⟨t, by rw [exec_pkParse_of_longPacket hb ho, if_neg hv, if_pos hty, ht], hst, hform, hres, htok, hoff, hlen, hcur⟩
  · obtain ⟨t, ht, hst, _, hres⟩ := vnDecCollectsVersionSet s p hf hb
    exact ⟨t, by rw [exec_pkParse_of_vnPacket hb ho, ht], hst, hres⟩

/-- PKT_LONG of the type in a packet's first octet is PK_PARSE of the packet (log 18). -/
theorem exec_pktLong_eq_pkParse {s : State} {o : Octet} {b : List Octet} {ty : Nat} (hb : HoldsInput s (o :: b))
    (ho : o.toNat = 128 + ty) : exec (.pktLong ty) s = exec .pkParse s := by
  rw [← packetFirstOctetRoutes.1 s o b hb, decodeFirstOctet_pktLong ho]

/-- Settles O58: PKT_LONG is PK_PARSE on a buffer that begins with its octet. -/
theorem pktLongParsesEachVariant : Obligations.PktLongParsesEachVariant := by
  obtain ⟨long, initial, versions⟩ := pkParseParsesEachVariant
  refine ⟨fun s p rest ty _ ho hf hm hv hty hb => ?_,
    fun s p tl token payload rest ty _ ho hf hm hv hty hreg htl hval hb => ?_, fun s p ty _ ho hf hb => ?_⟩
  · rw [exec_pktLong_eq_pkParse hb ho]
    exact long s p rest hf hm (by omega) hv (by omega) hb
  · rw [exec_pktLong_eq_pkParse hb ho]
    exact initial s p tl token payload rest hf hm (by omega) hv (by omega) hreg htl hval hb
  · rw [exec_pktLong_eq_pkParse hb ho]
    exact versions s p hf (by omega) hb

/-! ### PK_BUILD -/

/-- The operand value of a long-form builder, and the octets it is read from (R29, R210). -/
theorem longOperand_eq_some {s : State} {h : LongHeader} (hh : s.longOperand = some h) :
    ∃ pnb payload, encPn s.op.hPn.toNat s.op.hPnw.toNat = .ok pnb ∧
      Memory.readRange s.ibuf 0 s.op.ilen = some payload ∧ h = s.longValue pnb payload := by
  simp only [State.longOperand, State.pnOperand] at hh
  cases hpn : encPn s.op.hPn.toNat s.op.hPnw.toNat with
  | error e => simp [hpn] at hh
  | ok pnb =>
    cases hread : Memory.readRange s.ibuf 0 s.op.ilen with
    | none => simp [hpn, hread] at hh
    | some payload =>
      simp only [hpn, hread, Option.some.injEq] at hh
      exact ⟨pnb, payload, rfl, rfl, hh.symm⟩

theorem initialOperand_eq_some {s : State} {p : PacketHeader} (hp : s.initialOperand = some p) :
    ∃ h token, s.longOperand = some h ∧ Memory.readRange s.tokbuf 0 s.op.tlen = some token ∧ p = .initial h token := by
  simp only [State.initialOperand] at hp
  split at hp
  · rename_i h token hh ht
    exact ⟨h, token, hh, ht, (Option.some.inj hp).symm⟩
  · cases hp

theorem holdsInput_of_readRange {s : State} {b : List Octet} (h : Memory.readRange s.ibuf 0 s.op.ilen = some b)
    (hcap : b.length ≤ s.params.bufMax) : HoldsInput s b := by
  have hlen := Memory.readRange_length _ _ _ _ h
  exact ⟨hlen.symm, hlen ▸ hcap, hlen.symm ▸ h⟩

theorem holdsToken_of_readRange {s : State} {b : List Octet} (h : Memory.readRange s.tokbuf 0 s.op.tlen = some b)
    (hcap : b.length ≤ s.params.tokMax) : HoldsToken s b := by
  have hlen := Memory.readRange_length _ _ _ _ h
  exact ⟨hlen.symm, hlen ▸ hcap, hlen.symm ▸ h⟩

/-- The value PK_BUILD serialises, by `H_FORM` (R244). -/
theorem headerOperand_eq (s : State) :
    s.headerOperand =
      if s.op.hForm = 0 then s.longHeaderOperand else if s.op.hForm = 1 then some .short
      else if s.op.hForm = 2 then some s.versionNegotiationOperand else s.initialOperand := by
  unfold State.headerOperand
  rcases form_cases s.op.hForm with h | h | h | h <;> rw [h] <;> rfl

/-- A value is serialised in as many octets as R211, R213 and R214 count. -/
theorem octets_length_eq_wireLength_long {s : State} {pnb : List Octet}
    (hpn : encPn s.op.hPn.toNat s.op.hPnw.toNat = .ok pnb) (payload : List Octet) :
    ((s.longValue pnb payload).packet payload).octets.length =
      (PacketHeader.long (s.longValue pnb payload)).wireLength :=
  LongHeader.packet_octets_length payload (longValue_pn_fits hpn payload)

theorem octets_length_eq_wireLength_initial {s : State} {pnb : List Octet}
    (hpn : encPn s.op.hPn.toNat s.op.hPnw.toNat = .ok pnb) (payload token : List Octet) :
    ((s.longValue pnb payload).packet (initialRegion token payload)).octets.length =
      (PacketHeader.initial (s.longValue pnb payload) token).wireLength := by
  rw [LongHeader.packet_octets_length _ (longValue_pn_fits hpn payload), initialRegion_length]
  simp only [PacketHeader.wireLength, State.longValue, ← Nat.add_assoc]

theorem octets_length_eq_wireLength_vn (s : State) :
    s.vnPacket.octets.length = s.versionNegotiationOperand.wireLength := by
  rw [VnPacket.octets_length, VnPacket.headOctets_length]
  rfl

/-- A builder that emits `b` ends as PK_BUILD is asked to (R244). -/
theorem built_output {i : Instr} {s : State} {b : List Octet} {n : Nat}
    (h : exec i s = .next (completeEncode (emit Out.empty b) id s)) (hn : b.length = n) :
    ∃ t, exec i s = .next t ∧ t.res.status = 0b0000 ∧ OperandsKept s t ∧ HoldsOutput t b ∧ t.res.olen = n ∧
      t.res.rCur = n :=
  have hout := completeEncode_holdsOutput b id s
  ⟨_, h, rfl, completeEncode_kept _ _ _, hout, hout.olen.trans hn, hout.rCur.trans hn⟩

/-- Settles O51: the builder that `H_FORM` names emits the packet of the value the operands hold. -/
theorem pkBuildBuildsEachVariant : Obligations.PkBuildBuildsEachVariant := by
  intro s p hp hready hop hne
  rw [headerOperand_eq] at hop
  rw [exec_pkBuild]
  have input : ∀ {payload}, Memory.readRange s.ibuf 0 s.op.ilen = some payload → HoldsInput s payload := fun h =>
    holdsInput_of_readRange h ((Memory.readRange_length _ _ _ _ h).trans_le hready.ilen)
  split_ifs at hop ⊢ with h0 h1 h2
  · obtain ⟨h, hh, rfl⟩ := Option.map_eq_some_iff.mp hop
    obtain ⟨pnb, payload, hpn, hread, rfl⟩ := longOperand_eq_some hh
    exact built_output (exec_lhEnc_eq_packet hp (input hread) hpn) (octets_length_eq_wireLength_long hpn payload)
  · exact absurd (Option.some.inj hop).symm hne
  · cases hop
    exact built_output (exec_vnEnc_eq_packet hready.nver) (octets_length_eq_wireLength_vn s)
  · obtain ⟨h, token, hh, htok, rfl⟩ := initialOperand_eq_some hop
    obtain ⟨pnb, payload, hpn, hread, rfl⟩ := longOperand_eq_some hh
    have ht := holdsToken_of_readRange htok ((Memory.readRange_length _ _ _ _ htok).trans_le hready.tlen)
    exact built_output (exec_ipEnc_eq_packet hp (input hread) hpn ht)
      (octets_length_eq_wireLength_initial hpn payload token)

end Sys2Proof.Machine

/-! PROOFS. The round trips (44_header_encode.md R216, 45_dispatcher.md R246): built, presented and parsed, a
well-formed value comes back. -/

namespace Sys2Proof.Machine

/-! ### The host presents an output -/

theorem presentOutput_of_holdsOutput {t : State} {b : List Octet} (h : HoldsOutput t b)
    (hcap : b.length ≤ t.params.bufMax) : t.presentOutput = some (t.loadInput b) := by
  rw [State.presentOutput, State.presentOutputOf, h.olen, if_pos hcap, h.octets]
  rfl

theorem holdsInput_loadInput {t : State} {b : List Octet} (hcap : b.length ≤ t.params.bufMax) :
    HoldsInput (t.loadInput b) b :=
  ⟨rfl, hcap, Memory.readRange_ofOctets b⟩

theorem Memory.readRange_congr {m n : Memory} (h : ∀ a, Memory.read m a = Memory.read n a) (a k : Nat) :
    Memory.readRange m a k = Memory.readRange n a k := by
  induction k generalizing a with
  | zero => rfl
  | succ k ih => simp only [Memory.readRange, h, ih]

/-- The octets of a field of the buffer, read back from where the field stands. -/
theorem HoldsInput.readRange_field {s : State} {b x f y : List Octet} (hb : HoldsInput s b) (h : b = x ++ f ++ y) :
    Memory.readRange s.ibuf x.length f.length = some f := by
  have hlen : b.length = x.length + f.length + y.length := by rw [h, List.length_append, List.length_append]
  rw [Memory.readRange_sub _ _ _ hb.octets _ _ (by omega), h]
  simp

/-! ### What a parse of a value's packet reports -/

section report
variable {u w : State}

/-- The fields of a value's packet, and its payload where the result says it is, are the value (R25 to R27). -/
theorem longResult_eq_some {h : LongHeader} {region : List Octet} (hres : LongResults (h.packet region) w.res)
    (hfit : h.pn.fits = true) (hpay : Memory.readRange w.ibuf w.res.hPayOff w.res.hPayLen = some h.payload) :
    w.longResult = some h := by
  have htype : w.res.hType = h.type := BitVec.eq_of_toNat_eq (hres.type.trans (by
    show (BitVec.ofNat 8 (128 + h.type.toNat)).toNat % 128 = h.type.toNat
    have := h.type.isLt
    rw [toNat_longFirst]
    omega))
  have hd : w.res.hDcid.toList.take w.res.hDcil.toNat = h.dcid := hres.dcil.symm ▸ hres.dcid
  have hs : w.res.hScid.toList.take w.res.hScil.toNat = h.scid := hres.scil.symm ▸ hres.scid
  have hpn : w.res.hPn.toNat = h.pn.value := hres.pn.trans (pnValue_pnField hfit)
  have hpnw : w.res.hPnw.toNat = h.pn.width := hres.pnw.trans (pnField_length ((pnFits_iff _).mp hfit).1)
  rw [State.longResult, hpay, Option.map_some, htype, hres.version, hd, hs, hpn, hpnw]
  rfl

theorem headerResult_long {h : LongHeader} (hform : w.res.hForm = 0) (hw : w.longResult = some h) :
    w.headerResult = some (.long h) := by
  rw [State.headerResult, hform, hw]
  rfl

theorem headerResult_initial {h : LongHeader} {token : List Octet} (hform : w.res.hForm = 3)
    (hw : w.longResult = some h)
    (htok : Memory.readRange w.ibuf w.res.hTokOff w.res.hTokLen.toNat = some token) :
    w.headerResult = some (.initial h token) := by
  rw [State.headerResult, hform, hw, htok]
  rfl

/-- LH_DEC of the packet of a long value reports the value. -/
theorem lhDec_reports {h : LongHeader} (hf : (h.packet h.payload).framed = true)
    (hm : (h.packet h.payload).measured = true) (hfit : h.pn.fits = true)
    (hb : HoldsInput u (h.packet h.payload).octets) :
    ∃ w, exec .lhDec u = .next w ∧ w.res.status = 0b0000 ∧ w.headerResult = some (.long h) ∧ w.res.hForm = 0 ∧
      w.res.rCur = (h.packet h.payload).octets.length := by
  obtain ⟨w, hw, hst, hk, hres, hform, hoff, hlen, hcur⟩ :=
    lhDecParsesLongHeader u (h.packet h.payload) [] hf hm (by rwa [List.append_nil])
  have hpay : Memory.readRange w.ibuf w.res.hPayOff w.res.hPayLen = some h.payload := by
    rw [Memory.readRange_congr hk.ibuf, hoff, hlen]
    exact hb.readRange_field (y := []) (List.append_nil _).symm
  exact ⟨w, hw, hst, headerResult_long hform (longResult_eq_some hres hfit hpay), hform, hcur⟩

/-- IP_DEC of the packet of an Initial value reports the value. -/
theorem ipDec_reports {h : LongHeader} {token : List Octet}
    (hf : (h.packet (initialRegion token h.payload)).framed = true)
    (hm : (h.packet (initialRegion token h.payload)).measured = true) (hfit : h.pn.fits = true)
    (htl : token.length ≤ 2 ^ 62 - 1) (hb : HoldsInput u (h.packet (initialRegion token h.payload)).octets) :
    ∃ w, exec .ipDec u = .next w ∧ w.res.status = 0b0000 ∧ w.headerResult = some (.initial h token) ∧
      w.res.hForm = 3 ∧ w.res.rCur = (h.packet (initialRegion token h.payload)).octets.length := by
  obtain ⟨w, hw, hst, hk, hres, hform, htok, htoff, hoff, hlen, hcur⟩ :=
    ipDecParsesInitialPacket u (h.packet (initialRegion token h.payload)) (varIntField token.length) token h.payload []
      hf hm rfl (isVarIntField_varIntField htl) (varIntValue_varIntField htl) (by rwa [List.append_nil])
  have hsplit : (h.packet (initialRegion token h.payload)).octets =
      (h.packet (initialRegion token h.payload)).headOctets ++ varIntField token.length ++ token ++ h.payload := by
    simp [LongPacket.octets, LongHeader.packet, initialRegion]
  have htoken : Memory.readRange w.ibuf w.res.hTokOff w.res.hTokLen.toNat = some token := by
    rw [Memory.readRange_congr hk.ibuf, htoff, htok, ← List.length_append]
    exact hb.readRange_field hsplit
  have hpay : Memory.readRange w.ibuf w.res.hPayOff w.res.hPayLen = some h.payload := by
    rw [Memory.readRange_congr hk.ibuf, hoff, hlen, ← List.length_append, ← List.length_append]
    exact hb.readRange_field (y := []) (hsplit.trans (List.append_nil _).symm)
  exact ⟨w, hw, hst, headerResult_initial hform (longResult_eq_some hres hfit hpay) htoken, hform, hcur⟩

/-- VN_DEC of the packet of a version set reports the set. -/
theorem vnDec_reports {p : VnPacket} (hf : p.framed = true) (hasc : p.versions.Pairwise (· < ·))
    (hb : HoldsInput u p.octets) :
    ∃ w, exec .vnDec u = .next w ∧ w.res.status = 0b0000 ∧
      w.headerResult = some (.versionNegotiation p.dcid p.scid p.versions) ∧ w.res.hForm = 2 ∧
      w.res.rCur = p.octets.length := by
  obtain ⟨w, hw, hst, _, hres⟩ := vnDecCollectsVersionSet u p hf hb
  have hd : w.res.hDcid.toList.take w.res.hDcil.toNat = p.dcid := hres.dcil.symm ▸ hres.dcid
  have hs : w.res.hScid.toList.take w.res.hScil.toNat = p.scid := hres.scil.symm ▸ hres.scid
  have hvs : w.res.vers.take w.res.nver = p.versions := ascending_ext _ _ hres.ascending hasc hres.members
  refine ⟨w, hw, hst, ?_, hres.form, hres.cur⟩
  rw [State.headerResult, hres.form, hd, hs, hvs]
  rfl

end report

/-! ### The three round trips -/

/-- What a builder, the host and the parser of the same variant do with a value `p`. -/
theorem roundTrip {s t : State} {b : List Octet} {p : PacketHeader} {i j : Instr} (hbuild : exec i s = .next t)
    (hout : HoldsOutput t b) (hcap : b.length ≤ t.params.bufMax)
    (hparse : ∀ u, HoldsInput u b → ∃ w, exec j u = .next w ∧ w.res.status = 0b0000 ∧ w.headerResult = some p ∧
      w.res.rCur = b.length) :
    ∃ t u w, exec i s = .next t ∧ t.presentOutput = some u ∧ exec j u = .next w ∧ w.res.status = 0b0000 ∧
      w.headerResult = some p ∧ w.res.rCur = t.res.olen := by
  obtain ⟨w, hw, hst, hres, hcur⟩ := hparse _ (holdsInput_loadInput hcap)
  exact ⟨t, _, w, hbuild, presentOutput_of_holdsOutput hout hcap, hw, hst, hres, hcur.trans hout.olen.symm⟩

/-- A well-formed value's packet fits the buffer (R34). -/
theorem wireLength_le_of_wellFormed {q : Config.Params} {p : PacketHeader} (h : p.wellFormed q = true) :
    p.wireLength ≤ q.bufMax := by
  cases p with
  | short => cases h
  | long | versionNegotiation | initial => exact of_decide_eq_true (Bool.and_elim_right h)

theorem payload_le_of_wellFormed {q : Config.Params} {h : LongHeader} (hw : (PacketHeader.long h).wellFormed q = true) :
    h.payload.length ≤ q.bufMax := by
  simp only [PacketHeader.wellFormed, Bool.and_eq_true, decide_eq_true_eq] at hw
  exact hw.1.2

theorem initial_le_of_wellFormed {q : Config.Params} {h : LongHeader} {token : List Octet}
    (hw : (PacketHeader.initial h token).wellFormed q = true) :
    h.payload.length ≤ q.bufMax ∧ token.length ≤ q.tokMax := by
  simp only [PacketHeader.wellFormed, Bool.and_eq_true, decide_eq_true_eq] at hw
  exact ⟨hw.1.1.2, hw.1.2⟩

/-- The packet a long-form builder emits is well-framed and measured. -/
theorem longValue_packet_framed {s : State} {pnb payload region : List Octet}
    (hpn : encPn s.op.hPn.toNat s.op.hPnw.toNat = .ok pnb) (hlen : pnb.length + region.length ≤ 2 ^ 62 - 1) :
    ((s.longValue pnb payload).packet region).framed = true ∧
      ((s.longValue pnb payload).packet region).measured = true :=
  LongHeader.packet_framed (dcidOperand_length_le s) (scidOperand_length_le s) (longValue_pn_fits hpn payload) hlen

theorem payload_length_le {s : State} {pnb payload : List Octet} (hp : s.params.Legal) (hb : HoldsInput s payload)
    (hpn : encPn s.op.hPn.toNat s.op.hPnw.toNat = .ok pnb) : pnb.length + payload.length ≤ 2 ^ 62 - 1 := by
  have hsum := hp.2.1
  have hpnb := (encPn_ok hpn).1
  simp only [List.mem_cons, List.not_mem_nil, or_false] at hpnb
  have := hb.capacity
  have := hb.ilen
  omega

theorem token_length_le {s : State} {token : List Octet} (hp : s.params.Legal) (ht : HoldsToken s token) :
    token.length ≤ 2 ^ 62 - 1 := by
  have hsum := hp.2.1
  have := ht.capacity
  have := ht.tlen
  omega

/-- LH_DEC gives back what a long-form builder emitted. -/
theorem lhDec_of_longValue {s u : State} {pnb payload : List Octet} (hp : s.params.Legal) (hb : HoldsInput s payload)
    (hpn : encPn s.op.hPn.toNat s.op.hPnw.toNat = .ok pnb)
    (hu : HoldsInput u ((s.longValue pnb payload).packet payload).octets) :
    ∃ w, exec .lhDec u = .next w ∧ w.res.status = 0b0000 ∧
      w.headerResult = some (.long (s.longValue pnb payload)) ∧ w.res.hForm = 0 ∧
      w.res.rCur = ((s.longValue pnb payload).packet payload).octets.length :=
  have ⟨hf, hm⟩ := longValue_packet_framed (payload := payload) hpn (payload_length_le hp hb hpn)
  lhDec_reports (h := s.longValue pnb payload) hf hm (longValue_pn_fits hpn payload) hu

/-- IP_DEC gives back what an Initial builder emitted. -/
theorem ipDec_of_longValue {s u : State} {pnb payload token : List Octet} (hp : s.params.Legal)
    (hb : HoldsInput s payload) (ht : HoldsToken s token) (hpn : encPn s.op.hPn.toNat s.op.hPnw.toNat = .ok pnb)
    (hu : HoldsInput u ((s.longValue pnb payload).packet (initialRegion token payload)).octets) :
    ∃ w, exec .ipDec u = .next w ∧ w.res.status = 0b0000 ∧
      w.headerResult = some (.initial (s.longValue pnb payload) token) ∧ w.res.hForm = 3 ∧
      w.res.rCur = ((s.longValue pnb payload).packet (initialRegion token payload)).octets.length :=
  have ⟨hf, hm⟩ := longValue_packet_framed (payload := payload) hpn (initialRegion_length_le hp hb ht hpn)
  ipDec_reports (h := s.longValue pnb payload) hf hm (longValue_pn_fits hpn payload) (token_length_le hp ht) hu

/-- VN_DEC gives back what a VN_ENC emitted: the operand set is presented ascending (R28). -/
theorem vnDec_of_vnPacket {s u : State} (hu : HoldsInput u s.vnPacket.octets) :
    ∃ w, exec .vnDec u = .next w ∧ w.res.status = 0b0000 ∧ w.headerResult = some s.versionNegotiationOperand ∧
      w.res.hForm = 2 ∧ w.res.rCur = s.vnPacket.octets.length :=
  vnDec_reports (vnPacket_framed s) (versionSet_ascending _) hu

/-- Settles O45: LH_ENC emits the value's packet, LH_DEC reports the value of that packet. -/
theorem longHeaderRoundTrip : Obligations.LongHeaderRoundTrip := by
  intro s p hp hop hwf
  obtain ⟨h, hh, rfl⟩ := Option.map_eq_some_iff.mp hop
  obtain ⟨pnb, payload, hpn, hread, rfl⟩ := longOperand_eq_some hh
  have hb := holdsInput_of_readRange hread (payload_le_of_wellFormed hwf)
  refine roundTrip (exec_lhEnc_eq_packet hp hb hpn) (completeEncode_holdsOutput _ _ _) ?_ fun u hu => ?_
  · exact (octets_length_eq_wireLength_long hpn payload).trans_le (wireLength_le_of_wellFormed hwf)
  · obtain ⟨w, hw, hst, hres, _, hcur⟩ := lhDec_of_longValue hp hb hpn hu
    exact ⟨w, hw, hst, hres, hcur⟩

/-- Settles O46: IP_ENC emits the value's packet, IP_DEC reports the value of that packet. -/
theorem initialPacketRoundTrip : Obligations.InitialPacketRoundTrip := by
  intro s p hp hop hwf
  obtain ⟨h, token, hh, htok, rfl⟩ := initialOperand_eq_some hop
  obtain ⟨pnb, payload, hpn, hread, rfl⟩ := longOperand_eq_some hh
  obtain ⟨hpay, htl⟩ := initial_le_of_wellFormed hwf
  have hb := holdsInput_of_readRange hread hpay
  have ht := holdsToken_of_readRange htok htl
  refine roundTrip (exec_ipEnc_eq_packet hp hb hpn ht) (completeEncode_holdsOutput _ _ _) ?_ fun u hu => ?_
  · exact (octets_length_eq_wireLength_initial hpn payload token).trans_le (wireLength_le_of_wellFormed hwf)
  · obtain ⟨w, hw, hst, hres, _, hcur⟩ := ipDec_of_longValue hp hb ht hpn hu
    exact ⟨w, hw, hst, hres, hcur⟩

/-- Settles O47: VN_ENC emits the set's packet, VN_DEC reports the set. -/
theorem versionNegotiationRoundTrip : Obligations.VersionNegotiationRoundTrip := by
  rintro s p hp hn rfl hwf
  refine roundTrip (exec_vnEnc_eq_packet hn) (completeEncode_holdsOutput _ _ _) ?_ fun u hu => ?_
  · exact (octets_length_eq_wireLength_vn s).trans_le (wireLength_le_of_wellFormed hwf)
  · obtain ⟨w, hw, hst, hres, _, hcur⟩ := vnDec_of_vnPacket hu
    exact ⟨w, hw, hst, hres, hcur⟩

/-! ### Through both dispatchers -/

/-- The form a parser reports (R26). -/
def parserForm : Instr → BitVec 2
  | .lhDec => 0
  | .vnDec => 2
  | _ => 3

theorem exec_parser_form {i : Instr} {u w : State} (hi : i ∈ [.lhDec, .ipDec, .vnDec]) (h : exec i u = .next w)
    (hst : w.res.status = 0b0000) : w.res.hForm = parserForm i := by
  have hc : isCommand i = true := (by decide : ∀ j ∈ [Instr.lhDec, .ipDec, .vnDec], isCommand j = true) i hi
  cases exec_ends hc h with
  | raised => exact absurd hst (errorStatus_ne_zero _)
  | width _ hw => exact absurd hi ((by decide : ∀ j ∈ [Instr.viWid, .pnLen], j ∉ [Instr.lhDec, .ipDec, .vnDec]) i hw)
  | value _ hw => exact absurd hi ((by decide : ∀ j ∈ [Instr.viDec, .pnDec], j ∉ [Instr.lhDec, .ipDec, .vnDec]) i hw)
  | leaf hw => exact absurd hi ((by decide : ∀ j ∈ [Instr.viEnc, .pnEnc], j ∉ [Instr.lhDec, .ipDec, .vnDec]) i hw)
  | built hw =>
    exact absurd hi ((by decide : ∀ j ∈ [Instr.lhEnc, .ipEnc, .vnEnc, .pkBuild],
      j ∉ [Instr.lhDec, .ipDec, .vnDec]) i hw)
  | long hw =>
    exact (by decide : ∀ j ∈ [Instr.lhDec, .pkParse], j ∈ [Instr.lhDec, .ipDec, .vnDec] → 0 = parserForm j) i hw hi
  | initial hw =>
    exact (by decide : ∀ j ∈ [Instr.ipDec, .pkParse], j ∈ [Instr.lhDec, .ipDec, .vnDec] → 3 = parserForm j) i hw hi
  | versions hw =>
    exact (by decide : ∀ j ∈ [Instr.vnDec, .pkParse], j ∈ [Instr.lhDec, .ipDec, .vnDec] → 2 = parserForm j) i hw hi

/-- A parse ends in success and reports `p` with the form `f`. -/
def Reports (w : State) (p : PacketHeader) (f : BitVec 2) : Prop :=
  w.res.status = 0b0000 ∧ w.headerResult = some p ∧ w.res.hForm = f

/-- The parser of another form never reports the value with its own form (R246). -/
theorem not_reports_of_form_ne {i : Instr} {u w : State} {p : PacketHeader} {f : BitVec 2}
    (hi : i ∈ [.lhDec, .ipDec, .vnDec]) (h : exec i u = .next w) (hf : parserForm i ≠ f) : ¬ Reports w p f :=
  fun ⟨hst, _, hform⟩ => hf ((exec_parser_form hi h hst).symm.trans hform)

/-- The value's own parser reports it (R216). -/
theorem reports_of_exec {i : Instr} {u w : State} {p : PacketHeader} {f : BitVec 2} {n : Nat}
    (hown : ∃ w, exec i u = .next w ∧ w.res.status = 0b0000 ∧ w.headerResult = some p ∧ w.res.hForm = f ∧
      w.res.rCur = n) (h : exec i u = .next w) : Reports w p f := by
  obtain ⟨w', hw', hst, hres, hform, _⟩ := hown
  rw [h] at hw'
  cases hw'
  exact ⟨hst, hres, hform⟩

/-- A host that presents an output is ready to parse it (R106, R292). -/
theorem hostReady_loadInput {s t : State} {b : List Octet} (h : HostReady s) (hk : OperandsKept s t)
    (hcap : b.length ≤ t.params.bufMax) : HostReady (t.loadInput b) where
  ilen := hcap
  tlen := by
    show t.op.tlen ≤ t.params.tokMax
    rw [hk.op, hk.params]
    exact h.tlen
  nver := by
    show t.op.nver ≤ t.params.nverMax
    rw [hk.op, hk.params]
    exact h.nver
  input := by
    show (Memory.readRange (Memory.ofOctets b) 0 b.length).isSome
    rw [Memory.readRange_ofOctets]
    rfl
  token := by
    show (Memory.readRange t.tokbuf 0 t.op.tlen).isSome
    rw [hk.op, Memory.readRange_congr hk.tokbuf]
    exact h.token

/-- PK_PARSE of a long-form value's packet, by the value's version and type (R241). -/
theorem exec_pkParse_of_packet {h : LongHeader} {region : List Octet} {u : State}
    (hu : HoldsInput u (h.packet region).octets) :
    exec .pkParse u =
      if h.version = 0 then exec .vnDec u
      else if h.type = u.params.initialType then exec .ipDec u else exec .lhDec u := by
  have hfirst : (h.packet region).first.toNat = 128 + h.type.toNat := toNat_longFirst h.type
  have htype : (h.packet region).first.toNat - 128 = u.params.initialType.toNat ↔ h.type = u.params.initialType := by
    rw [hfirst, Nat.add_sub_cancel_left, BitVec.toNat_inj]
  rw [exec_pkParse_of_longPacket (rest := []) (by rwa [List.append_nil]) (by omega)]
  exact if_congr Iff.rfl rfl (if_congr htype rfl rfl)

/-- Settles O52: PK_BUILD and presentation as in each round trip; PK_PARSE selects the value's own parser exactly under
the stated condition, and the parser of another form reports another form. -/
theorem dispatcherRoundTripExactlyWhen : Obligations.DispatcherRoundTripExactlyWhen := by
  intro s p hp hready hop hwf
  have hne : p ≠ .short := by
    rintro rfl
    cases hwf
  obtain ⟨t, ht, hst, hk, hout, holen, _⟩ := pkBuildBuildsEachVariant s p hp hready hop hne
  have hcap : p.octets.length ≤ t.params.bufMax := by
    rw [← hout.olen, holen, hk.params]
    exact wireLength_le_of_wellFormed hwf
  have hu := holdsInput_loadInput hcap
  have huparams : (t.loadInput p.octets).params.initialType = s.params.initialType := by
    rw [loadInput_params, hk.params]
  obtain ⟨w, hw⟩ := (hostReady_loadInput hready hk hcap).exec_next (i := .pkParse) rfl
  refine ⟨t, t.loadInput p.octets, w, ht, hst, presentOutput_of_holdsOutput hout hcap, hw, ?_⟩
  show Reports w p s.op.hForm ↔ _
  generalize t.loadInput p.octets = u at hu huparams hw
  have input : ∀ {payload}, Memory.readRange s.ibuf 0 s.op.ilen = some payload → HoldsInput s payload := fun h =>
    holdsInput_of_readRange h ((Memory.readRange_length _ _ _ _ h).trans_le hready.ilen)
  rw [headerOperand_eq] at hop
  split_ifs at hop with h0 h1 h2
  · obtain ⟨h, hh, rfl⟩ := Option.map_eq_some_iff.mp hop
    obtain ⟨pnb, payload, hpn, hread, rfl⟩ := longOperand_eq_some hh
    have hown := lhDec_of_longValue hp (input hread) hpn hu
    rw [exec_pkParse_of_packet hu, huparams] at hw
    dsimp only
    rw [h0]
    split_ifs at hw with hv hty
    · exact iff_of_false (not_reports_of_form_ne (by decide) hw (by decide)) fun hc => hc.1 hv
    · exact iff_of_false (not_reports_of_form_ne (by decide) hw (by decide)) fun hc => hc.2 hty
    · exact iff_of_true (reports_of_exec hown hw) ⟨hv, hty⟩
  · exact absurd (Option.some.inj hop).symm hne
  · cases hop
    have hown := vnDec_of_vnPacket hu
    rw [exec_pkParse_of_vnPacket (p := s.vnPacket) hu (show 128 ≤ (0x80 : Octet).toNat by decide)] at hw
    rw [h2]
    exact iff_of_true (reports_of_exec hown hw) trivial
  · obtain ⟨h, token, hh, htok, rfl⟩ := initialOperand_eq_some hop
    obtain ⟨pnb, payload, hpn, hread, rfl⟩ := longOperand_eq_some hh
    have hform : s.op.hForm = 3 := by simpa only [h0, h1, h2, false_or] using form_cases s.op.hForm
    have htoken := holdsToken_of_readRange htok ((Memory.readRange_length _ _ _ _ htok).trans_le hready.tlen)
    have hown := ipDec_of_longValue hp (input hread) htoken hpn hu
    rw [exec_pkParse_of_packet hu, huparams] at hw
    dsimp only
    rw [hform]
    split_ifs at hw with hv hty
    · exact iff_of_false (not_reports_of_form_ne (by decide) hw (by decide)) fun hc => hc.1 hv
    · exact iff_of_true (reports_of_exec hown hw) ⟨hv, hty⟩
    · exact iff_of_false (not_reports_of_form_ne (by decide) hw (by decide)) fun hc => hty hc.2

end Sys2Proof.Machine

/-! PROOFS. The wire items one at a time (30_encoding.md R94 to R96; log 9, log 17). -/

namespace Sys2Proof.Machine

/-! ### An item by its first octet -/

/-- Decoding a first octet gives the row whose word it is (R94 to R97). -/
theorem decodeFirstOctet_of_encode {f : WireFormat} {i : Instr} {o : Octet} (hwf : i.wellFormed = true)
    (hsrc : sourceOf i = .wire f) (h : o.toNat = encode i) : decodeFirstOctet f o = i := by
  have hdec := decodeOfEncode i hwf
  rw [hsrc, ← h, decodeWord_wire f o.isLt, BitVec.ofNat_toNat, BitVec.setWidth_eq] at hdec
  exact Except.ok.inj hdec

theorem ofNat_toNat_octet (o : Octet) : BitVec.ofNat 8 o.toNat = o := by
  rw [BitVec.ofNat_toNat, BitVec.setWidth_eq]

theorem exec_varIntRow {k : Nat} (hk : k < 4) (v : Nat) (s : State) :
    exec (varIntRow k v) s = conclude s (varIntItem s (2 ^ k) (BitVec.ofNat 8 (encode (varIntRow k v)))) := by
  interval_cases k <;> rfl

/-- A VarInt item reads as many octets as its first octet announces (R94, R138). -/
theorem exec_varint_item (o : Octet) (s : State) :
    exec (decodeFirstOctet .varint o) s = conclude s (varIntItem s (varIntWidth o) o) := by
  have hk : o.toNat / 64 < 4 := by have := o.isLt; omega
  have hv : o.toNat % 64 < 64 := Nat.mod_lt _ (by decide)
  have henc : o.toNat = encode (varIntRow (o.toNat / 64) (o.toNat % 64)) := by
    rw [encode_varIntRow hk hv]
    omega
  have hwidth : varIntWidth o = 2 ^ (o.toNat / 64) := by
    rw [varIntWidth, slice_high (k := o.toNat / 64) (v := o.toNat % 64) (by omega) hv hk, Nat.shiftLeft_eq, Nat.one_mul]
  rw [decodeFirstOctet_of_encode (varIntRow_wellFormed hv) (sourceOf_varIntRow _ _) henc, exec_varIntRow hk, ← henc,
    ofNat_toNat_octet, hwidth]

/-- A packet-number item reads as many octets as its first octet announces (R95, R158). -/
theorem exec_pn_item (o : Octet) (s : State) :
    exec (decodeFirstOctet .packetNumber o) s = conclude s (pnItem s (pnLen o) o) := by
  have ho := o.isLt
  have hv : o.toNat % 64 < 64 := Nat.mod_lt _ (by decide)
  rw [pnLen_eq_ite]
  split_ifs with h1 h2
  · rw [decodeFirstOctet_of_encode (i := .pnW1 o.toNat) (decide_eq_true (by omega)) rfl rfl]
    show conclude s (pnItem s 1 (BitVec.ofNat 8 o.toNat)) = _
    rw [ofNat_toNat_octet]
  · have henc : o.toNat = encode (.pnW2 (o.toNat % 64)) := by
      rw [encode_pnW2 hv]
      omega
    rw [decodeFirstOctet_of_encode (i := .pnW2 (o.toNat % 64)) (decide_eq_true hv) rfl henc]
    show conclude s (pnItem s 2 (BitVec.ofNat 8 (encode (.pnW2 (o.toNat % 64))))) = _
    rw [← henc, ofNat_toNat_octet]
  · have henc : o.toNat = encode (.pnW4 (o.toNat % 64)) := by
      rw [encode_pnW4 hv]
      omega
    rw [decodeFirstOctet_of_encode (i := .pnW4 (o.toNat % 64)) (decide_eq_true hv) rfl henc]
    show conclude s (pnItem s 4 (BitVec.ofNat 8 (encode (.pnW4 (o.toNat % 64))))) = _
    rw [← henc, ofNat_toNat_octet]

theorem exec_cil_item (d c : Nat) (s : State) : exec (.cilOctet d c) s = conclude s (cilItem s d c) := rfl

/-! ### An item whose octets are there -/

theorem takeAfterFirst_of_readRange {s : State} {cur : Nat} {first : Octet} {b : List Octet}
    (hbuf : cur + 1 + b.length ≤ s.op.ilen) (hread : Memory.readRange s.ibuf (cur + 1) b.length = some b) :
    takeAfterFirst s cur first (b.length + 1) = .ok (first :: b, cur + 1 + b.length) := by
  rw [takeAfterFirst_eq_bind, skip_of_le (by omega)]
  simp only [Except.bind, Nat.add_sub_cancel, readInput, hread]
  rw [Nat.add_assoc, Nat.add_comm 1]
  rfl

/-- Settles O53: the item of the first octet takes the octets it announces and masks the selector. -/
theorem varIntItemIsRead : Obligations.VarIntItemIsRead := by
  intro i v s first b hi hwf hfirst hfield hbuf hread
  have hsrc : sourceOf i = .wire .varint := by
    simp only [List.mem_cons, List.not_mem_nil, or_false] at hi
    rcases hi with rfl | rfl | rfl | rfl <;> rfl
  have hwidth : varIntWidth first = b.length + 1 := by simpa [isVarIntField] using (beq_iff_eq.mp hfield).symm
  rw [← decodeFirstOctet_of_encode hwf hsrc hfirst, exec_varint_item, hwidth, varIntItem_eq_map,
    takeAfterFirst_of_readRange hbuf hread]
  refine ⟨_, rfl, innerStep_kept _ _ _, rfl, rfl, ?_⟩
  show { s.res with
    rVal := BitVec.ofNat 64 (varIntValue (first :: b)), rWid := BitVec.ofNat 4 (b.length + 1) } = _
  rw [varIntValue, and_ones]
  rfl

/-- A framed packet number is the value below its announcing bits (R158). -/
theorem pnValue_eq_mod_of_framed {b : List Octet} (h : isPnField b = true) : pnValue b = be b % 2 ^ pnBits b.length := by
  have hlen := isPnField_length_mem h
  have hbits : pnBits b.length ≤ if b.length = 4 then 30 else if b.length = 2 then 15 else 8 := by
    simp only [List.mem_cons, List.not_mem_nil, or_false] at hlen
    rcases hlen with h | h | h <;> rw [h] <;> decide
  rw [← Nat.mod_eq_of_lt (pnValue_lt h), pnValue_eq_mod hlen, Nat.mod_mod_of_dvd _ (Nat.pow_dvd_pow 2 hbits)]

/-- Settles O54: the item of the first octet takes the octets it announces and masks the announcing bits. -/
theorem packetNumberItemIsRead : Obligations.PacketNumberItemIsRead := by
  intro i v s first b hi hwf hfirst hfield hbuf hread
  have hsrc : sourceOf i = .wire .packetNumber := by
    simp only [List.mem_cons, List.not_mem_nil, or_false] at hi
    rcases hi with rfl | rfl | rfl <;> rfl
  have hwidth : pnLen first = b.length + 1 := by simpa [isPnField] using (beq_iff_eq.mp hfield).symm
  have hbits : pnBits (first :: b).length = if b.length = 3 then 30 else if b.length = 1 then 14 else 7 := by
    have hlen := isPnField_length_mem hfield
    simp only [List.length_cons, List.mem_cons, List.not_mem_nil, or_false] at hlen
    unfold pnBits
    rw [List.length_cons]
    split_ifs <;> omega
  rw [← decodeFirstOctet_of_encode hwf hsrc hfirst, exec_pn_item, hwidth, pnItem_eq_map,
    takeAfterFirst_of_readRange hbuf hread]
  refine ⟨_, rfl, innerStep_kept _ _ _, rfl, rfl, ?_⟩
  show { s.res with
    rVal := BitVec.ofNat 64 (pnValue (first :: b)), rWid := BitVec.ofNat 4 (b.length + 1) } = _
  rw [pnValue_eq_mod_of_framed hfield, hbits]
  rfl

/-- Two parts of a range that reads. -/
theorem Memory.readRange_append {m : Memory} {a : Nat} {b c : List Octet}
    (h : Memory.readRange m a (b.length + c.length) = some (b ++ c)) :
    Memory.readRange m a b.length = some b ∧ Memory.readRange m (a + b.length) c.length = some c := by
  obtain ⟨_, hi⟩ := (Memory.readRange_eq_some _ _ _ _).mp h
  refine ⟨(Memory.readRange_eq_some _ _ _ _).mpr ⟨rfl, fun i hib => ?_⟩,
    (Memory.readRange_eq_some _ _ _ _).mpr ⟨rfl, fun i hic => ?_⟩⟩
  · rw [hi i (by rw [List.length_append]; omega), List.getElem_append_left hib]
  · rw [Nat.add_assoc, hi (b.length + i) (by rw [List.length_append]; omega),
      List.getElem_append_right (Nat.le_add_right _ _)]
    simp

theorem take_of_readRange {s : State} {cur : Nat} {b : List Octet} (hbuf : cur + b.length ≤ s.op.ilen)
    (hread : Memory.readRange s.ibuf cur b.length = some b) : take s cur b.length = .ok (b, cur + b.length) := by
  rw [take, skip_of_le hbuf, readInput, hread]

/-- An identifier register keeps what is past the identifier written (R25, R172). -/
theorem writeCid_toList {b : List Octet} (h : b.length ≤ 15) (old : Vector Octet 15) :
    (writeCid b old).toList = b ++ old.toList.drop b.length := by
  show (b ++ old.toList.drop b.length).take 15 = _
  refine List.take_of_length_le ?_
  rw [List.length_append, List.length_drop, Vector.length_toList]
  omega

/-- Settles O55: the two identifiers follow one another after the CIL octet. -/
theorem cilItemReadsIdentifiers : Obligations.CilItemReadsIdentifiers := by
  intro s dcid scid hd hs hbuf hread
  obtain ⟨h1, h2⟩ := Memory.readRange_append hread
  have hids : readIds s (s.cur + 1) dcid.length scid.length =
      .ok ⟨dcid.length, scid.length, dcid, scid, s.cur + 1 + dcid.length + scid.length⟩ := by
    simp only [readIds_eq_bind, take_of_readRange (by omega) h1, Except.bind, take_of_readRange hbuf h2, Except.map]
  refine ⟨innerStep (s.cur + 1 + dcid.length + scid.length)
    (writeIds ⟨dcid.length, scid.length, dcid, scid, s.cur + 1 + dcid.length + scid.length⟩) s, ?_,
    innerStep_kept _ _ _, rfl, rfl, ?_, ?_, writeCid_toList hd _, writeCid_toList hs _, rfl⟩
  · rw [exec_cil_item, cilItem_eq_bind, skip_of_le (by omega)]
    simp only [Except.bind, hids]
    rfl
  · exact (BitVec.toNat_ofNat _ _).trans (Nat.mod_eq_of_lt (Nat.lt_of_le_of_lt hd (by decide)))
  · exact (BitVec.toNat_ofNat _ _).trans (Nat.mod_eq_of_lt (Nat.lt_of_le_of_lt hs (by decide)))

/-! ### An item that leaves the buffer -/

theorem takeAfterFirst_short {s : State} {cur w : Nat} (first : Octet) (h : s.op.ilen < cur + w) :
    takeAfterFirst s cur first w = .error (.raised .bufferTooShort cur) := by
  rw [takeAfterFirst_eq_bind, skip_of_lt h]
  rfl

theorem take_short {s : State} {cur n : Nat} (h : s.op.ilen < cur + n) :
    take s cur n = .error (.raised .bufferTooShort cur) := by
  rw [take, skip_of_lt h]

/-- A CIL item stops at the octet itself, at the destination identifier, or at the source identifier (R172). -/
theorem cilItem_short {s : State} {d c : Nat} (h : s.op.ilen < s.cur + 1 + d + c)
    (hread : s.cur + 1 + d ≤ s.op.ilen → (Memory.readRange s.ibuf (s.cur + 1) d).isSome) :
    ∃ cur, cilItem s d c = .error (.raised .bufferTooShort cur) := by
  rw [cilItem_eq_bind]
  by_cases h1 : s.op.ilen < s.cur + 1
  · exact ⟨s.cur, by rw [skip_of_lt h1]; rfl⟩
  rw [skip_of_le (by omega)]
  by_cases h2 : s.op.ilen < s.cur + 1 + d
  · exact ⟨s.cur + 1, by simp only [Except.bind, readIds_eq_bind, take_short h2, Except.map]⟩
  obtain ⟨dcid, hdcid⟩ := Option.isSome_iff_exists.mp (hread (by omega))
  have hlen := Memory.readRange_length _ _ _ _ hdcid
  subst hlen
  refine ⟨s.cur + 1 + dcid.length, ?_⟩
  simp only [Except.bind, readIds_eq_bind, take_of_readRange (by omega) hdcid, take_short h, Except.map]

/-- Settles O56: the announced octets leave the buffer before any of them is read. -/
theorem wireItemPastTheBufferIsTooShort : Obligations.WireItemPastTheBufferIsTooShort := by
  refine ⟨fun s first h => ⟨raiseError .bufferTooShort s.cur s, ?_, rfl, raiseError_kept _ _ _⟩,
    fun s first h => ⟨raiseError .bufferTooShort s.cur s, ?_, rfl, raiseError_kept _ _ _⟩, fun s d c h hread => ?_⟩
  · rw [exec_varint_item, varIntItem_eq_map, takeAfterFirst_short first h]
    rfl
  · rw [exec_pn_item, pnItem_eq_map, takeAfterFirst_short first h]
    rfl
  · obtain ⟨cur, hcil⟩ := cilItem_short h hread
    refine ⟨raiseError .bufferTooShort cur s, ?_, rfl, raiseError_kept _ _ _⟩
    rw [exec_cil_item, hcil]
    rfl

end Sys2Proof.Machine

/-! PROOFS. Where an octet the host never wrote stops the machine (70_reset_and_hazards.md R291, R292; log 3). -/

namespace Sys2Proof.Machine

/-! ### A fault inside an operation is a fault of the command -/

theorem guardInput_conclude_fault {s : State} {r : Except Stop State} {f : Fault} (hcap : s.op.ilen ≤ s.params.bufMax)
    (h : r = .error (.unwritten f)) : guardInput s (conclude s r) = .fault f := by
  rw [guardInput_of_le hcap, h]
  rfl

theorem readInput_unwritten {s : State} {a n i : Nat} (hlo : a ≤ i) (hhi : i < a + n)
    (hnone : Memory.read s.ibuf i = none) : readInput s a n = .error (.unwritten .unwrittenInput) := by
  have hread : Memory.readRange s.ibuf a n = none :=
    (Memory.readRange_eq_none _ _ _).mpr ⟨i - a, by omega, by rwa [Nat.add_sub_cancel' hlo]⟩
  rw [readInput, hread]

theorem readToken_unwritten {s : State} {a : Nat} (h : a < s.op.tlen) (hnone : Memory.read s.tokbuf a = none) :
    readToken s = .error (.unwritten .unwrittenToken) := by
  have hread : Memory.readRange s.tokbuf 0 s.op.tlen = none :=
    (Memory.readRange_eq_none _ _ _).mpr ⟨a, h, by rwa [Nat.zero_add]⟩
  rw [readToken, hread]

/-! ### The decoders -/

theorem longDecode_of_head_error {s : State} {x : Stop} (h : longHead s = .error x) :
    lhDecode s = .error x ∧ ipDecode s = .error x := by
  have hcommon := longCommon_of_head_error h
  constructor
  · rw [lhDecode_eq_map, hcommon]
    rfl
  · rw [ipDecode_eq_bind, hcommon]
    rfl

/-- Octet 0 is the first any parser reads. -/
theorem parser_first_octet_faults {i : Instr} {s : State} (hi : i ∈ [.lhDec, .ipDec, .vnDec, .pkParse])
    (hcap : s.op.ilen ≤ s.params.bufMax) (hpos : 0 < s.op.ilen) (hnone : Memory.read s.ibuf 0 = none) :
    exec i s = .fault .unwrittenInput := by
  have htake : take s 0 1 = .error (.unwritten .unwrittenInput) := take_unwritten le_rfl Nat.one_pos hpos hnone
  have hhead : longHead s = .error (.unwritten .unwrittenInput) := by
    rw [longHead, htake]
    rfl
  have hvn : vnDecode s = .error (.unwritten .unwrittenInput) := by
    rw [vnDecode_eq_bind, htake]
    rfl
  have hpk : pkParse s = .error (.unwritten .unwrittenInput) := by
    rw [pkParse_eq_bind, peek_unwritten hpos hnone]
    rfl
  simp only [List.mem_cons, List.not_mem_nil, or_false] at hi
  rcases hi with rfl | rfl | rfl | rfl
  · exact guardInput_conclude_fault hcap (longDecode_of_head_error hhead).1
  · exact guardInput_conclude_fault hcap (longDecode_of_head_error hhead).2
  · exact guardInput_conclude_fault hcap hvn
  · exact guardInput_conclude_fault hcap hpk

/-- PK_PARSE peeks the first octet and the version: it stops at the cut among them, or routes by them (R240). -/
theorem Window.pkParse_long {s : State} {w v y : List Octet} {o : Octet} {k : Nat} {P : Stop → Prop}
    (hw : Window s w k P) (h : w = o :: (v ++ y)) (hv : v.length = 4) (ho : 128 ≤ o.toNat) :
    (5 ≤ k ∧ pkParse s = if be v = 0 then vnDecode s
      else if o.toNat - 128 = s.params.initialType.toNat then ipDecode s else lhDecode s) ∨
    (k < 5 ∧ ∃ x, pkParse s = .error x ∧ P x) := by
  obtain ⟨v1, v2, v3, v4, rfl⟩ := List.length_eq_four.mp hv
  have hver : 1 ≤ k → Yields k P (peekVersion s) (be [v1, v2, v3, v4]) 5 := fun h1 => by
    rw [peekVersion_eq_bind]
    exact (hw.peek_octet (cur := 0) (i := 1) (o := v1) (by simp [h]) h1).bind (by omega) fun h2 =>
      (hw.peek_octet (cur := 0) (i := 2) (o := v2) (by simp [h]) h2).bind (by omega) fun h3 =>
        (hw.peek_octet (cur := 0) (i := 3) (o := v3) (by simp [h]) h3).bind (by omega) fun h4 =>
          (hw.peek_octet (cur := 0) (i := 4) (o := v4) (by simp [h]) h4).map rfl
  rw [pkParse_eq_bind]
  rcases hw.peek_octet (cur := 0) (i := 0) (o := o) (by simp [h]) (Nat.zero_le _) with
    ⟨hk, hpeek⟩ | ⟨hk, x, hpeek, hx⟩
  · rw [hpeek]
    show (5 ≤ k ∧ routePacket s o = _) ∨ (k < 5 ∧ ∃ x, routePacket s o = .error x ∧ P x)
    rw [routePacket_long ho]
    rcases hver hk with ⟨hk5, hv⟩ | ⟨hk5, x, hv, hx⟩
    · exact .inl ⟨hk5, by rw [hv]; rfl⟩
    · exact .inr ⟨hk5, x, by rw [hv]; rfl, hx⟩
  · exact .inr ⟨by omega, x, by rw [hpeek]; rfl, hx⟩

/-- A long-form head with an unwritten octet stops every parser it is given to (R183; log 3). -/
theorem longHead_octet_faults {i : Instr} {s : State} {p : LongPacket} {k : Nat}
    (hi : i ∈ [.lhDec, .ipDec, .pkParse]) (hf : p.framed = true)
    (hpk : i = .pkParse → 128 ≤ p.first.toNat ∧ p.version ≠ 0) (hcap : s.op.ilen ≤ s.params.bufMax)
    (hw : Window s p.headOctets k (· = .unwritten .unwrittenInput)) (hk : k < p.headOctets.length) :
    exec i s = .fault .unwrittenInput := by
  obtain ⟨_, hhead, rfl⟩ := (hw.longHead hf).stops hk
  obtain ⟨hlh, hip⟩ := longDecode_of_head_error hhead
  simp only [List.mem_cons, List.not_mem_nil, or_false] at hi
  rcases hi with rfl | rfl | rfl
  · exact guardInput_conclude_fault hcap hlh
  · exact guardInput_conclude_fault hcap hip
  · obtain ⟨ho, hv⟩ := hpk rfl
    have hver : be (beN 4 p.version.toNat) ≠ 0 := by
      rw [be_beN_of_lt 4 _ p.version.isLt]
      exact fun h => hv (BitVec.eq_of_toNat_eq h)
    refine guardInput_conclude_fault hcap ?_
    rcases hw.pkParse_long (v := beN 4 p.version.toNat) (y := idOctets p.dcid p.scid ++ p.lengthField ++ p.pnField)
      (by simp [LongPacket.headOctets]) (beN_length _ _) ho with ⟨_, hroute⟩ | ⟨_, _, hstop, rfl⟩
    · rw [hroute, if_neg hver]
      split_ifs
      · exact hip
      · exact hlh
    · exact hstop

/-- A VersionNegotiation packet with an unwritten octet stops VN_DEC, in its head or in its loop (R190; log 3). -/
theorem vnDecode_unwritten {s : State} {p : VnPacket} {k : Nat} (hf : p.framed = true)
    (hilen : s.op.ilen = p.octets.length) (hw : Window s p.octets k (· = .unwritten .unwrittenInput))
    (hk : k < p.octets.length) : vnDecode s = .error (.unwritten .unwrittenInput) := by
  have hlen := p.octets_length
  rcases hw.vnHead p.octets_eq hf with ⟨hhk, hhead⟩ | ⟨_, _, hhead, rfl⟩
  · obtain ⟨fuel, hfuel⟩ := p.fuel hilen.ge
    rcases hw.readVersions hilen.ge (fuel + 1) p.versions (x := p.headOctets) (y := [])
      (by rw [List.append_nil, p.octets_eq]) hhk [] with ⟨hle, _⟩ | ⟨_, _, hloop, rfl⟩
    · omega
    · rw [← hfuel] at hloop
      rw [vnDecode_eq_head_bind, hhead]
      simp only [Except.bind, VnPacket.ids, hloop]
      rfl
  · exact vnDecode_of_head_error hhead

theorem vnPacket_octet_faults {i : Instr} {s : State} {p : VnPacket} {k : Nat} (hi : i ∈ [.vnDec, .pkParse])
    (hf : p.framed = true) (hpk : i = .pkParse → 128 ≤ p.first.toNat) (hcap : s.op.ilen ≤ s.params.bufMax)
    (hilen : s.op.ilen = p.octets.length) (hw : Window s p.octets k (· = .unwritten .unwrittenInput))
    (hk : k < p.octets.length) : exec i s = .fault .unwrittenInput := by
  have hvn := vnDecode_unwritten hf hilen hw hk
  simp only [List.mem_cons, List.not_mem_nil, or_false] at hi
  rcases hi with rfl | rfl
  · exact guardInput_conclude_fault hcap hvn
  · refine guardInput_conclude_fault hcap ?_
    rcases hw.pkParse_long (v := [0, 0, 0, 0])
      (y := idOctets p.dcid p.scid ++ p.versions.flatMap fun v => beN 4 v.toNat)
      (by simp [VnPacket.octets]) rfl (hpk rfl) with ⟨_, hroute⟩ | ⟨_, _, hstop, rfl⟩
    · rw [hroute, if_pos (by decide)]
      exact hvn
    · exact hstop

/-! ### The builders -/

/-- With a good packet number and legal parameters LH_ENC comes to read its payload (R211). -/
theorem lhEncode_unwritten {s : State} {pnb : List Octet} {a : Nat} (hp : s.params.Legal)
    (hcap : s.op.ilen ≤ s.params.bufMax) (hpn : encPn s.op.hPn.toNat s.op.hPnw.toNat = .ok pnb) (ha : a < s.op.ilen)
    (hnone : Memory.read s.ibuf a = none) : lhEncode s = .error (.unwritten .unwrittenInput) := by
  have hlen : pnb.length + s.op.ilen ≤ 2 ^ 62 - 1 := by
    have hsum := hp.2.1
    have hpnb := (encPn_ok hpn).1
    simp only [List.mem_cons, List.not_mem_nil, or_false] at hpnb
    omega
  rw [lhEncode_eq_bind]
  simp only [hpn, raising, Except.bind, encVarInt_eq_varIntField hlen,
    readInput_unwritten (Nat.zero_le a) (by omega : a < 0 + s.op.ilen) hnone, Except.map]

/-- With a good packet number and legal parameters IP_ENC comes to read its token (R213). -/
theorem ipEncode_eq_reads {s : State} {pnb : List Octet} (hp : s.params.Legal) (hcap : s.op.ilen ≤ s.params.bufMax)
    (htok : s.op.tlen ≤ s.params.tokMax) (hpn : encPn s.op.hPn.toNat s.op.hPnw.toNat = .ok pnb) :
    ∃ tlb lb, ipEncode s = (readToken s).bind fun token => (readInput s 0 s.op.ilen).map fun payload =>
      completeEncode (emitAll Out.empty (longPrefix s ++ [lb, pnb, tlb, token, payload])) id s := by
  have hsum := hp.2.1
  have hpnb := (encPn_ok hpn).1
  have hvar := varIntField_length_mem s.op.tlen
  simp only [List.mem_cons, List.not_mem_nil, or_false] at hpnb hvar
  have htl : s.op.tlen ≤ 2 ^ 62 - 1 := by omega
  have hlen : pnb.length + (varIntField s.op.tlen).length + s.op.tlen + s.op.ilen ≤ 2 ^ 62 - 1 := by omega
  refine ⟨varIntField s.op.tlen,
    varIntField (pnb.length + (varIntField s.op.tlen).length + s.op.tlen + s.op.ilen), ?_⟩
  rw [ipEncode_eq_bind]
  simp only [hpn, raising, Except.bind, encVarInt_eq_varIntField htl, encVarInt_eq_varIntField hlen]

/-- Settles O19: each read is reached, and the octet without a value is one it needs. -/
theorem unwrittenOctetFaults : Obligations.UnwrittenOctetFaults := by
  refine ⟨fun s a hcap ha hnone => ?_, fun i s hi hcap hpos hnone => parser_first_octet_faults hi hcap hpos hnone,
    fun i s p k hi hf hpk hcap hbuf hk hread hnone => ?_, fun i s p k hi hf hpk hcap hilen hk hread hnone => ?_,
    fun i s pnb a hi hp hcap hpn ha hnone htok => ?_, fun s pnb a hp hcap htok hpn ha hnone => ?_⟩
  · have htake : take s 0 s.op.ilen = .error (.unwritten .unwrittenInput) :=
      take_unwritten (Nat.zero_le a) (by omega) (by omega) hnone
    refine ⟨fun hlen => guardInput_conclude_fault hcap ?_, fun hlen => guardInput_conclude_fault hcap ?_⟩
    · rw [viDecode_eq_ite, if_pos (by simpa using hlen), htake]
      rfl
    · rw [pnDecode_eq_ite, if_pos (by simpa using hlen), htake]
      rfl
  · exact longHead_octet_faults hi hf hpk hcap (window_unwritten hk.le hbuf hread hnone) hk
  · exact vnPacket_octet_faults hi hf hpk hcap hilen (window_unwritten hk.le hilen.ge hread hnone) hk
  · simp only [List.mem_cons, List.not_mem_nil, or_false] at hi
    rcases hi with rfl | rfl
    · exact guardInput_conclude_fault hcap (lhEncode_unwritten hp hcap hpn ha hnone)
    · obtain ⟨htlen, hsome⟩ := htok rfl
      obtain ⟨token, htoken⟩ := Option.isSome_iff_exists.mp hsome
      obtain ⟨tlb, lb, hip⟩ := ipEncode_eq_reads hp hcap htlen hpn
      have hstop : ipEncode s = .error (.unwritten .unwrittenInput) := by
        rw [hip, readToken, htoken, readInput_unwritten (Nat.zero_le a) (by omega) hnone]
        rfl
      rw [exec_ipEnc, guardInput_of_le hcap, guardToken_of_le htlen, hstop]
      rfl
  · obtain ⟨tlb, lb, hip⟩ := ipEncode_eq_reads hp hcap htok hpn
    rw [exec_ipEnc, guardInput_of_le hcap, guardToken_of_le htok, hip, readToken_unwritten ha hnone]
    rfl

/-! ### The wire items -/

theorem step_of_unwritten {s : State} {f : WireFormat} (h : s.fetch = .wire f) (hlt : fetchOffset s f < s.op.ilen)
    (hnone : Memory.read s.ibuf (fetchOffset s f) = none) : step s = .fault .unwrittenInput := by
  have hpeek : peek s (fetchOffset s f) 0 = .error (.unwritten .unwrittenInput) := peek_unwritten hlt hnone
  rw [step_of_stop (x := .unwritten .unwrittenInput) (by rw [fetchInstr_wire h, hpeek]; rfl)]
  rfl

theorem takeAfterFirst_unwritten {s : State} {cur w a : Nat} (first : Octet) (hlo : cur < a) (hhi : a < cur + w)
    (hbuf : cur + w ≤ s.op.ilen) (hnone : Memory.read s.ibuf a = none) :
    takeAfterFirst s cur first w = .error (.unwritten .unwrittenInput) := by
  rw [takeAfterFirst_eq_bind, skip_of_le hbuf]
  simp only [Except.bind, readInput_unwritten (show cur + 1 ≤ a from hlo) (by omega : a < cur + 1 + (w - 1)) hnone,
    Except.map]

/-- An unwritten octet lies in one of the two identifiers; the one before it may stop the item as well (R172). -/
theorem cilItem_unwritten {s : State} {d c a : Nat} (hlo : s.cur < a) (hhi : a < s.cur + 1 + d + c)
    (hbuf : s.cur + 1 + d + c ≤ s.op.ilen) (hnone : Memory.read s.ibuf a = none) :
    cilItem s d c = .error (.unwritten .unwrittenInput) := by
  have hids : readIds s (s.cur + 1) d c = .error (.unwritten .unwrittenInput) := by
    rw [readIds_eq_bind]
    cases hd : take s (s.cur + 1) d with
    | error x =>
      rcases take_error hd with ⟨_, hlt⟩ | ⟨rfl, _⟩
      · omega
      · rfl
    | ok p =>
      obtain ⟨hcur, _, _, hread⟩ := take_ok hd
      have hpast : s.cur + 1 + d ≤ a := by
        by_contra hlt
        rw [(Memory.readRange_eq_none _ _ _).mpr ⟨a - (s.cur + 1), by omega, by rwa [Nat.add_sub_cancel' hlo]⟩] at hread
        cases hread
      simp only [Except.bind, hcur, take_unwritten hpast hhi hbuf hnone, Except.map]
  rw [cilItem_eq_bind, skip_of_le (by omega)]
  simp only [Except.bind, hids, Except.map]

/-- Settles O60: the fetch peeks the first octet; the item reads the octets after it. -/
theorem unwrittenItemOctetFaults : Obligations.UnwrittenItemOctetFaults := by
  have offset : ∀ (s : State) (f : WireFormat), f ≠ .packet → fetchOffset s f = s.cur := fun s f hf => if_neg hf
  refine ⟨fun s f h hf hlt hnone => ?_, fun s h hlt hnone => step_of_unwritten h hlt hnone,
    fun s first a hlo hnone => ⟨fun hhi hbuf => ?_, fun hhi hbuf => ?_⟩, fun s d c a hlo hhi hbuf hnone => ?_⟩
  · exact step_of_unwritten h (by rwa [offset s f hf]) (by rwa [offset s f hf])
  · rw [exec_varint_item, varIntItem_eq_map, takeAfterFirst_unwritten first hlo hhi hbuf hnone]
    rfl
  · rw [exec_pn_item, pnItem_eq_map, takeAfterFirst_unwritten first hlo hhi hbuf hnone]
    rfl
  · rw [exec_cil_item, cilItem_unwritten hlo hhi hbuf hnone]
    rfl

end Sys2Proof.Machine
